-- ==== Sys2Proof/Word.lean ====
section
/-! DEFINITION. The word and byte types, the top of the address space, and the pattern letters of a truth table. -/

namespace Sys2Proof

/-- XLEN is 32 (00_scope.md R6). -/
abbrev Word := BitVec 32

/-- One byte of memory (20_memory.md R35). -/
abbrev Byte := BitVec 8

/-- The number of byte addresses, 2^32 (00_scope.md R8, 20_memory.md R35). -/
def addressSpace : Nat := 4294967296

/-- The 32-bit 1 or 0 a comparison writes (41_register_alu.md R98, R99). -/
def boolWord (b : Bool) : Word := if b then 1 else 0

/-- One letter of a truth-table pattern: `0`, `1` or the don't care `X` (00_scope.md R14). -/
inductive Tri where
  | O
  | I
  | X
deriving DecidableEq, Repr

end Sys2Proof
end

