-- ==== Sys2Proof/Decode.lean ====
section
/-! DEFINITION. Fields, immediates, the decoder, the opcode table and the encoder (spec/30_encoding.md). -/

namespace Sys2Proof

/-! ### Truth tables (00_scope.md R14) -/

/-- Whether a key's bits match a pattern, both most significant bit first. -/
def matchesPattern : List Tri → (Nat → Bool) → Bool
  | [], _ => true
  | .X :: ts, bit => matchesPattern ts bit
  | .I :: ts, bit => bit ts.length && matchesPattern ts bit
  | .O :: ts, bit => !bit ts.length && matchesPattern ts bit

/-- The value of the first row whose pattern matches; `none` is the unmatched lookup (R14). -/
def lookup {n : Nat} {α : Type} : List (List Tri × α) → BitVec n → Option α
  | [], _ => none
  | (p, v) :: rows, key => if matchesPattern p key.getLsbD then some v else lookup rows key

/-! ### Fields of a word (30_encoding.md R54) -/

/-- A register number from its 5-bit field. -/
def regOf (b : BitVec 5) : RegIdx := ⟨b.toNat, b.isLt⟩

/-- The 5-bit field of a register number. -/
def regBits (r : RegIdx) : BitVec 5 := BitVec.ofNat 5 r.val

/-- `ir[6:0]` (R54). -/
def opcodeOf (w : Word) : BitVec 7 := w.extractLsb' 0 7
/-- `ir[11:7]` (R54). -/
def rdOf (w : Word) : RegIdx := regOf (w.extractLsb' 7 5)
/-- `ir[14:12]` (R54). -/
def funct3Of (w : Word) : BitVec 3 := w.extractLsb' 12 3
/-- `ir[19:15]` (R54). -/
def rs1Of (w : Word) : RegIdx := regOf (w.extractLsb' 15 5)
/-- `ir[24:20]` (R54). -/
def rs2Of (w : Word) : RegIdx := regOf (w.extractLsb' 20 5)
/-- `ir[31:25]` (R54). -/
def funct7Of (w : Word) : BitVec 7 := w.extractLsb' 25 7

/-! ### Immediate bits (30_encoding.md R55, R56), before they are extended to 32 bits -/

/-- `ir[31:20]`. -/
def immI (w : Word) : BitVec 12 := w.extractLsb' 20 12
/-- `ir[31:25] ‖ ir[11:7]`. -/
def immS (w : Word) : BitVec 12 := w.extractLsb' 25 7 ++ w.extractLsb' 7 5
/-- `ir[31] ‖ ir[7] ‖ ir[30:25] ‖ ir[11:8] ‖ 0`. -/
def immSB (w : Word) : BitVec 13 :=
  w.extractLsb' 31 1 ++ w.extractLsb' 7 1 ++ w.extractLsb' 25 6 ++ w.extractLsb' 8 4 ++ 0#1
/-- `ir[31:12]`. -/
def immU (w : Word) : BitVec 20 := w.extractLsb' 12 20
/-- `ir[31] ‖ ir[19:12] ‖ ir[20] ‖ ir[30:21] ‖ 0`. -/
def immUJ (w : Word) : BitVec 21 :=
  w.extractLsb' 31 1 ++ w.extractLsb' 12 8 ++ w.extractLsb' 20 1 ++ w.extractLsb' 21 10 ++ 0#1
/-- The shift amount, bits 24:20 (42_immediate_alu.md R112). -/
def shamtOf (w : Word) : BitVec 5 := w.extractLsb' 20 5

/-- The U immediate: the 20 bits above twelve zeros (30_encoding.md R56). -/
def upperImm (imm : BitVec 20) : Word := imm ++ 0#12

/-- The immediate table (30_encoding.md R56). Its rows are tried in order and it has no catch-all. -/
def immTable : List (List Tri × (Word → Word)) :=
  [ ([.O, .O, .X, .O, .O, .I, .I], fun w => (immI w).signExtend 32),
    ([.I, .I, .O, .O, .I, .I, .I], fun w => (immI w).signExtend 32),
    ([.O, .I, .O, .O, .O, .I, .I], fun w => (immS w).signExtend 32),
    ([.I, .I, .O, .O, .O, .I, .I], fun w => (immSB w).signExtend 32),
    ([.O, .X, .I, .O, .I, .I, .I], fun w => upperImm (immU w)),
    ([.I, .I, .O, .I, .I, .I, .I], fun w => (immUJ w).signExtend 32),
    ([.O, .I, .I, .O, .O, .I, .I], fun _ => 0) ]

/-- `Imm(ir)`; `none` is the unmatched lookup, which stops the core (30_encoding.md R56). -/
def immOf (w : Word) : Option Word := (lookup immTable (opcodeOf w)).map (· w)

/-! ### The decoder (30_encoding.md R58 to R61) -/

/-- Why a decoder turns a word or a byte list away. R60 gives the two word cases one outcome,
UndefinedDecode; their names are the model's (DESIGN CHOICE, safe, log 10). -/
inductive DecodeReject where
  /-- an opcode outside the nine of R58, raised by `decode`; safe -/
  | unsupportedOpcode (w : Word)
  /-- a supported opcode whose funct3 or funct7 R59 does not list, raised by `decode`; safe -/
  | unlistedFunct (w : Word)
  /-- fewer than the 4 bytes of an instruction (R53), raised by `decodeBytes`; safe -/
  | truncated
deriving DecidableEq, Repr

/-- OP, by funct7 and funct3 (R59). -/
def decodeOp (w : Word) : Option Instr :=
  match funct7Of w, funct3Of w with
  | 0b0000000#7, 0b000#3 => some (.add (rdOf w) (rs1Of w) (rs2Of w))
  | 0b0100000#7, 0b000#3 => some (.sub (rdOf w) (rs1Of w) (rs2Of w))
  | 0b0000000#7, 0b001#3 => some (.sll (rdOf w) (rs1Of w) (rs2Of w))
  | 0b0000000#7, 0b010#3 => some (.slt (rdOf w) (rs1Of w) (rs2Of w))
  | 0b0000000#7, 0b011#3 => some (.sltu (rdOf w) (rs1Of w) (rs2Of w))
  | 0b0000000#7, 0b100#3 => some (.xor (rdOf w) (rs1Of w) (rs2Of w))
  | 0b0000000#7, 0b101#3 => some (.srl (rdOf w) (rs1Of w) (rs2Of w))
  | 0b0100000#7, 0b101#3 => some (.sra (rdOf w) (rs1Of w) (rs2Of w))
  | 0b0000000#7, 0b110#3 => some (.or (rdOf w) (rs1Of w) (rs2Of w))
  | 0b0000000#7, 0b111#3 => some (.and (rdOf w) (rs1Of w) (rs2Of w))
  | _, _ => none

/-- The two right shifts, one funct3 told apart by funct7 (R59). -/
def decodeShiftRightImm (w : Word) : Option Instr :=
  match funct7Of w with
  | 0b0000000#7 => some (.srli (rdOf w) (rs1Of w) (shamtOf w))
  | 0b0100000#7 => some (.srai (rdOf w) (rs1Of w) (shamtOf w))
  | _ => none

/-- OP-IMM, by funct3, and by funct7 for the shifts (R59). -/
def decodeOpImm (w : Word) : Option Instr :=
  match funct3Of w with
  | 0b000#3 => some (.addi (rdOf w) (rs1Of w) (immI w))
  | 0b001#3 => if funct7Of w = 0b0000000#7 then some (.slli (rdOf w) (rs1Of w) (shamtOf w)) else none
  | 0b010#3 => some (.slti (rdOf w) (rs1Of w) (immI w))
  | 0b011#3 => some (.sltiu (rdOf w) (rs1Of w) (immI w))
  | 0b100#3 => some (.xori (rdOf w) (rs1Of w) (immI w))
  | 0b101#3 => decodeShiftRightImm w
  | 0b110#3 => some (.ori (rdOf w) (rs1Of w) (immI w))
  | 0b111#3 => some (.andi (rdOf w) (rs1Of w) (immI w))
  | _ => none

/-- LOAD, by funct3 (R59). -/
def decodeLoad (w : Word) : Option Instr :=
  match funct3Of w with
  | 0b000#3 => some (.lb (rdOf w) (rs1Of w) (immI w))
  | 0b001#3 => some (.lh (rdOf w) (rs1Of w) (immI w))
  | 0b010#3 => some (.lw (rdOf w) (rs1Of w) (immI w))
  | 0b100#3 => some (.lbu (rdOf w) (rs1Of w) (immI w))
  | 0b101#3 => some (.lhu (rdOf w) (rs1Of w) (immI w))
  | _ => none

/-- STORE, by funct3 (R59). -/
def decodeStore (w : Word) : Option Instr :=
  match funct3Of w with
  | 0b000#3 => some (.sb (rs2Of w) (rs1Of w) (immS w))
  | 0b001#3 => some (.sh (rs2Of w) (rs1Of w) (immS w))
  | 0b010#3 => some (.sw (rs2Of w) (rs1Of w) (immS w))
  | _ => none

/-- BRANCH, by funct3 (R59). -/
def decodeBranch (w : Word) : Option Instr :=
  match funct3Of w with
  | 0b000#3 => some (.beq (rs1Of w) (rs2Of w) (immSB w))
  | 0b001#3 => some (.bne (rs1Of w) (rs2Of w) (immSB w))
  | 0b100#3 => some (.blt (rs1Of w) (rs2Of w) (immSB w))
  | 0b101#3 => some (.bge (rs1Of w) (rs2Of w) (immSB w))
  | 0b110#3 => some (.bltu (rs1Of w) (rs2Of w) (immSB w))
  | 0b111#3 => some (.bgeu (rs1Of w) (rs2Of w) (immSB w))
  | _ => none

/-- JALR takes funct3 = 000 only (R59). -/
def decodeJalr (w : Word) : Option Instr :=
  if funct3Of w = 0b000#3 then some (.jalr (rdOf w) (rs1Of w) (immI w)) else none

/-- The row of R59 that accepts `w` under its opcode, or the rejection of an unlisted funct. -/
def listed (w : Word) : Option Instr → Except DecodeReject Instr
  | some i => .ok i
  | none => .error (.unlistedFunct w)

/-- A nonzero word (R60): its opcode picks a family of R58. -/
def decodeNonzero (w : Word) : Except DecodeReject Instr :=
  match opcodeOf w with
  | 0b0000011#7 => listed w (decodeLoad w)
  | 0b0010011#7 => listed w (decodeOpImm w)
  | 0b0010111#7 => .ok (.auipc (rdOf w) (immU w))
  | 0b0100011#7 => listed w (decodeStore w)
  | 0b0110011#7 => listed w (decodeOp w)
  | 0b0110111#7 => .ok (.lui (rdOf w) (immU w))
  | 0b1100011#7 => listed w (decodeBranch w)
  | 0b1100111#7 => listed w (decodeJalr w)
  | 0b1101111#7 => .ok (.jal (rdOf w) (immUJ w))
  | _ => .error (.unsupportedOpcode w)

/-- `Decode(w)` (R60): the zero test comes first. -/
def decode (w : Word) : Except DecodeReject Instr :=
  if w = 0 then .ok .sentinel else decodeNonzero w

/-- `Accepted(w)` of R60 and 40_datapath_cycle.md R89: `w` is one of the 37 instructions. -/
def accepted (w : Word) : Bool :=
  match decode w with
  | .ok i => i != .sentinel
  | .error _ => false

/-! ### Bytes (20_memory.md R38, 30_encoding.md R53) -/

/-- A word's four bytes, least significant first. -/
def wordBytes (w : Word) : List Byte :=
  [w.extractLsb' 0 8, w.extractLsb' 8 8, w.extractLsb' 16 8, w.extractLsb' 24 8]

/-- The instruction at the head of a byte list, and the bytes after it. -/
def decodeBytes : List Byte → Except DecodeReject (Instr × List Byte)
  | b0 :: b1 :: b2 :: b3 :: rest =>
    match decode (b3 ++ b2 ++ b1 ++ b0) with
    | .ok i => .ok (i, rest)
    | .error e => .error e
  | _ => .error .truncated

/-- The instruction the decoder reads from an opcode-table word: the word's bytes as the hardware
stores them, given to `decodeBytes`. Every row of the table has 32 bits. -/
def decodeTableWord (nbits w : Nat) : Option Instr :=
  if nbits ≤ 32 then
    match decodeBytes (wordBytes (BitVec.ofNat 32 (w % 2 ^ nbits))) with
    | .ok (i, _) => some i
    | .error _ => none
  else none

/-! ### The opcode table (spec/opcode_table.json, 30_encoding.md R59) -/

/-- One row: a word `w` is of the row when `w &&& mask = fixed`. -/
structure OpcodeRow where
  mnemonic : String
  fixed    : Word
  mask     : Word
deriving DecidableEq, Repr

/-- Whether a word is of a row. -/
def OpcodeRow.accepts (r : OpcodeRow) (w : Word) : Bool := w &&& r.mask == r.fixed

/-- The 37 instruction rows, as the spec's table has them. The sentinel's row is the zero word (R60). -/
def opcodeTable : List OpcodeRow :=
  [ ⟨"LUI", 0x00000037, 0x0000007F⟩, ⟨"AUIPC", 0x00000017, 0x0000007F⟩, ⟨"JAL", 0x0000006F, 0x0000007F⟩, ⟨"JALR", 0x00000067, 0x0000707F⟩,
    ⟨"BEQ", 0x00000063, 0x0000707F⟩, ⟨"BNE", 0x00001063, 0x0000707F⟩, ⟨"BLT", 0x00004063, 0x0000707F⟩, ⟨"BGE", 0x00005063, 0x0000707F⟩,
    ⟨"BLTU", 0x00006063, 0x0000707F⟩, ⟨"BGEU", 0x00007063, 0x0000707F⟩, ⟨"LB", 0x00000003, 0x0000707F⟩, ⟨"LH", 0x00001003, 0x0000707F⟩,
    ⟨"LW", 0x00002003, 0x0000707F⟩, ⟨"LBU", 0x00004003, 0x0000707F⟩, ⟨"LHU", 0x00005003, 0x0000707F⟩, ⟨"SB", 0x00000023, 0x0000707F⟩,
    ⟨"SH", 0x00001023, 0x0000707F⟩, ⟨"SW", 0x00002023, 0x0000707F⟩, ⟨"ADDI", 0x00000013, 0x0000707F⟩, ⟨"SLTI", 0x00002013, 0x0000707F⟩,
    ⟨"SLTIU", 0x00003013, 0x0000707F⟩, ⟨"XORI", 0x00004013, 0x0000707F⟩, ⟨"ORI", 0x00006013, 0x0000707F⟩, ⟨"ANDI", 0x00007013, 0x0000707F⟩,
    ⟨"SLLI", 0x00001013, 0xFE00707F⟩, ⟨"SRLI", 0x00005013, 0xFE00707F⟩, ⟨"SRAI", 0x40005013, 0xFE00707F⟩, ⟨"ADD", 0x00000033, 0xFE00707F⟩,
    ⟨"SUB", 0x40000033, 0xFE00707F⟩, ⟨"SLL", 0x00001033, 0xFE00707F⟩, ⟨"SLT", 0x00002033, 0xFE00707F⟩, ⟨"SLTU", 0x00003033, 0xFE00707F⟩,
    ⟨"XOR", 0x00004033, 0xFE00707F⟩, ⟨"SRL", 0x00005033, 0xFE00707F⟩, ⟨"SRA", 0x40005033, 0xFE00707F⟩, ⟨"OR", 0x00006033, 0xFE00707F⟩,
    ⟨"AND", 0x00007033, 0xFE00707F⟩ ]

/-- An instruction's row name in spec/opcode_table.json. -/
def Instr.mnemonic : Instr → String
  | .lui _ _ => "LUI"
  | .auipc _ _ => "AUIPC"
  | .jal _ _ => "JAL"
  | .jalr _ _ _ => "JALR"
  | .beq _ _ _ => "BEQ"
  | .bne _ _ _ => "BNE"
  | .blt _ _ _ => "BLT"
  | .bge _ _ _ => "BGE"
  | .bltu _ _ _ => "BLTU"
  | .bgeu _ _ _ => "BGEU"
  | .lb _ _ _ => "LB"
  | .lh _ _ _ => "LH"
  | .lw _ _ _ => "LW"
  | .lbu _ _ _ => "LBU"
  | .lhu _ _ _ => "LHU"
  | .sb _ _ _ => "SB"
  | .sh _ _ _ => "SH"
  | .sw _ _ _ => "SW"
  | .addi _ _ _ => "ADDI"
  | .slti _ _ _ => "SLTI"
  | .sltiu _ _ _ => "SLTIU"
  | .xori _ _ _ => "XORI"
  | .ori _ _ _ => "ORI"
  | .andi _ _ _ => "ANDI"
  | .slli _ _ _ => "SLLI"
  | .srli _ _ _ => "SRLI"
  | .srai _ _ _ => "SRAI"
  | .add _ _ _ => "ADD"
  | .sub _ _ _ => "SUB"
  | .sll _ _ _ => "SLL"
  | .slt _ _ _ => "SLT"
  | .sltu _ _ _ => "SLTU"
  | .xor _ _ _ => "XOR"
  | .srl _ _ _ => "SRL"
  | .sra _ _ _ => "SRA"
  | .or _ _ _ => "OR"
  | .and _ _ _ => "AND"
  | .sentinel => "sentinel__halt"

/-! ### The encoder (30_encoding.md R54, R55, R59), used by laws and statements only -/

/-- Format R, and the shift form of format I with the shift amount in the rs2 place. -/
def encodeR (funct7 : BitVec 7) (rs2 rs1 : BitVec 5) (funct3 : BitVec 3) (rd : BitVec 5) (op : BitVec 7) : Word :=
  funct7 ++ rs2 ++ rs1 ++ funct3 ++ rd ++ op

/-- Format I. -/
def encodeI (imm : BitVec 12) (rs1 : BitVec 5) (funct3 : BitVec 3) (rd : BitVec 5) (op : BitVec 7) : Word :=
  imm ++ rs1 ++ funct3 ++ rd ++ op

/-- Format S. -/
def encodeS (imm : BitVec 12) (rs2 rs1 : BitVec 5) (funct3 : BitVec 3) (op : BitVec 7) : Word :=
  imm.extractLsb' 5 7 ++ rs2 ++ rs1 ++ funct3 ++ imm.extractLsb' 0 5 ++ op

/-- Format SB. Bit 0 of the offset has no place. -/
def encodeSB (imm : BitVec 13) (rs2 rs1 : BitVec 5) (funct3 : BitVec 3) (op : BitVec 7) : Word :=
  imm.extractLsb' 12 1 ++ imm.extractLsb' 5 6 ++ rs2 ++ rs1 ++ funct3 ++ imm.extractLsb' 1 4 ++
    imm.extractLsb' 11 1 ++ op

/-- Format U. -/
def encodeU (imm : BitVec 20) (rd : BitVec 5) (op : BitVec 7) : Word := imm ++ rd ++ op

/-- Format UJ. Bit 0 of the offset has no place. -/
def encodeUJ (imm : BitVec 21) (rd : BitVec 5) (op : BitVec 7) : Word :=
  imm.extractLsb' 20 1 ++ imm.extractLsb' 1 10 ++ imm.extractLsb' 11 1 ++ imm.extractLsb' 12 8 ++ rd ++ op

/-- The word of an instruction (R59). -/
def encode : Instr → Word
  | .lui rd imm => encodeU imm (regBits rd) 0b0110111#7
  | .auipc rd imm => encodeU imm (regBits rd) 0b0010111#7
  | .jal rd offset => encodeUJ offset (regBits rd) 0b1101111#7
  | .jalr rd rs1 imm => encodeI imm (regBits rs1) 0b000#3 (regBits rd) 0b1100111#7
  | .beq rs1 rs2 offset => encodeSB offset (regBits rs2) (regBits rs1) 0b000#3 0b1100011#7
  | .bne rs1 rs2 offset => encodeSB offset (regBits rs2) (regBits rs1) 0b001#3 0b1100011#7
  | .blt rs1 rs2 offset => encodeSB offset (regBits rs2) (regBits rs1) 0b100#3 0b1100011#7
  | .bge rs1 rs2 offset => encodeSB offset (regBits rs2) (regBits rs1) 0b101#3 0b1100011#7
  | .bltu rs1 rs2 offset => encodeSB offset (regBits rs2) (regBits rs1) 0b110#3 0b1100011#7
  | .bgeu rs1 rs2 offset => encodeSB offset (regBits rs2) (regBits rs1) 0b111#3 0b1100011#7
  | .lb rd rs1 imm => encodeI imm (regBits rs1) 0b000#3 (regBits rd) 0b0000011#7
  | .lh rd rs1 imm => encodeI imm (regBits rs1) 0b001#3 (regBits rd) 0b0000011#7
  | .lw rd rs1 imm => encodeI imm (regBits rs1) 0b010#3 (regBits rd) 0b0000011#7
  | .lbu rd rs1 imm => encodeI imm (regBits rs1) 0b100#3 (regBits rd) 0b0000011#7
  | .lhu rd rs1 imm => encodeI imm (regBits rs1) 0b101#3 (regBits rd) 0b0000011#7
  | .sb rs2 rs1 imm => encodeS imm (regBits rs2) (regBits rs1) 0b000#3 0b0100011#7
  | .sh rs2 rs1 imm => encodeS imm (regBits rs2) (regBits rs1) 0b001#3 0b0100011#7
  | .sw rs2 rs1 imm => encodeS imm (regBits rs2) (regBits rs1) 0b010#3 0b0100011#7
  | .addi rd rs1 imm => encodeI imm (regBits rs1) 0b000#3 (regBits rd) 0b0010011#7
  | .slti rd rs1 imm => encodeI imm (regBits rs1) 0b010#3 (regBits rd) 0b0010011#7
  | .sltiu rd rs1 imm => encodeI imm (regBits rs1) 0b011#3 (regBits rd) 0b0010011#7
  | .xori rd rs1 imm => encodeI imm (regBits rs1) 0b100#3 (regBits rd) 0b0010011#7
  | .ori rd rs1 imm => encodeI imm (regBits rs1) 0b110#3 (regBits rd) 0b0010011#7
  | .andi rd rs1 imm => encodeI imm (regBits rs1) 0b111#3 (regBits rd) 0b0010011#7
  | .slli rd rs1 shamt => encodeR 0b0000000#7 shamt (regBits rs1) 0b001#3 (regBits rd) 0b0010011#7
  | .srli rd rs1 shamt => encodeR 0b0000000#7 shamt (regBits rs1) 0b101#3 (regBits rd) 0b0010011#7
  | .srai rd rs1 shamt => encodeR 0b0100000#7 shamt (regBits rs1) 0b101#3 (regBits rd) 0b0010011#7
  | .add rd rs1 rs2 => encodeR 0b0000000#7 (regBits rs2) (regBits rs1) 0b000#3 (regBits rd) 0b0110011#7
  | .sub rd rs1 rs2 => encodeR 0b0100000#7 (regBits rs2) (regBits rs1) 0b000#3 (regBits rd) 0b0110011#7
  | .sll rd rs1 rs2 => encodeR 0b0000000#7 (regBits rs2) (regBits rs1) 0b001#3 (regBits rd) 0b0110011#7
  | .slt rd rs1 rs2 => encodeR 0b0000000#7 (regBits rs2) (regBits rs1) 0b010#3 (regBits rd) 0b0110011#7
  | .sltu rd rs1 rs2 => encodeR 0b0000000#7 (regBits rs2) (regBits rs1) 0b011#3 (regBits rd) 0b0110011#7
  | .xor rd rs1 rs2 => encodeR 0b0000000#7 (regBits rs2) (regBits rs1) 0b100#3 (regBits rd) 0b0110011#7
  | .srl rd rs1 rs2 => encodeR 0b0000000#7 (regBits rs2) (regBits rs1) 0b101#3 (regBits rd) 0b0110011#7
  | .sra rd rs1 rs2 => encodeR 0b0100000#7 (regBits rs2) (regBits rs1) 0b101#3 (regBits rd) 0b0110011#7
  | .or rd rs1 rs2 => encodeR 0b0000000#7 (regBits rs2) (regBits rs1) 0b110#3 (regBits rd) 0b0110011#7
  | .and rd rs1 rs2 => encodeR 0b0000000#7 (regBits rs2) (regBits rs1) 0b111#3 (regBits rd) 0b0110011#7
  | .sentinel => 0

end Sys2Proof
end

