-- ==== Sys2Proof/Config.lean ====
section
/-! DEFINITION. The machine's parameters (00_scope.md R9) and its one open value. -/

namespace Sys2Proof

/-- How a fetch treats a `pc` that is not a multiple of 4 (20_memory.md R44, D6). -/
inductive FetchAlign where
  /-- read the 4 bytes at `pc` (the default) -/
  | exact
  /-- read the 4 bytes at `pc & 0xFFFFFFFC` -/
  | alignDown
  /-- stop with MisalignedFetch unless `pc[1:0] = 00` -/
  | trap
deriving DecidableEq, Repr

/-- The parameters of one machine (00_scope.md R9). They are carried beside the state, so that a
statement about every state is a statement about every value of them; no step writes them
(DESIGN CHOICE, safe, log 1). -/
structure Params where
  fetchAlign         : FetchAlign
  misalignedDataTrap : Bool
  textStart          : Word
  spInit             : Word
  gpInit             : Word
deriving DecidableEq, Repr

/-- The default values of 00_scope.md R9. -/
def Params.default : Params where
  fetchAlign         := .exact
  misalignedDataTrap := false
  textStart          := 0x00010000
  spInit             := 0xBFFFFFF0
  gpInit             := 0x10008000

/-- `DATA_START`, where a host places the assembler's data segment: OPEN in the spec (00_scope.md R9,
D15), so a free value. Only the host's data placement reads it (safe, log 9). -/
opaque Config.dataStart : Word

end Sys2Proof
end

