-- ==== Sys2Proof/Machine/State.lean ====
section
/-! DEFINITION. The machine's state, the reasons it stops, and the state after reset (spec/10_state.md, spec/60_exceptions.md). -/

namespace Sys2Proof.Machine

/-- The access widths, 1, 2 and 4 bytes (20_memory.md R42). -/
inductive AccessSize where
  | byte
  | half
  | word
deriving DecidableEq, Repr

/-- The FSM states, in the order they follow each other (10_state.md R24). -/
inductive FsmState where
  | fetch
  | decode
  | execute
  | memory
  | writeback
deriving DecidableEq, Repr

/-- The faults: the stops that are errors, each with the value it records (60_exceptions.md R137).
`cycle`, `fetchDecode` and a load's or store's meaning put one into the stop register; `step` then
answers it from the stopped core (R138, log 3). -/
inductive Fault where
  /-- UndefinedDecode: the latched word is not zero and not accepted (R140), or a truth-table lookup has
  no row (00_scope.md R14). Raised by `fetchDecode` and `cycle`; safe: the core stops. -/
  | undefinedDecode (w : Word)
  /-- AccessOutOfRange: an access's last byte would lie above `0xFFFFFFFF` (R141). Raised by
  `fetchDecode`, `cycle` and the loads and stores; safe: the core stops and no byte is written. -/
  | accessOutOfRange (addr : Word) (size : AccessSize)
  /-- MisalignedFetch: `fetchAlign` is `trap` and `pc[1:0]` is not 00 (R142). Raised by `fetchDecode` and
  `cycle`; safe: the core stops. -/
  | misalignedFetch (pc : Word)
  /-- MisalignedAccess: `misalignedDataTrap` and a data address that is no multiple of its size (R143).
  Raised by `cycle` and the loads and stores; safe: the core stops and no byte is written. -/
  | misalignedAccess (addr : Word) (size : AccessSize)
deriving DecidableEq, Repr

/-- The refusals. -/
inductive Refusal where
  /-- An instruction with no meaning yet, refused by `exec`'s arm; safe. No arm of this model uses it. -/
  | notModelled (mnemonic : String)
deriving DecidableEq, Repr

/-- The stop register (10_state.md R29). -/
inductive Stop where
  /-- the core runs -/
  | none
  /-- the sentinel was latched: the normal end of a program (60_exceptions.md R139) -/
  | endOfProgram
  /-- a fault was raised -/
  | fault (r : Fault)
deriving DecidableEq, Repr

/-- The listed bytes of memory: addresses strictly rising, none of them holding the zero an unlisted
address reads as (20_memory.md R36). -/
abbrev Memory := List Host.Cell

/-- The addresses of the bytes that have been written, strictly rising. The host's sparse iteration of the RAM
gives these, zero bytes among them (70_reset_and_hazards.md R160); a canonical `Memory` does not list a zero. -/
abbrev Written := List Nat

/-- Everything the spec gives the machine (10_state.md), plain data. -/
structure State where
  /-- the parameters; no step writes them (00_scope.md R9, log 1) -/
  params : Params
  /-- the FSM state register `state` (R24) -/
  fsm : FsmState
  /-- the program counter (R21) -/
  pc : Word
  /-- the instruction latch (R25) -/
  ir : Word
  /-- the register file (R16); `readReg` and `writeReg` hard-wire register 0 (R17, log 11) -/
  x : Vector Word 32
  /-- the ALU result register (R26) -/
  aluOut : Word
  /-- the ALU flag (R27) -/
  aluZero : Bool
  /-- the memory read-data register (R28) -/
  memReadData : Word
  /-- the stop register (R29) -/
  stop : Stop
  /-- whether a first tick has happened, after which the host's setters are refused
  (70_reset_and_hazards.md R159; DEDUCED, safe, log 4) -/
  started : Bool
  /-- the RAM (20_memory.md R35) -/
  mem : Memory
  /-- which bytes of the RAM have been written (20_memory.md R36, 70_reset_and_hazards.md R160; log 16) -/
  written : Written
deriving DecidableEq, Repr

/-- The register file after construction: zero but for x2 and x3 (10_state.md R34). -/
def resetRegs (p : Params) : Vector Word 32 :=
  ((Vector.replicate 32 0).set 2 p.spInit).set 3 p.gpInit

/-- The state after construction with given parameters (10_state.md R34). The values of aluOut, aluZero,
memReadData and stop are the spec's own decisions D12 and D10 (log 5); `started` is DEDUCED (log 4). -/
def State.resetWith (p : Params) : State where
  params := p
  fsm := .fetch
  pc := p.textStart
  ir := 0x00000013
  x := resetRegs p
  aluOut := 0
  aluZero := true
  memReadData := 0
  stop := .none
  started := false
  mem := []
  written := []

/-- The machine right after reset, with the default parameters (00_scope.md R9). -/
def State.reset : State := State.resetWith Params.default

end Sys2Proof.Machine
end

