-- ==== Sys2Proof/Machine/Ops.lean ====
section
/-! DEFINITION. The named operations over memory, registers and the stop register (spec/20_memory.md, spec/10_state.md, spec/60_exceptions.md). -/

namespace Sys2Proof.Machine

/-- What an instruction's meaning answers. -/
abbrev Outcome := Host.Outcome State Fault Refusal

/-! ### Memory -/

/-- The canonical form above an address: listed addresses rise strictly from `low`, stay below 2^32, and
no listed byte is the zero an unlisted address reads as (20_memory.md R35, R36). -/
def Memory.wfFrom (low : Nat) : Memory → Bool
  | [] => true
  | (a, b) :: rest => low ≤ a && a < addressSpace && b != 0 && Memory.wfFrom (a + 1) rest

/-- The canonical form of memory. -/
def Memory.wf (m : Memory) : Bool := Memory.wfFrom 0 m

/-- One byte: what is listed, else zero, "Unwritten bytes read as zero" (20_memory.md R36). -/
def Memory.readByte : Memory → Nat → Byte
  | [], _ => 0
  | (a, b) :: rest, k => if k = a then b else Memory.readByte rest k

/-- Put a listed byte before a list, unless it is the zero an unlisted address reads as. -/
def Memory.consByte (k : Nat) (v : Byte) (m : Memory) : Memory := if v = 0 then m else (k, v) :: m

/-- Write one byte and keep the canonical form. -/
def Memory.writeByte : Memory → Nat → Byte → Memory
  | [], k, v => Memory.consByte k v []
  | (a, b) :: rest, k, v =>
    if k < a then Memory.consByte k v ((a, b) :: rest)
    else if k = a then Memory.consByte k v rest
    else (a, b) :: Memory.writeByte rest k v

/-- `n` bytes from `a` as one little-endian value (20_memory.md R38, R39). -/
def Memory.readLE (m : Memory) (a : Nat) : Nat → Word
  | 0 => 0
  | n + 1 => (m.readByte a).setWidth 32 ||| (Memory.readLE m (a + 1) n <<< 8)

/-- The low `n` bytes of `v` at `a`, least significant byte first (20_memory.md R38, R40). -/
def Memory.writeLE (m : Memory) (a : Nat) : Nat → Word → Memory
  | 0, _ => m
  | n + 1, v => Memory.writeLE (m.writeByte a (v.setWidth 8)) (a + 1) n (v >>> 8)

/-- The canonical form above an address: addresses rise strictly from `low` and stay below 2^32. -/
def Written.wfFrom (low : Nat) : Written → Bool
  | [] => true
  | a :: rest => low ≤ a && a < addressSpace && Written.wfFrom (a + 1) rest

/-- The canonical form of the set of written addresses. -/
def Written.wf (w : Written) : Bool := Written.wfFrom 0 w

/-- One more written address. -/
def Written.add : Written → Nat → Written
  | [], k => [k]
  | a :: rest, k =>
    if k < a then k :: a :: rest
    else if k = a then a :: rest
    else a :: Written.add rest k

/-- `n` written addresses from `a` on. -/
def Written.mark (w : Written) (a : Nat) : Nat → Written
  | 0 => w
  | n + 1 => Written.mark (w.add a) (a + 1) n

/-- The size in bytes (20_memory.md R42). -/
def AccessSize.bytes : AccessSize → Nat
  | .byte => 1
  | .half => 2
  | .word => 4

/-- Whether an access stays below the top of the address space (20_memory.md R41). -/
def inRange (addr : Word) (size : AccessSize) : Bool := addr.toNat + size.bytes ≤ addressSpace

/-- Whether an address is a multiple of the access's size (20_memory.md R43). -/
def aligned (addr : Word) (size : AccessSize) : Bool := addr.toNat % size.bytes == 0

/-- `MemRead(addr, n)` (20_memory.md R39): the zero-extended value, or the AccessOutOfRange it raises. -/
def memRead (m : Memory) (addr : Word) (size : AccessSize) : Except Fault Word :=
  if inRange addr size then .ok (m.readLE addr.toNat size.bytes) else .error (.accessOutOfRange addr size)

/-- `MemWrite(addr, n, v)` (20_memory.md R40): the memory after it, or the AccessOutOfRange it raises. -/
def memWrite (m : Memory) (addr : Word) (size : AccessSize) (v : Word) : Except Fault Memory :=
  if inRange addr size then .ok (m.writeLE addr.toNat size.bytes v) else .error (.accessOutOfRange addr size)

/-- The state after a `MemWrite` of `size` bytes at `addr` has left the memory `m`: its bytes count as written
(20_memory.md R40, 70_reset_and_hazards.md R160). -/
def State.stored (s : State) (m : Memory) (addr : Word) (size : AccessSize) : State :=
  { s with mem := m, written := s.written.mark addr.toNat size.bytes }

/-! ### Registers -/

/-- `x[i]`; register 0 reads zero (10_state.md R17). -/
def State.readReg (s : State) (r : RegIdx) : Word := if r = 0 then 0 else s.x[r]

/-- `x[i] <- v`; a write to register 0 is discarded (10_state.md R17). -/
def State.writeReg (s : State) (r : RegIdx) (v : Word) : State :=
  if r = 0 then s else { s with x := s.x.set r v }

/-! ### The fetch address -/

/-- `pc[1:0]` is not 00. -/
def pcMisaligned (pc : Word) : Bool := pc.extractLsb' 0 2 != 0#2

/-- `FetchAddr(pc)` (20_memory.md R44, 40_datapath_cycle.md R88). -/
def State.fetchAddr (s : State) : Word :=
  match s.params.fetchAlign with
  | .exact => s.pc
  | .alignDown => s.pc &&& 0xFFFFFFFC
  | .trap => s.pc

/-- Whether the FETCH cycle raises MisalignedFetch (20_memory.md R44, 60_exceptions.md R142). -/
def State.fetchTraps (s : State) : Bool := s.params.fetchAlign == .trap && pcMisaligned s.pc

/-- What the RAM reads in a cycle with no data access: the word at the fetch address again
(40_datapath_cycle.md R70, R90). Where no word can be fetched at `pc` no instruction runs; the register
then keeps its value (DESIGN CHOICE, unreachable through `step`, log 7). -/
def State.reread (s : State) : Word :=
  match memRead s.mem s.fetchAddr .word with
  | .ok w => w
  | .error _ => s.memReadData

/-! ### The end of an instruction -/

/-- The WRITEBACK cycle's load of `pc` and the return to FETCH (40_datapath_cycle.md R75, R76, R89); the
RAM reads the fetch address again in it (R90). -/
def State.retire (s : State) (nextPc : Word) : State :=
  { s with pc := nextPc, memReadData := s.reread, fsm := .fetch }

/-- `PC4` (40_datapath_cycle.md R86). -/
def State.pc4 (s : State) : Word := s.pc + 4

/-! ### Taking a stop (60_exceptions.md R137; there is no return from one, R149) -/

/-- Raise a stop in a cycle that is in FSM state `at_`: only the stop register changes, the FSM keeps the
stopping state, and `pc` keeps the instruction's address (60_exceptions.md R137, 40_datapath_cycle.md R89). -/
def State.raiseStop (s : State) (at_ : FsmState) (r : Stop) : State := { s with fsm := at_, stop := r }

/-- A stop raised in a MEMORY cycle: `memReadData` holds what EXECUTE read again at the fetch address
(40_datapath_cycle.md R90). -/
def State.raiseInMemory (s : State) (f : Fault) : State :=
  { s with memReadData := s.reread }.raiseStop .memory (.fault f)

/-! ### Fetch and decode (40_datapath_cycle.md R71, R72, R91) -/

/-- The registers after a DECODE that accepts `w`: it is latched, and the FETCH read it (R90). -/
def State.latch (s : State) (w : Word) : State := { s with ir := w, memReadData := w, started := true }

/-- What the FETCH and DECODE cycles come to. -/
inductive Fetched where
  /-- an instruction to carry out, from the state DECODE leaves -/
  | instr (i : Instr) (s : State)
  /-- a stop, with the frozen state -/
  | stopped (s : State)
deriving DecidableEq, Repr

/-- DECODE of the word FETCH read (40_datapath_cycle.md R81): an unaccepted word is latched and raises
UndefinedDecode; the zero word decodes to the sentinel, whose meaning raises EndOfProgram. -/
def State.decodeFetched (s : State) (w : Word) : Fetched :=
  match decode w with
  | .ok i => .instr i (s.latch w)
  | .error _ => .stopped ((s.latch w).raiseStop .decode (.fault (.undefinedDecode w)))

/-- The FETCH and DECODE cycles of one instruction (R91): MisalignedFetch, then the read, then DECODE. -/
def State.fetchDecode (s : State) : Fetched :=
  if s.fetchTraps then
    .stopped ({ s with started := true }.raiseStop .fetch (.fault (.misalignedFetch s.pc)))
  else
    match memRead s.mem s.fetchAddr .word with
    | .error f => .stopped ({ s with started := true }.raiseStop .fetch (.fault f))
    | .ok w => s.decodeFetched w

end Sys2Proof.Machine
end

