-- ==== Sys2Proof/Machine/Operands.lean ====
section
/-! DEFINITION. Operand forms: extended immediates, shift amounts, effective addresses, extended loads. -/

namespace Sys2Proof.Machine

/-- A 12-bit immediate, sign-extended (30_encoding.md R56, formats I and S). -/
def simm (imm : BitVec 12) : Word := imm.signExtend 32

/-- A branch offset, sign-extended from 13 bits (30_encoding.md R56, format SB). -/
def branchOffset (offset : BitVec 13) : Word := offset.signExtend 32

/-- A jump offset, sign-extended from 21 bits (30_encoding.md R56, format UJ). -/
def jumpOffset (offset : BitVec 21) : Word := offset.signExtend 32

/-- `v mod 32`, the low five bits of a register used as a shift amount (00_scope.md R11, 41_register_alu.md R97). -/
def shiftAmount (v : Word) : Nat := (v.extractLsb' 0 5).toNat

/-- The effective address `x[rs1] + imm` modulo 2^32 (44_load_store.md R127). -/
def State.effectiveAddress (s : State) (rs1 : RegIdx) (imm : BitVec 12) : Word := s.readReg rs1 + simm imm

/-- Whether a load sign-extends (44_load_store.md R128). -/
inductive Extension where
  | signed
  | unsigned
deriving DecidableEq, Repr

/-- The 32-bit result of a narrow read (44_load_store.md R128): word reads are not affected. -/
def extendRead (size : AccessSize) (e : Extension) (r : Word) : Word :=
  match size, e with
  | .byte, .signed => (r.setWidth 8).signExtend 32
  | .half, .signed => (r.setWidth 16).signExtend 32
  | .byte, .unsigned => r
  | .half, .unsigned => r
  | .word, _ => r

/-- Whether a data access raises MisalignedAccess (20_memory.md R43, 44_load_store.md R127). -/
def State.accessTraps (s : State) (addr : Word) (size : AccessSize) : Bool :=
  s.params.misalignedDataTrap && !aligned addr size

/-- The bytes a load reads, or the stop it raises: alignment is checked before range (44_load_store.md R127
`Access`, 60_exceptions.md R144). -/
def State.loadData (s : State) (addr : Word) (size : AccessSize) : Except Fault Word :=
  if s.accessTraps addr size then .error (.misalignedAccess addr size) else memRead s.mem addr size

/-- The memory after a store, or the stop it raises, in the same order; a stopped store writes no byte
(44_load_store.md R127, 60_exceptions.md R144). -/
def State.storeData (s : State) (addr : Word) (size : AccessSize) (v : Word) : Except Fault Memory :=
  if s.accessTraps addr size then .error (.misalignedAccess addr size) else memWrite s.mem addr size v

end Sys2Proof.Machine
end

