-- ==== Sys2Proof/Machine/Flags.lean ====
section
/-! DEFINITION. The ALU, its flag, and the conditions of the branches. -/

namespace Sys2Proof.Machine

/-- `aluZero` (10_state.md R27, 40_datapath_cycle.md R84). -/
def zeroFlag (r : Word) : Bool := r == 0

/-- The end of an EXECUTE cycle with `aluCalc = 1`: the result and the flag are written together
(40_datapath_cycle.md R84). -/
def State.setAlu (s : State) (r : Word) : State := { s with aluOut := r, aluZero := zeroFlag r }

/-- `a <s b`, as 0 or 1 (41_register_alu.md R98). -/
def lessSigned (a b : Word) : Word := boolWord (decide (a.toInt < b.toInt))

/-- `a <u b`, as 0 or 1 (41_register_alu.md R99). -/
def lessUnsigned (a b : Word) : Word := boolWord (decide (a.toNat < b.toNat))

/-- The ALU of 40_datapath_cycle.md R84, selected by `aluOp` and `aluAlt`. -/
def alu (aluOp : BitVec 3) (aluAlt : Bool) (a b : Word) : Word :=
  match aluOp with
  | 0b000#3 => if aluAlt then a - b else a + b
  | 0b001#3 => a <<< shiftAmount b
  | 0b010#3 => lessSigned a b
  | 0b011#3 => lessUnsigned a b
  | 0b100#3 => a ^^^ b
  | 0b101#3 => if aluAlt then a.sshiftRight (shiftAmount b) else a >>> shiftAmount b
  | 0b110#3 => a ||| b
  | _ => a &&& b

/-- `shouldBranch` (40_datapath_cycle.md R87). -/
def shouldBranch (branchZero branchNotZero aluZero : Bool) : Bool :=
  (branchZero && aluZero) || (branchNotZero && !aluZero)

end Sys2Proof.Machine
end

