-- ==== Sys2Proof/Machine/Signals.lean ====
section
/-! DEFINITION. The signal bus and the control tables of one cycle (spec/40_datapath_cycle.md R69 to R80, R87, R88). -/

namespace Sys2Proof.Machine

/-! ### Signal values (R69). The selects are enumerations with no bit encoding (D4). -/

/-- `memAddrMuxSrc`. -/
inductive MemAddrSrc where
  | pc
  | aluOut
deriving DecidableEq, Repr

/-- `aluSrc1`. -/
inductive AluSrc1 where
  | reg1
  | pc
deriving DecidableEq, Repr

/-- `aluSrc2`. -/
inductive AluSrc2 where
  | reg2
  | imm
deriving DecidableEq, Repr

/-- `writeDataMuxSrc`. -/
inductive WriteDataSrc where
  | aluOut
  | memRead
  | pc4
  | imm
deriving DecidableEq, Repr

/-- `jumpControlSrc`. -/
inductive JumpSrc where
  | pcImm
  | rs1Imm
deriving DecidableEq, Repr

/-- `pcSrc`. -/
inductive PcSrc where
  | pc4
  | jumpControl
deriving DecidableEq, Repr

/-- The sixteen control signals, driven by the ControlFSM (R69, R70). -/
structure Control where
  memAddrMuxSrc   : MemAddrSrc
  memSize         : BitVec 2
  memUnsigned     : Bool
  memWrite        : Bool
  loadInstr       : Bool
  aluCalc         : Bool
  aluOp           : BitVec 3
  aluAlt          : Bool
  aluSrc1         : AluSrc1
  aluSrc2         : AluSrc2
  regWrite        : Bool
  writeDataMuxSrc : WriteDataSrc
  branchZero      : Bool
  branchNotZero   : Bool
  jumpControlSrc  : JumpSrc
  loadPC          : Bool
deriving DecidableEq, Repr

/-- The defaults the ControlFSM gives every control signal at the start of a cycle (R70, D3). -/
def Control.defaults : Control where
  memAddrMuxSrc   := .pc
  memSize         := 0b10
  memUnsigned     := false
  memWrite        := false
  loadInstr       := false
  aluCalc         := false
  aluOp           := 0b000
  aluAlt          := false
  aluSrc1         := .reg1
  aluSrc2         := .reg2
  regWrite        := false
  writeDataMuxSrc := .aluOut
  branchZero      := false
  branchNotZero   := false
  jumpControlSrc  := .pcImm
  loadPC          := false

/-! ### The four decode tables -/

/-- What a row of the ALU setup table selects (R77). -/
structure AluSetup where
  aluCalc : Bool
  aluOp   : BitVec 3
  aluAlt  : Bool
  aluSrc1 : AluSrc1
  aluSrc2 : AluSrc2
deriving DecidableEq, Repr

/-- `aluAlt` of OP-IMM: `funct7[5]` for the shifts, else 0 (R77 row 2). -/
def shiftAlt (funct3 : BitVec 3) (funct7 : BitVec 7) : Bool :=
  if funct3 = 0b001#3 ∨ funct3 = 0b101#3 then funct7.getLsbD 5 else false

/-- `0 ‖ funct3[2:1]` (R77 row 5). -/
def branchAluOp (funct3 : BitVec 3) : BitVec 3 := 0#1 ++ funct3.extractLsb' 1 2

/-- The ALU setup table, keyed on the opcode (R77). -/
def aluSetupTable : List (List Tri × (BitVec 3 → BitVec 7 → AluSetup)) :=
  [ ([.O, .I, .I, .O, .O, .I, .I], fun f3 f7 => ⟨true, f3, f7.getLsbD 5, .reg1, .reg2⟩),
    ([.O, .O, .I, .O, .O, .I, .I], fun f3 f7 => ⟨true, f3, shiftAlt f3 f7, .reg1, .imm⟩),
    ([.O, .O, .I, .O, .I, .I, .I], fun _ _ => ⟨true, 0b000, false, .pc, .imm⟩),
    ([.O, .X, .O, .O, .O, .I, .I], fun _ _ => ⟨true, 0b000, false, .reg1, .imm⟩),
    ([.I, .I, .O, .O, .O, .I, .I], fun f3 _ => ⟨true, branchAluOp f3, true, .reg1, .reg2⟩),
    ([.I, .I, .O, .O, .I, .I, .I], fun _ _ => ⟨true, 0b000, false, .reg1, .imm⟩),
    ([.I, .I, .O, .I, .I, .I, .I], fun _ _ => ⟨true, 0b000, false, .pc, .imm⟩),
    ([.X, .X, .X, .X, .X, .X, .X], fun _ _ => ⟨false, 0b000, false, .reg1, .reg2⟩) ]

/-- What a row of the memory control table selects (R78). -/
structure MemSetup where
  memWrite      : Bool
  memAddrMuxSrc : MemAddrSrc
  memSize       : BitVec 2
  memUnsigned   : Bool
deriving DecidableEq, Repr

/-- The memory control table, keyed on the opcode; every row takes any funct3 (R78). -/
def memTable : List (List Tri × (BitVec 3 → MemSetup)) :=
  [ ([.O, .O, .O, .O, .O, .I, .I], fun f3 => ⟨false, .aluOut, f3.extractLsb' 0 2, f3.getLsbD 2⟩),
    ([.O, .I, .O, .O, .O, .I, .I], fun f3 => ⟨true, .aluOut, f3.extractLsb' 0 2, f3.getLsbD 2⟩),
    ([.X, .X, .X, .X, .X, .X, .X], fun _ => ⟨false, .pc, 0b10, false⟩) ]

/-- The writeback table, keyed on the opcode: `regWrite` and `writeDataMuxSrc` (R79). -/
def writebackTable : List (List Tri × (Bool × WriteDataSrc)) :=
  [ ([.O, .I, .I, .O, .O, .I, .I], (true, .aluOut)),
    ([.O, .O, .I, .O, .O, .I, .I], (true, .aluOut)),
    ([.O, .O, .I, .O, .I, .I, .I], (true, .aluOut)),
    ([.O, .I, .I, .O, .I, .I, .I], (true, .imm)),
    ([.O, .O, .O, .O, .O, .I, .I], (true, .memRead)),
    ([.I, .I, .O, .I, .I, .I, .I], (true, .pc4)),
    ([.I, .I, .O, .O, .I, .I, .I], (true, .pc4)),
    ([.I, .I, .O, .O, .O, .I, .I], (false, .aluOut)),
    ([.O, .I, .O, .O, .O, .I, .I], (false, .aluOut)),
    ([.X, .X, .X, .X, .X, .X, .X], (false, .aluOut)) ]

/-- What a row of the jump setup table selects (R80). -/
structure JumpSetup where
  branchZero     : Bool
  branchNotZero  : Bool
  jumpControlSrc : JumpSrc
deriving DecidableEq, Repr

/-- The jump setup table, keyed on the opcode and then funct3 (R80). -/
def jumpTable : List (List Tri × JumpSetup) :=
  [ ([.I, .I, .O, .I, .I, .I, .I, .X, .X, .X], ⟨true, true, .pcImm⟩),
    ([.I, .I, .O, .O, .I, .I, .I, .X, .X, .X], ⟨true, true, .rs1Imm⟩),
    ([.I, .I, .O, .O, .O, .I, .I, .O, .O, .O], ⟨true, false, .pcImm⟩),
    ([.I, .I, .O, .O, .O, .I, .I, .O, .O, .I], ⟨false, true, .pcImm⟩),
    ([.I, .I, .O, .O, .O, .I, .I, .I, .O, .O], ⟨false, true, .pcImm⟩),
    ([.I, .I, .O, .O, .O, .I, .I, .I, .O, .I], ⟨true, false, .pcImm⟩),
    ([.I, .I, .O, .O, .O, .I, .I, .I, .I, .O], ⟨false, true, .pcImm⟩),
    ([.I, .I, .O, .O, .O, .I, .I, .I, .I, .I], ⟨true, false, .pcImm⟩),
    ([.X, .X, .X, .X, .X, .X, .X, .X, .X, .X], ⟨false, false, .pcImm⟩) ]

/-- The `memSize` truth table, which has no row for `11` (R82). -/
def memSizeTable : List (List Tri × AccessSize) :=
  [ ([.O, .O], .byte), ([.O, .I], .half), ([.I, .O], .word) ]

/-! ### The ControlFSM: the control signals each state drives for the latched word -/

/-- EXECUTE (R73). -/
def executeControl (ir : Word) : Option Control :=
  (lookup aluSetupTable (opcodeOf ir)).map fun row =>
    let a := row (funct3Of ir) (funct7Of ir)
    { Control.defaults with
      aluCalc := a.aluCalc, aluOp := a.aluOp, aluAlt := a.aluAlt, aluSrc1 := a.aluSrc1, aluSrc2 := a.aluSrc2 }

/-- MEMORY (R74). -/
def memoryControl (ir : Word) : Option Control :=
  (lookup memTable (opcodeOf ir)).map fun row =>
    let m := row (funct3Of ir)
    { Control.defaults with
      memWrite := m.memWrite, memAddrMuxSrc := m.memAddrMuxSrc, memSize := m.memSize, memUnsigned := m.memUnsigned }

/-- WRITEBACK (R75). -/
def writebackControl (ir : Word) : Option Control :=
  match lookup writebackTable (opcodeOf ir), lookup jumpTable (opcodeOf ir ++ funct3Of ir) with
  | some (regWrite, src), some j =>
    some { Control.defaults with
      regWrite := regWrite, writeDataMuxSrc := src, branchZero := j.branchZero,
      branchNotZero := j.branchNotZero, jumpControlSrc := j.jumpControlSrc, loadPC := true }
  | _, _ => none

/-- The ControlFSM (R71 to R75). `none` is an unmatched table lookup, which no state and word gives:
every table it reads ends in a catch-all. -/
def State.control (s : State) : Option Control :=
  match s.fsm with
  | .fetch => some { Control.defaults with memAddrMuxSrc := .pc, memSize := 0b10 }
  | .decode => some { Control.defaults with loadInstr := true }
  | .execute => executeControl s.ir
  | .memory => memoryControl s.ir
  | .writeback => writebackControl s.ir

/-! ### The signals of a cycle -/

/-- Every other signal of the bus (R69). `aluOut`, `aluZero`, `memReadData` and `pcVal` are the registers'
start-of-cycle values. -/
structure Signals where
  opcode       : BitVec 7
  writeReg     : RegIdx
  funct3       : BitVec 3
  readReg1     : RegIdx
  readReg2     : RegIdx
  funct7       : BitVec 7
  immediate    : Word
  readData1    : Word
  readData2    : Word
  aluIn1       : Word
  aluIn2       : Word
  aluOut       : Word
  aluZero      : Bool
  memAddress   : Word
  memReadData  : Word
  pcVal        : Word
  pcVal4       : Word
  shouldBranch : Bool
  pcSrc        : PcSrc
  jumpAddr     : Word
  pcIn         : Word
  writeData    : Word
deriving DecidableEq, Repr

/-- ALUSrcMux1 (R88). -/
def aluSrcMux1 (sel : AluSrc1) (readData1 pcVal : Word) : Word :=
  match sel with
  | .reg1 => readData1
  | .pc => pcVal

/-- ALUSrcMux2 (R88). -/
def aluSrcMux2 (sel : AluSrc2) (readData2 immediate : Word) : Word :=
  match sel with
  | .reg2 => readData2
  | .imm => immediate

/-- MemAddrMux (R88); its PC source is the fetch address. -/
def memAddrMux (sel : MemAddrSrc) (aluOut fetchAddr : Word) : Word :=
  match sel with
  | .pc => fetchAddr
  | .aluOut => aluOut

/-- WriteDataMux (R88). -/
def writeDataMux (sel : WriteDataSrc) (aluOut memReadData pcVal4 immediate : Word) : Word :=
  match sel with
  | .aluOut => aluOut
  | .memRead => memReadData
  | .pc4 => pcVal4
  | .imm => immediate

/-- PCSrcMux (R88). -/
def pcSrcMux (sel : PcSrc) (pcVal4 jumpAddr : Word) : Word :=
  match sel with
  | .pc4 => pcVal4
  | .jumpControl => jumpAddr

/-- JumpControl's base (R87). -/
def jumpBase (sel : JumpSrc) (pcVal readData1 : Word) : Word :=
  match sel with
  | .pcImm => pcVal
  | .rs1Imm => readData1

/-- The signals of a cycle, from the start-of-cycle registers, the control signals and `Imm(ir)`
(R67, R68, R81, R85 to R88). -/
def State.signals (s : State) (c : Control) (imm : Word) : Signals :=
  let readData1 := s.readReg (rs1Of s.ir)
  let readData2 := s.readReg (rs2Of s.ir)
  let branch := shouldBranch c.branchZero c.branchNotZero s.aluZero
  let pcSrc := if branch then PcSrc.jumpControl else PcSrc.pc4
  let jumpAddr := jumpBase c.jumpControlSrc s.pc readData1 + imm
  { opcode := opcodeOf s.ir
    writeReg := rdOf s.ir
    funct3 := funct3Of s.ir
    readReg1 := rs1Of s.ir
    readReg2 := rs2Of s.ir
    funct7 := funct7Of s.ir
    immediate := imm
    readData1 := readData1
    readData2 := readData2
    aluIn1 := aluSrcMux1 c.aluSrc1 readData1 s.pc
    aluIn2 := aluSrcMux2 c.aluSrc2 readData2 imm
    aluOut := s.aluOut
    aluZero := s.aluZero
    memAddress := memAddrMux c.memAddrMuxSrc s.aluOut s.fetchAddr
    memReadData := s.memReadData
    pcVal := s.pc
    pcVal4 := s.pc4
    shouldBranch := branch
    pcSrc := pcSrc
    jumpAddr := jumpAddr
    pcIn := pcSrcMux pcSrc s.pc4 jumpAddr
    writeData := writeDataMux c.writeDataMuxSrc s.aluOut s.memReadData s.pc4 imm }

end Sys2Proof.Machine
end

