-- ==== Sys2Proof/Machine/Cycle.lean ====
section
/-! DEFINITION. One clock cycle as a register transfer, and the host's clock (spec/40_datapath_cycle.md R83, R89, R92, R93). -/

namespace Sys2Proof.Machine

/-- The FSM state after this one, `(state + 1) mod 5` (10_state.md R24, 40_datapath_cycle.md R76). -/
def FsmState.succ : FsmState → FsmState
  | .fetch => .decode
  | .decode => .execute
  | .execute => .memory
  | .memory => .writeback
  | .writeback => .fetch

/-- The FSM state's number (10_state.md R24). -/
def FsmState.number : FsmState → Nat
  | .fetch => 0
  | .decode => 1
  | .execute => 2
  | .memory => 3
  | .writeback => 4

/-- The RAM's result: the bytes read, extended to 32 bits; a word read is not sign-affected (R83). -/
def ramExtend (size : AccessSize) (memUnsigned : Bool) (r : Word) : Word :=
  extendRead size (if memUnsigned then .unsigned else .signed) r

/-- What a RAM cycle leaves: the RAM's bytes, which of them have been written, and the word read. -/
structure RamResult where
  mem     : Memory
  written : Written
  data    : Word
deriving DecidableEq, Repr

/-- The read that ends every RAM cycle, after any store of the cycle (R83). -/
def ramRead (m : Memory) (wr : Written) (size : AccessSize) (memUnsigned : Bool) (addr : Word) :
    Except Fault RamResult :=
  match memRead m addr size with
  | .error f => .error f
  | .ok r => .ok ⟨m, wr, ramExtend size memUnsigned r⟩

/-- `RamCycle` (R83): the alignment check of a data access, the store, then the read. An unmatched
`memSize` raises UndefinedDecode (R82); it records the latched word (DESIGN CHOICE, unreachable, log 12). -/
def State.ramCycle (s : State) (c : Control) (g : Signals) : Except Fault RamResult :=
  match lookup memSizeTable c.memSize with
  | none => .error (.undefinedDecode s.ir)
  | some size =>
    if s.params.misalignedDataTrap && c.memAddrMuxSrc == .aluOut && !aligned g.memAddress size then
      .error (.misalignedAccess g.memAddress size)
    else if c.memWrite then
      match memWrite s.mem g.memAddress size g.readData2 with
      | .error f => .error f
      | .ok m => ramRead m (s.written.mark g.memAddress.toNat size.bytes) size c.memUnsigned g.memAddress
    else ramRead s.mem s.written size c.memUnsigned g.memAddress

/-- The ALU's registers at the end of a cycle (R84 `AluCycle`). -/
def State.aluCycle (s : State) (c : Control) (g : Signals) : State :=
  if c.aluCalc then s.setAlu (alu c.aluOp c.aluAlt g.aluIn1 g.aluIn2) else s

/-- The register file at the end of a cycle (R85). -/
def State.regCycle (s : State) (c : Control) (g : Signals) : State :=
  if c.regWrite then s.writeReg g.writeReg g.writeData else s

/-- The end of a cycle: every register loads together (R89). `g` and `c` were computed from `s`. -/
def State.commit (s : State) (c : Control) (g : Signals) (ram : RamResult) : State :=
  let s1 := (s.aluCycle c g).regCycle c g
  { s1 with
    mem := ram.mem
    written := ram.written
    memReadData := ram.data
    ir := if c.loadInstr then g.memReadData else s1.ir
    pc := if c.loadPC then g.pcIn else s1.pc
    fsm := s1.fsm.succ }

/-- The stop a cycle raises before the register file is read, and the word DECODE then leaves in `ir`
(R81, R89, 60_exceptions.md R144): MisalignedFetch in FETCH; EndOfProgram, then UndefinedDecode in DECODE. -/
def State.earlyStop (s : State) (c : Control) : Option State :=
  if s.fsm == .fetch && s.fetchTraps then some (s.raiseStop s.fsm (.fault (.misalignedFetch s.pc)))
  else if c.loadInstr && s.memReadData == 0 then
    some ({ s with ir := s.memReadData }.raiseStop s.fsm .endOfProgram)
  else if c.loadInstr && !accepted s.memReadData then
    some ({ s with ir := s.memReadData }.raiseStop s.fsm (.fault (.undefinedDecode s.memReadData)))
  else none

/-- The rest of a cycle that raised no early stop: signals, RAM, and the register loads. An opcode the
immediate table has no row for raises UndefinedDecode (30_encoding.md R56). -/
def State.transfer (s : State) (c : Control) : State :=
  match immOf s.ir with
  | none => s.raiseStop s.fsm (.fault (.undefinedDecode s.ir))
  | some imm =>
    match s.ramCycle c (s.signals c imm) with
    | .error f => s.raiseStop s.fsm (.fault f)
    | .ok ram => s.commit c (s.signals c imm) ram

/-- `Cycle()` (R89), for a running core. A cycle that raises a stop leaves every register as it was but
`stop` and, in DECODE, `ir`, and writes no memory byte. -/
def cycle (s : State) : State :=
  match s.control with
  | none => s.raiseStop s.fsm (.fault (.undefinedDecode s.ir))
  | some c =>
    match s.earlyStop c with
    | some s' => s'
    | none => s.transfer c

/-- What `tick()` tells the host (R92). -/
inductive TickResult where
  /-- `true`: the cycle completed -/
  | completed
  /-- `false`: the program is done -/
  | done
  /-- an error, for a fault -/
  | error (r : Fault)
deriving DecidableEq, Repr

/-- The outcome a stop register stands for (R92, 60_exceptions.md R138). -/
def Stop.result : Stop → TickResult
  | .none => .completed
  | .endOfProgram => .done
  | .fault r => .error r

/-- The state a `tick()` leaves (R92): one cycle of a running core; a stopped core is quiescent
(60_exceptions.md R138). -/
def tickState (s : State) : State :=
  match s.stop with
  | .none => cycle { s with started := true }
  | .endOfProgram => s
  | .fault _ => s

/-- `tick()` (R92): the state it leaves and what it tells the host. -/
def tick (s : State) : State × TickResult := (tickState s, (tickState s).stop.result)

/-- `n` ticks. -/
def ticks : Nat → State → State
  | 0, s => s
  | n + 1, s => ticks n (tickState s)

/-- `run()` (R93), for at most `fuel` ticks: `none` while it has not ended. A program that never ends has
no result at any fuel (log 15). -/
def run : Nat → State → Option (State × TickResult)
  | 0, _ => none
  | n + 1, s =>
    match (tickState s).stop with
    | .none => run n (tickState s)
    | .endOfProgram => some (tickState s, .done)
    | .fault r => some (tickState s, .error r)

end Sys2Proof.Machine
end

