-- ==== Sys2Proof/Machine/ControlTransfer.lean ====
section
/-! DEFINITION. The six branches, JAL and JALR (spec/43_control_transfer.md). -/

namespace Sys2Proof.Machine

/-- A branch (R117): EXECUTE leaves the comparison's ALU result `r`; `pc` takes `pc + offset` or PC4. No
register and no memory byte is written. -/
def State.finishBranch (s : State) (r : Word) (taken : Bool) (offset : BitVec 13) : Outcome :=
  .next ((s.setAlu r).retire (if taken then s.pc + branchOffset offset else s.pc4))

/-- BEQ (R119); the ALU result is the difference (R118). -/
def execBeq (rs1 rs2 : RegIdx) (offset : BitVec 13) (s : State) : Outcome :=
  s.finishBranch (s.readReg rs1 - s.readReg rs2) (s.readReg rs1 == s.readReg rs2) offset

/-- BNE (R120); the ALU result is the difference (R118). -/
def execBne (rs1 rs2 : RegIdx) (offset : BitVec 13) (s : State) : Outcome :=
  s.finishBranch (s.readReg rs1 - s.readReg rs2) (s.readReg rs1 != s.readReg rs2) offset

/-- BLT (R121); the ALU result is the signed less-than (R118). -/
def execBlt (rs1 rs2 : RegIdx) (offset : BitVec 13) (s : State) : Outcome :=
  s.finishBranch (lessSigned (s.readReg rs1) (s.readReg rs2))
    (decide ((s.readReg rs1).toInt < (s.readReg rs2).toInt)) offset

/-- BGE (R122); the ALU result is the signed less-than (R118). -/
def execBge (rs1 rs2 : RegIdx) (offset : BitVec 13) (s : State) : Outcome :=
  s.finishBranch (lessSigned (s.readReg rs1) (s.readReg rs2))
    (decide ((s.readReg rs1).toInt ≥ (s.readReg rs2).toInt)) offset

/-- BLTU (R123); the ALU result is the unsigned less-than (R118). -/
def execBltu (rs1 rs2 : RegIdx) (offset : BitVec 13) (s : State) : Outcome :=
  s.finishBranch (lessUnsigned (s.readReg rs1) (s.readReg rs2))
    (decide ((s.readReg rs1).toNat < (s.readReg rs2).toNat)) offset

/-- BGEU (R124); the ALU result is the unsigned less-than (R118). -/
def execBgeu (rs1 rs2 : RegIdx) (offset : BitVec 13) (s : State) : Outcome :=
  s.finishBranch (lessUnsigned (s.readReg rs1) (s.readReg rs2))
    (decide ((s.readReg rs1).toNat ≥ (s.readReg rs2).toNat)) offset

/-- A jump to `target` with the link PC4 in `rd` (R125, R126). The ALU computes the same sum, which no
later cycle uses. -/
def State.finishJump (s : State) (rd : RegIdx) (target : Word) : Outcome :=
  .next (((s.setAlu target).retire target).writeReg rd s.pc4)

/-- JAL (R125). -/
def execJal (rd : RegIdx) (offset : BitVec 21) (s : State) : Outcome :=
  s.finishJump rd (s.pc + jumpOffset offset)

/-- JALR (R126): the target uses the old `x[rs1]`, and no bit of it is cleared. -/
def execJalr (rd rs1 : RegIdx) (imm : BitVec 12) (s : State) : Outcome :=
  s.finishJump rd (s.readReg rs1 + simm imm)

end Sys2Proof.Machine
end

