-- ==== Sys2Proof/Machine/RegisterAlu.lean ====
section
/-! DEFINITION. The ten OP instructions (spec/41_register_alu.md). -/

namespace Sys2Proof.Machine

/-- An instruction whose ALU result goes to `rd` and whose next `pc` is PC4 (41_register_alu.md R94). -/
def State.finishAlu (s : State) (rd : RegIdx) (r : Word) : Outcome :=
  .next (((s.setAlu r).retire s.pc4).writeReg rd r)

/-- ADD (R95). -/
def execAdd (rd rs1 rs2 : RegIdx) (s : State) : Outcome := s.finishAlu rd (s.readReg rs1 + s.readReg rs2)

/-- SUB (R96). -/
def execSub (rd rs1 rs2 : RegIdx) (s : State) : Outcome := s.finishAlu rd (s.readReg rs1 - s.readReg rs2)

/-- SLL (R97). -/
def execSll (rd rs1 rs2 : RegIdx) (s : State) : Outcome :=
  s.finishAlu rd (s.readReg rs1 <<< shiftAmount (s.readReg rs2))

/-- SLT (R98). -/
def execSlt (rd rs1 rs2 : RegIdx) (s : State) : Outcome :=
  s.finishAlu rd (lessSigned (s.readReg rs1) (s.readReg rs2))

/-- SLTU (R99). -/
def execSltu (rd rs1 rs2 : RegIdx) (s : State) : Outcome :=
  s.finishAlu rd (lessUnsigned (s.readReg rs1) (s.readReg rs2))

/-- XOR (R100). -/
def execXor (rd rs1 rs2 : RegIdx) (s : State) : Outcome := s.finishAlu rd (s.readReg rs1 ^^^ s.readReg rs2)

/-- SRL (R101). -/
def execSrl (rd rs1 rs2 : RegIdx) (s : State) : Outcome :=
  s.finishAlu rd (s.readReg rs1 >>> shiftAmount (s.readReg rs2))

/-- SRA (R102). -/
def execSra (rd rs1 rs2 : RegIdx) (s : State) : Outcome :=
  s.finishAlu rd ((s.readReg rs1).sshiftRight (shiftAmount (s.readReg rs2)))

/-- OR (R103). -/
def execOr (rd rs1 rs2 : RegIdx) (s : State) : Outcome := s.finishAlu rd (s.readReg rs1 ||| s.readReg rs2)

/-- AND (R104). -/
def execAnd (rd rs1 rs2 : RegIdx) (s : State) : Outcome := s.finishAlu rd (s.readReg rs1 &&& s.readReg rs2)

end Sys2Proof.Machine
end

