-- ==== Sys2Proof/Machine/ImmediateAlu.lean ====
section
/-! DEFINITION. The nine OP-IMM instructions, LUI and AUIPC (spec/42_immediate_alu.md). -/

namespace Sys2Proof.Machine

/-- ADDI (R106). -/
def execAddi (rd rs1 : RegIdx) (imm : BitVec 12) (s : State) : Outcome :=
  s.finishAlu rd (s.readReg rs1 + simm imm)

/-- SLTI (R107). -/
def execSlti (rd rs1 : RegIdx) (imm : BitVec 12) (s : State) : Outcome :=
  s.finishAlu rd (lessSigned (s.readReg rs1) (simm imm))

/-- SLTIU (R108): the immediate is sign-extended, then compared unsigned. -/
def execSltiu (rd rs1 : RegIdx) (imm : BitVec 12) (s : State) : Outcome :=
  s.finishAlu rd (lessUnsigned (s.readReg rs1) (simm imm))

/-- XORI (R109). -/
def execXori (rd rs1 : RegIdx) (imm : BitVec 12) (s : State) : Outcome :=
  s.finishAlu rd (s.readReg rs1 ^^^ simm imm)

/-- ORI (R110). -/
def execOri (rd rs1 : RegIdx) (imm : BitVec 12) (s : State) : Outcome :=
  s.finishAlu rd (s.readReg rs1 ||| simm imm)

/-- ANDI (R111). -/
def execAndi (rd rs1 : RegIdx) (imm : BitVec 12) (s : State) : Outcome :=
  s.finishAlu rd (s.readReg rs1 &&& simm imm)

/-- SLLI (R112). -/
def execSlli (rd rs1 : RegIdx) (shamt : BitVec 5) (s : State) : Outcome :=
  s.finishAlu rd (s.readReg rs1 <<< shamt.toNat)

/-- SRLI (R113). -/
def execSrli (rd rs1 : RegIdx) (shamt : BitVec 5) (s : State) : Outcome :=
  s.finishAlu rd (s.readReg rs1 >>> shamt.toNat)

/-- SRAI (R114). -/
def execSrai (rd rs1 : RegIdx) (shamt : BitVec 5) (s : State) : Outcome :=
  s.finishAlu rd ((s.readReg rs1).sshiftRight shamt.toNat)

/-- LUI (R115): the ALU does not compute, so `aluOut` and `aluZero` keep their values. -/
def execLui (rd : RegIdx) (imm : BitVec 20) (s : State) : Outcome :=
  .next ((s.retire s.pc4).writeReg rd (upperImm imm))

/-- AUIPC (R116): `pc` is this instruction's address. -/
def execAuipc (rd : RegIdx) (imm : BitVec 20) (s : State) : Outcome :=
  s.finishAlu rd (s.pc + upperImm imm)

end Sys2Proof.Machine
end

