-- ==== Sys2Proof/Machine/LoadStore.lean ====
section
/-! DEFINITION. The five loads and three stores (spec/44_load_store.md). -/

namespace Sys2Proof.Machine

/-- A load (R127, R128): EXECUTE leaves the effective address in `aluOut`; the MEMORY cycle reads it or
raises its stop; WRITEBACK writes `rd`. -/
def State.doLoad (s : State) (size : AccessSize) (e : Extension) (rd rs1 : RegIdx) (imm : BitVec 12) : Outcome :=
  match s.loadData (s.effectiveAddress rs1 imm) size with
  | .error f => .next ((s.setAlu (s.effectiveAddress rs1 imm)).raiseInMemory f)
  | .ok r =>
    .next (((s.setAlu (s.effectiveAddress rs1 imm)).retire s.pc4).writeReg rd (extendRead size e r))

/-- A store (R127): the MEMORY cycle writes the low bytes of `x[rs2]` or raises its stop; no register is
written. -/
def State.doStore (s : State) (size : AccessSize) (rs2 rs1 : RegIdx) (imm : BitVec 12) : Outcome :=
  match s.storeData (s.effectiveAddress rs1 imm) size (s.readReg rs2) with
  | .error f => .next ((s.setAlu (s.effectiveAddress rs1 imm)).raiseInMemory f)
  | .ok m => 
    .next (((s.setAlu (s.effectiveAddress rs1 imm)).stored m (s.effectiveAddress rs1 imm) size).retire s.pc4)

/-- LB (R129). -/
def execLb (rd rs1 : RegIdx) (imm : BitVec 12) (s : State) : Outcome := s.doLoad .byte .signed rd rs1 imm

/-- LH (R130). -/
def execLh (rd rs1 : RegIdx) (imm : BitVec 12) (s : State) : Outcome := s.doLoad .half .signed rd rs1 imm

/-- LW (R131): `memUnsigned` is 0 and a word read is not affected by it. -/
def execLw (rd rs1 : RegIdx) (imm : BitVec 12) (s : State) : Outcome := s.doLoad .word .signed rd rs1 imm

/-- LBU (R132). -/
def execLbu (rd rs1 : RegIdx) (imm : BitVec 12) (s : State) : Outcome := s.doLoad .byte .unsigned rd rs1 imm

/-- LHU (R133). -/
def execLhu (rd rs1 : RegIdx) (imm : BitVec 12) (s : State) : Outcome := s.doLoad .half .unsigned rd rs1 imm

/-- SB (R134). -/
def execSb (rs2 rs1 : RegIdx) (imm : BitVec 12) (s : State) : Outcome := s.doStore .byte rs2 rs1 imm

/-- SH (R135). -/
def execSh (rs2 rs1 : RegIdx) (imm : BitVec 12) (s : State) : Outcome := s.doStore .half rs2 rs1 imm

/-- SW (R136). -/
def execSw (rs2 rs1 : RegIdx) (imm : BitVec 12) (s : State) : Outcome := s.doStore .word rs2 rs1 imm

end Sys2Proof.Machine
end

