-- ==== Sys2Proof/Machine/Sentinel.lean ====
section
/-! DEFINITION. The all-zero word (spec/60_exceptions.md R139). -/

namespace Sys2Proof.Machine

/-- The sentinel raises EndOfProgram in the DECODE cycle that latches it: `state = DECODE`,
`ir = 0x00000000`, `pc` and every register and memory byte as they were (R139). -/
def execSentinel (s : State) : Outcome := .next ((s.latch 0).raiseStop .decode .endOfProgram)

end Sys2Proof.Machine
end

