-- ==== Sys2Proof/Machine/Step.lean ====
section
/-! DEFINITION. One step: one instruction of a running core. -/

namespace Sys2Proof.Machine

/-- One step (40_datapath_cycle.md R91, DESIGN CHOICE, log 2). A running core in FETCH carries out one
instruction: its FETCH and DECODE, then `exec`. A running core in the middle of an instruction finishes
it by cycles. A stop is raised into the state the step answers; the stopped core then repeats its outcome
(60_exceptions.md R138): the same state after EndOfProgram, the fault after a fault (log 3). -/
def step (s : State) : Host.Outcome State Fault Refusal :=
  match s.stop with
  | .fault r => .fault r
  | .endOfProgram => .next s
  | .none =>
    match s.fsm with
    | .fetch =>
      match s.fetchDecode with
      | .stopped s' => .next s'
      | .instr i s' => exec i s'
    | .decode => .next (ticks 4 s)
    | .execute => .next (ticks 3 s)
    | .memory => .next (ticks 2 s)
    | .writeback => .next (ticks 1 s)

/-- A word put where `step` fetches next, its bytes counted as written like those the host's load writes;
nothing where no word fits there. -/
def State.loadFetchWord (s : State) (w : Word) : State :=
  match memWrite s.mem s.fetchAddr .word w with
  | .ok m => s.stored m s.fetchAddr .word
  | .error _ => s

/-- `s` with the 32-bit word `w` where `step` fetches next, as a host's load of one word (log 8). The core
runs and is in FETCH, or no fetch would follow. Where no word fits at the fetch address none is stored. -/
def State.withFetchWord (s : State) (nbits w : Nat) : State :=
  { s.loadFetchWord (BitVec.ofNat 32 (w % 2 ^ nbits)) with fsm := .fetch, stop := .none }

end Sys2Proof.Machine
end

