-- ==== Sys2Proof/Machine/Assembler.lean ====
section
/-! DEFINITION. The assembler's interface: pseudo-instructions, operand syntax and data directives (spec/30_encoding.md R62, R63, R65). Outside the core. -/

namespace Sys2Proof.Machine

/-- The pseudo-instructions (R63). -/
inductive Pseudo where
  | mv (rd rs : RegIdx)
  | li (rd : RegIdx) (imm : BitVec 12)
  | j (offset : BitVec 21)
  | nop
  | ret
  | halt
deriving DecidableEq, Repr

/-- The expansions R63 takes (D14; PRESUMED, log 14). -/
def Pseudo.expand : Pseudo → Instr
  | .mv rd rs => .addi rd rs 0
  | .li rd imm => .addi rd 0 imm
  | .j offset => .jal 0 offset
  | .nop => .addi 0 0 0
  | .ret => .jalr 0 1 0
  | .halt => .sentinel

/-- A register as the assembler writes it (R62). -/
def regName (r : RegIdx) : String := "x" ++ toString r.val

/-- A three-register line (R62). -/
def lineR (name : String) (rd rs1 rs2 : RegIdx) : String :=
  name ++ " " ++ regName rd ++ ", " ++ regName rs1 ++ ", " ++ regName rs2

/-- A line of two registers and a number (R62). -/
def lineI (name : String) (r1 r2 : RegIdx) (n : Int) : String :=
  name ++ " " ++ regName r1 ++ ", " ++ regName r2 ++ ", " ++ toString n

/-- The displacement form (R62). -/
def lineM (name : String) (r base : RegIdx) (n : Int) : String :=
  name ++ " " ++ regName r ++ ", " ++ toString n ++ "(" ++ regName base ++ ")"

/-- A line of one register and a number (R62). -/
def lineU (name : String) (r : RegIdx) (n : Int) : String := name ++ " " ++ regName r ++ ", " ++ toString n

/-- Operand syntax (R62): immediates and byte offsets in decimal, `imm20` as the value of `ir[31:12]`.
The sentinel is the pseudo-instruction `halt` (R63). -/
def asmLine : Instr → String
  | .lui rd imm => lineU "lui" rd imm.toNat
  | .auipc rd imm => lineU "auipc" rd imm.toNat
  | .jal rd offset => lineU "jal" rd offset.toInt
  | .jalr rd rs1 imm => lineM "jalr" rd rs1 imm.toInt
  | .beq rs1 rs2 offset => lineI "beq" rs1 rs2 offset.toInt
  | .bne rs1 rs2 offset => lineI "bne" rs1 rs2 offset.toInt
  | .blt rs1 rs2 offset => lineI "blt" rs1 rs2 offset.toInt
  | .bge rs1 rs2 offset => lineI "bge" rs1 rs2 offset.toInt
  | .bltu rs1 rs2 offset => lineI "bltu" rs1 rs2 offset.toInt
  | .bgeu rs1 rs2 offset => lineI "bgeu" rs1 rs2 offset.toInt
  | .lb rd rs1 imm => lineM "lb" rd rs1 imm.toInt
  | .lh rd rs1 imm => lineM "lh" rd rs1 imm.toInt
  | .lw rd rs1 imm => lineM "lw" rd rs1 imm.toInt
  | .lbu rd rs1 imm => lineM "lbu" rd rs1 imm.toInt
  | .lhu rd rs1 imm => lineM "lhu" rd rs1 imm.toInt
  | .sb rs2 rs1 imm => lineM "sb" rs2 rs1 imm.toInt
  | .sh rs2 rs1 imm => lineM "sh" rs2 rs1 imm.toInt
  | .sw rs2 rs1 imm => lineM "sw" rs2 rs1 imm.toInt
  | .addi rd rs1 imm => lineI "addi" rd rs1 imm.toInt
  | .slti rd rs1 imm => lineI "slti" rd rs1 imm.toInt
  | .sltiu rd rs1 imm => lineI "sltiu" rd rs1 imm.toInt
  | .xori rd rs1 imm => lineI "xori" rd rs1 imm.toInt
  | .ori rd rs1 imm => lineI "ori" rd rs1 imm.toInt
  | .andi rd rs1 imm => lineI "andi" rd rs1 imm.toInt
  | .slli rd rs1 shamt => lineI "slli" rd rs1 shamt.toNat
  | .srli rd rs1 shamt => lineI "srli" rd rs1 shamt.toNat
  | .srai rd rs1 shamt => lineI "srai" rd rs1 shamt.toNat
  | .add rd rs1 rs2 => lineR "add" rd rs1 rs2
  | .sub rd rs1 rs2 => lineR "sub" rd rs1 rs2
  | .sll rd rs1 rs2 => lineR "sll" rd rs1 rs2
  | .slt rd rs1 rs2 => lineR "slt" rd rs1 rs2
  | .sltu rd rs1 rs2 => lineR "sltu" rd rs1 rs2
  | .xor rd rs1 rs2 => lineR "xor" rd rs1 rs2
  | .srl rd rs1 rs2 => lineR "srl" rd rs1 rs2
  | .sra rd rs1 rs2 => lineR "sra" rd rs1 rs2
  | .or rd rs1 rs2 => lineR "or" rd rs1 rs2
  | .and rd rs1 rs2 => lineR "and" rd rs1 rs2
  | .sentinel => "halt"

/-- The data directives (R65). -/
inductive Directive where
  | byte (v : BitVec 8)
  | half (v : BitVec 16)
  | word (v : BitVec 32)
  | dword (v : BitVec 64)
  | string (text : List Byte)
  | align (n : Nat)
deriving DecidableEq, Repr

/-- `n` bytes of a value, least significant first. -/
def littleEndian (v : BitVec 64) : Nat → List Byte
  | 0 => []
  | n + 1 => v.setWidth 8 :: littleEndian (v >>> 8) n

/-- The bytes a directive puts into the data segment (R65). The spec leaves open whether `.string` adds a
zero byte and what `.align`'s argument means, so they have none here (A18, log 14). -/
def Directive.bytes : Directive → Option (List Byte)
  | .byte v => some (littleEndian (v.setWidth 64) 1)
  | .half v => some (littleEndian (v.setWidth 64) 2)
  | .word v => some (littleEndian (v.setWidth 64) 4)
  | .dword v => some (littleEndian v 8)
  | .string _ => none
  | .align _ => none

end Sys2Proof.Machine
end

