-- ==== Sys2Proof/Machine/HostCalls.lean ====
section
/-! DEFINITION. The host's calls: construction, setters, data placement and accessors (spec/70_reset_and_hazards.md R156 to R162). -/

namespace Sys2Proof.Machine

/-- Why a host call is refused (60_exceptions.md R146). Each is raised by the call named; a refused call changes
no state, so every one is safe for the state. R146 says only that the call reports "the error": the names of the
errors, and which one a call refused on several grounds reports, are the model's (DESIGN CHOICE, unsafe for a
claim about which error is reported, log 22). -/
inductive HostMisuse where
  /-- `setCode`, `setRegisters`: a first tick has happened (R159); `placeData`: the same (DESIGN CHOICE, log 13) -/
  | afterFirstTick
  /-- `setCode`: the bytes would cross the top of memory (R157); `placeData`: the same (DESIGN CHOICE, log 13) -/
  | doesNotFit
  /-- `setRegisters`: a key outside 0 to 31, a value outside `0 .. 2^32 - 1`, or a nonzero value for
  register 0 (R158) -/
  | invalidEntry (key value : Int)
  /-- `setRegisters`: a key given twice, so the list is no map (DESIGN CHOICE, safe, log 13) -/
  | repeatedKey
deriving DecidableEq, Repr

/-- What a host call leaves: the state, and the ONE error it reports if it was refused (R146; one error, not
every ground there is: log 22). -/
structure HostReply where
  state : State
  error : Option HostMisuse
deriving DecidableEq, Repr

/-- Words written one after another from a byte address, 4 bytes each, little-endian (R157). -/
def Memory.writeWords (m : Memory) (a : Nat) : List Word → Memory
  | [] => m
  | w :: ws => Memory.writeWords (m.writeLE a 4 w) (a + 4) ws

/-- `SetCode(words)` (R157): the program into RAM from `TEXT_START` on; no other byte and not `pc`. Every byte of
it counts as written (R160), a zero word's too. A call refused both for its time and for its length reports
`afterFirstTick` (DESIGN CHOICE, log 22). -/
def setCode (words : List Word) (s : State) : HostReply :=
  if s.started then ⟨s, some .afterFirstTick⟩
  else if addressSpace < s.params.textStart.toNat + 4 * words.length then ⟨s, some .doesNotFit⟩
  else
    ⟨{ s with
        mem := s.mem.writeWords s.params.textStart.toNat words
        written := s.written.mark s.params.textStart.toNat (4 * words.length) }, none⟩

/-- Whether an entry of the register map is admitted (R158). -/
def entryOk (key value : Int) : Bool :=
  0 ≤ key && key < 32 && 0 ≤ value && value < 4294967296 && (key != 0 || value == 0)

/-- The first entry that is not admitted, in the order of the list: where several are bad, that is the one
reported (DESIGN CHOICE, unsafe for a claim about which error is reported, log 22). -/
def badEntry : List (Int × Int) → Option (Int × Int)
  | [] => none
  | (k, v) :: rest => if entryOk k v then badEntry rest else some (k, v)

/-- Whether no key stands twice. -/
def keysDistinct : List (Int × Int) → Bool
  | [] => true
  | (k, _) :: rest => !(rest.any fun e => e.1 == k) && keysDistinct rest

/-- Set the registers of an admitted map; register 0 is skipped by `writeReg`. -/
def setEntries : List (Int × Int) → State → State
  | [], s => s
  | (k, v) :: rest, s => setEntries rest (s.writeReg (Fin.ofNat 32 k.toNat) (BitVec.ofInt 32 v))

/-- `SetRegisters(map)` (R158): registers outside the map keep their values; a call that is not admitted
is refused as a whole (R146). Which error a call refused on several grounds reports the spec leaves open; the
model reports `afterFirstTick` before it looks at the map, then the first bad entry in list order, and a bad entry
before a repeated key (DESIGN CHOICE, unsafe for a claim about which error is reported, log 22). -/
def setRegisters (map : List (Int × Int)) (s : State) : HostReply :=
  if s.started then ⟨s, some .afterFirstTick⟩
  else
    match badEntry map with
    | some (k, v) => ⟨s, some (.invalidEntry k v)⟩
    | none => if keysDistinct map then ⟨setEntries map s, none⟩ else ⟨s, some .repeatedKey⟩

/-- `Construct(words?, regs?)` (R156): reset, then the admitted set-up calls. It returns the state and the
errors reported (log 13), the one of the code before the one of the registers (log 22). -/
def construct (p : Params) (words : Option (List Word)) (regs : Option (List (Int × Int))) :
    State × List HostMisuse :=
  let coded : HostReply :=
    match words with
    | some ws => setCode ws (State.resetWith p)
    | none => ⟨State.resetWith p, none⟩
  let filled : HostReply :=
    match regs with
    | some rs => setRegisters rs coded.state
    | none => ⟨coded.state, none⟩
  (filled.state, coded.error.toList ++ filled.error.toList)

/-- Bytes written one after another from a byte address. -/
def Memory.writeBytes (m : Memory) (a : Nat) : List Byte → Memory
  | [] => m
  | b :: bs => Memory.writeBytes (m.writeByte a b) (a + 1) bs

/-- The host places data bytes before the first tick, as it places code (20_memory.md R46, R162, D15). That
data is refused after the first tick, as R159 refuses code, and where it would cross the top of memory, is the
model's reading of R162 and D15 (DESIGN CHOICE, safe, log 13); `afterFirstTick` is reported before `doesNotFit` (DESIGN CHOICE, log 22). -/
def placeData (start : Word) (bytes : List Byte) (s : State) : HostReply :=
  if s.started then ⟨s, some .afterFirstTick⟩
  else if addressSpace < start.toNat + bytes.length then ⟨s, some .doesNotFit⟩
  else
    ⟨{ s with
        mem := s.mem.writeBytes start.toNat bytes
        written := s.written.mark start.toNat bytes.length }, none⟩

/-- The assembler's data segment goes to the open parameter `DATA_START` (R162, D15, log 9). -/
def placeDataSegment (bytes : List Byte) (s : State) : HostReply := placeData Config.dataStart bytes s

/-! ### Read-only accessors (R160, 10_state.md R32) -/

/-- What the host can read between ticks. -/
structure HostView where
  pc          : Word
  regs        : List Word
  ram         : List Host.Cell
  fsm         : FsmState
  ir          : Word
  aluOut      : Word
  aluZero     : Bool
  memReadData : Word
  stop        : Stop
deriving DecidableEq, Repr

/-- The sparse iteration of the RAM (R160): the bytes that have been written, each with its address, zero bytes
among them; every other byte is zero. Their order is rising by address (DESIGN CHOICE, unsafe, log 16). -/
def State.sparseRam (s : State) : List Host.Cell := s.written.map fun a => (a, s.mem.readByte a)

/-- The accessors, all at once; reading changes nothing (R160). -/
def State.view (s : State) : HostView where
  pc := s.pc
  regs := (List.finRange 32).map s.readReg
  ram := s.sparseRam
  fsm := s.fsm
  ir := s.ir
  aluOut := s.aluOut
  aluZero := s.aluZero
  memReadData := s.memReadData
  stop := s.stop

/-- One memory byte, as the host reads it (R160). -/
def State.byteAt (s : State) (a : Word) : Byte := s.mem.readByte a.toNat

/-- The signal bus, for a host that shows it (R32, R66, R154, R160). The spec does not say which cycle's signals
the host sees between ticks; the model gives those of the cycle ABOUT TO RUN, computed from the registers the
host reads beside them. Nor does it say what signals it sees on a STOPPED core, where no cycle follows (R138); there
the model computes those of the state that stopped from the frozen registers, in the same way, which after a
DECODE stop are not the signals the stopping cycle had, since it loaded the latch. `none` where that state has no
control row or the latch no immediate: after EndOfProgram, and after UndefinedDecode of a word whose opcode is
none of the nine. (DESIGN CHOICE, unsafe for a claim about the signals shown, log 21.) -/
def State.bus (s : State) : Option (Control × Signals) :=
  match s.control, immOf s.ir with
  | some c, some imm => some (c, s.signals c imm)
  | _, _ => none

end Sys2Proof.Machine
end

