-- ==== Sys2Proof/Safety.lean ====
section
/-! DEFINITION. What a safe run is, in the terms the statements use. -/

namespace Sys2Proof.Machine

/-- The core runs: nothing has stopped it (10_state.md R29). -/
abbrev State.Running (s : State) : Prop := s.stop = .none

/-- The final state of a completed run (60_exceptions.md R138). -/
abbrev State.Completed (s : State) : Prop := s.stop = .endOfProgram

/-- A faulted state, never a completed run (60_exceptions.md R138). -/
abbrev State.Faulted (s : State) : Prop := s.stop ≠ .none ∧ s.stop ≠ .endOfProgram

/-- A fetch of this state finds its word: no MisalignedFetch, and the four bytes lie in the address space. -/
abbrev State.Fetchable (s : State) : Prop := s.fetchTraps = false ∧ inRange s.fetchAddr .word = true

/-- The latched word of a running core is an instruction the decoder accepts (30_encoding.md R60, 40_datapath_cycle.md R81). -/
abbrev State.LatchOk (s : State) : Prop := s.Running → accepted s.ir = true

/-- In the middle of an instruction `pc` is still the address its FETCH read (10_state.md R21). -/
abbrev State.MidwayOk (s : State) : Prop := s.Running → s.fsm ≠ .fetch → s.Fetchable

/-- The ALU flag says whether the ALU result register is zero (10_state.md R27). -/
abbrev State.FlagOk (s : State) : Prop := s.aluZero = (s.aluOut == 0)

/-- The storage behind the hard-wired register stays zero (10_state.md R17). -/
abbrev State.ZeroOk (s : State) : Prop := s.x[0] = 0

/-- Memory keeps its canonical form (20_memory.md R35, R36). -/
abbrev State.MemOk (s : State) : Prop := s.mem.wf = true

/-- The set of written bytes keeps its canonical form, and every byte that is not zero has been written
(20_memory.md R36, 70_reset_and_hazards.md R160). -/
abbrev State.WrittenOk (s : State) : Prop := s.written.wf = true ∧ ∀ c ∈ s.mem, c.1 ∈ s.written

/-- The machine's invariant: reset has it, and every cycle and every step keeps it. -/
structure State.Inv (s : State) : Prop where
  memOk : s.MemOk
  zeroOk : s.ZeroOk
  flagOk : s.FlagOk
  latchOk : s.LatchOk
  midwayOk : s.MidwayOk
  writtenOk : s.WrittenOk

/-! ### Kinds of instruction -/

/-- The size of the data access a load or store makes (20_memory.md R42). -/
def dataSize : Instr → Option AccessSize
  | .lb _ _ _ => some .byte
  | .lbu _ _ _ => some .byte
  | .sb _ _ _ => some .byte
  | .lh _ _ _ => some .half
  | .lhu _ _ _ => some .half
  | .sh _ _ _ => some .half
  | .lw _ _ _ => some .word
  | .sw _ _ _ => some .word
  | _ => none

/-- A store. -/
def isStore : Instr → Bool
  | .sb _ _ _ => true
  | .sh _ _ _ => true
  | .sw _ _ _ => true
  | _ => false

/-- The data access the latched word makes in its MEMORY cycle. -/
def latchedSize (ir : Word) : Option AccessSize :=
  match decode ir with
  | .ok i => dataSize i
  | .error _ => none

/-! ### What an instruction leaves, seen through the reads of the machine -/

/-- Every register reads as before. -/
def SameRegs (s t : State) : Prop := ∀ r : RegIdx, t.readReg r = s.readReg r

/-- Register `rd` reads `v`, unless it is register 0; every other register reads as before. -/
def WroteReg (s t : State) (rd : RegIdx) (v : Word) : Prop :=
  ∀ r : RegIdx, t.readReg r = if r = rd ∧ r ≠ 0 then v else s.readReg r

/-- Every byte of memory reads as before. -/
def SameBytes (s t : State) : Prop := ∀ a : Nat, t.mem.readByte a = s.mem.readByte a

/-- The `n` bytes from `addr` on hold the low `n` bytes of `v`, least significant first; every other byte
reads as before. -/
def StoredBytes (s t : State) (addr n : Nat) (v : Word) : Prop :=
  ∀ a : Nat, t.mem.readByte a =
    if addr ≤ a ∧ a < addr + n then (v >>> (8 * (a - addr))).setWidth 8 else s.mem.readByte a

/-- The ALU left `r`, and the flag says whether it is zero. -/
def AluWrote (t : State) (r : Word) : Prop := t.aluOut = r ∧ t.aluZero = (r == 0)

/-- The ALU result and flag are as before. -/
def AluKept (s t : State) : Prop := t.aluOut = s.aluOut ∧ t.aluZero = s.aluZero

/-- `memReadData` holds the word at the fetch address of `s`, read from the memory of `t`. -/
def RereadFetch (s t : State) : Prop := ∀ w, memRead t.mem s.fetchAddr .word = .ok w → t.memReadData = w

/-- What no instruction changes before the next one is latched: the latch, the parameters, the host's flag. -/
structure Kept (s t : State) : Prop where
  ir : t.ir = s.ir
  params : t.params = s.params
  started : t.started = s.started

/-- An instruction that went through its five cycles: `pc` is the next address, the FSM is back in FETCH,
and nothing was stopped. Registers, memory and the ALU are said beside it. -/
structure Finished (s t : State) (nextPc : Word) : Prop where
  pc : t.pc = nextPc
  fsm : t.fsm = .fetch
  stop : t.stop = s.stop
  kept : Kept s t
  reread : RereadFetch s t

/-- An instruction whose MEMORY cycle raised the fault `f` at the effective address `ea`: EXECUTE had left
`ea` in the ALU; no register, no byte and not `pc` changed. -/
structure StoppedInMemory (s t : State) (f : Fault) (ea : Word) : Prop where
  stop : t.stop = .fault f
  fsm : t.fsm = .memory
  pc : t.pc = s.pc
  regs : SameRegs s t
  bytes : SameBytes s t
  alu : AluWrote t ea
  kept : Kept s t
  reread : RereadFetch s t

/-- The state a FETCH or DECODE stop freezes: the stop and the FSM state are set; `pc`, registers, memory
and the ALU are as they were. -/
structure StoppedEarly (s t : State) (at_ : FsmState) (r : Stop) : Prop where
  stop : t.stop = r
  fsm : t.fsm = at_
  pc : t.pc = s.pc
  regs : SameRegs s t
  bytes : SameBytes s t
  alu : AluKept s t
  params : t.params = s.params

/-- The architectural part of two states agrees: parameters, `pc`, registers, memory bytes (10_state.md R32, R34). -/
structure SameArch (s t : State) : Prop where
  params : t.params = s.params
  pc : t.pc = s.pc
  regs : SameRegs s t
  bytes : SameBytes s t

end Sys2Proof.Machine
end

