-- ==== Sys2Proof/Certificates/Slice0/Obligations.lean ====
section
/-! DEFINITION. The statements for the provers. -/

open Sys2Proof Sys2Proof.Machine

/-! ### Shapes the statements share -/

namespace Sys2Proof.Machine

/-- An instruction that completes with the ALU's result `v` in `rd`, and changes nothing else but `pc`, the
ALU's own registers and the re-read fetch word. -/
def CompletesAlu (i : Instr) (s : State) (rd : RegIdx) (v : Word) : Prop :=
  ∃ t, exec i s = .next t ∧ Finished s t (s.pc + 4) ∧ WroteReg s t rd v ∧ SameBytes s t ∧ AluWrote t v

/-- One OP rule: its encoding, its ALU row, and its effect. -/
def OpRule (i : Instr) (funct7 : BitVec 7) (funct3 : BitVec 3) (aluAlt : Bool) (rd rs1 rs2 : RegIdx) (s : State)
    (v : Word) : Prop :=
  decode (encodeR funct7 (regBits rs2) (regBits rs1) funct3 (regBits rd) 0b0110011#7) = .ok i ∧
    alu funct3 aluAlt (s.readReg rs1) (s.readReg rs2) = v ∧ CompletesAlu i s rd v

/-- One OP-IMM rule with a 12-bit immediate. -/
def ImmRule (i : Instr) (funct3 : BitVec 3) (rd rs1 : RegIdx) (imm : BitVec 12) (s : State) (v : Word) : Prop :=
  decode (encodeI imm (regBits rs1) funct3 (regBits rd) 0b0010011#7) = .ok i ∧
    alu funct3 false (s.readReg rs1) (imm.signExtend 32) = v ∧ CompletesAlu i s rd v

/-- One shift-immediate rule: `funct7[5]` is `aluAlt`, and the ALU's second operand is the I immediate. -/
def ShiftRule (i : Instr) (funct7 : BitVec 7) (funct3 : BitVec 3) (aluAlt : Bool) (rd rs1 : RegIdx)
    (shamt : BitVec 5) (s : State) (v : Word) : Prop :=
  decode (encodeR funct7 shamt (regBits rs1) funct3 (regBits rd) 0b0010011#7) = .ok i ∧
    alu funct3 aluAlt (s.readReg rs1) ((funct7 ++ shamt : BitVec 12).signExtend 32) = v ∧ CompletesAlu i s rd v

/-- The rows of the four control tables a word uses, over the defaults of every other signal. -/
def UsesRows (w : Word) (a : AluSetup) (m : MemSetup) (regWrite : Bool) (src : WriteDataSrc) (j : JumpSetup) : Prop :=
  executeControl w = some { Control.defaults with
    aluCalc := a.aluCalc, aluOp := a.aluOp, aluAlt := a.aluAlt, aluSrc1 := a.aluSrc1, aluSrc2 := a.aluSrc2 } ∧
  memoryControl w = some { Control.defaults with
    memWrite := m.memWrite, memAddrMuxSrc := m.memAddrMuxSrc, memSize := m.memSize, memUnsigned := m.memUnsigned } ∧
  writebackControl w = some { Control.defaults with
    regWrite := regWrite, writeDataMuxSrc := src, branchZero := j.branchZero,
    branchNotZero := j.branchNotZero, jumpControlSrc := j.jumpControlSrc, loadPC := true }

/-- One branch rule: its encoding, its jump row, its comparison's ALU result and flag, and its effect. -/
def BranchRule (i : Instr) (funct3 : BitVec 3) (branchZero branchNotZero : Bool) (rs1 rs2 : RegIdx)
    (offset : BitVec 13) (s : State) (r : Word) (flag : Prop) (taken : Prop) : Prop :=
  (i.wf = true → decode (encodeSB offset (regBits rs2) (regBits rs1) funct3 0b1100011#7) = .ok i) ∧
  lookup jumpTable (0b1100011#7 ++ funct3) = some ⟨branchZero, branchNotZero, .pcImm⟩ ∧
  ∃ t, exec i s = .next t ∧
    (taken → Finished s t (s.pc + offset.signExtend 32)) ∧ (¬taken → Finished s t (s.pc + 4)) ∧
    SameRegs s t ∧ SameBytes s t ∧ t.aluOut = r ∧ (t.aluZero = true ↔ flag)

/-- The memory control a load or store word drives in its MEMORY cycle. -/
def DrivesMemory (w : Word) (memWrite : Bool) (memSize : BitVec 2) (memUnsigned : Bool) : Prop :=
  memoryControl w = some { Control.defaults with
    memWrite := memWrite, memAddrMuxSrc := .aluOut, memSize := memSize, memUnsigned := memUnsigned }

/-- A load that completes with `v`: `rd` takes it, no byte changes, the ALU holds the effective address. -/
def CompletesLoad (i : Instr) (s : State) (rd : RegIdx) (ea v : Word) : Prop :=
  ∃ t, exec i s = .next t ∧ Finished s t (s.pc + 4) ∧ WroteReg s t rd v ∧ SameBytes s t ∧ AluWrote t ea

/-- A store that completes: exactly `n` bytes from `ea` on take `v`'s low bytes, no register changes. -/
def CompletesStore (i : Instr) (s : State) (ea : Word) (n : Nat) (v : Word) : Prop :=
  ∃ t, exec i s = .next t ∧ Finished s t (s.pc + 4) ∧ SameRegs s t ∧ StoredBytes s t ea.toNat n v ∧ AluWrote t ea

/-- The three cases of a data access of `size` at `ea`, in the order of 60_exceptions.md R144: the alignment
stop, the range stop, or completion. The stops are the spec's decisions D7 and D8. -/
def AccessCases (i : Instr) (s : State) (ea : Word) (size : AccessSize) (completes : Prop) : Prop :=
  (s.params.misalignedDataTrap = true ∧ ea.toNat % size.bytes ≠ 0 →
    ∃ t, exec i s = .next t ∧ StoppedInMemory s t (.misalignedAccess ea size) ea) ∧
  (¬(s.params.misalignedDataTrap = true ∧ ea.toNat % size.bytes ≠ 0) → 4294967296 < ea.toNat + size.bytes →
    ∃ t, exec i s = .next t ∧ StoppedInMemory s t (.accessOutOfRange ea size) ea) ∧
  (¬(s.params.misalignedDataTrap = true ∧ ea.toNat % size.bytes ≠ 0) → ea.toNat + size.bytes ≤ 4294967296 →
    completes)

/-- A store that completes marks exactly the `n` bytes from `ea` on as written. -/
def MarksWritten (i : Instr) (s : State) (ea : Word) (n : Nat) : Prop :=
  ∃ t, exec i s = .next t ∧ t.stop = s.stop ∧
    ∀ a : Nat, a ∈ t.written ↔ a ∈ s.written ∨ (ea.toNat ≤ a ∧ a < ea.toNat + n)

/-- Where a data access of `size` at `ea` is turned away nothing is marked as written, and where it is admitted
the store marks its bytes. -/
def MarksWrittenIfAdmitted (i : Instr) (s : State) (ea : Word) (size : AccessSize) : Prop :=
  (s.params.misalignedDataTrap = true ∧ ea.toNat % size.bytes ≠ 0 ∨ 4294967296 < ea.toNat + size.bytes →
    ∃ t, exec i s = .next t ∧ t.stop ≠ .none ∧ t.written = s.written) ∧
  (¬(s.params.misalignedDataTrap = true ∧ ea.toNat % size.bytes ≠ 0) → ea.toNat + size.bytes ≤ 4294967296 →
    MarksWritten i s ea size.bytes)

/-- The bits of a word's immediate. -/
def ImmBits (w : Word) (bit : Nat → Bool) : Prop :=
  ∃ v, immOf w = some v ∧ ∀ k, k < 32 → v.getLsbD k = bit k

/-- The nine opcodes of 30_encoding.md R58. -/
def supportedOpcodes : List (BitVec 7) :=
  [0b0000011#7, 0b0010011#7, 0b0010111#7, 0b0100011#7, 0b0110011#7, 0b0110111#7, 0b1100011#7, 0b1100111#7,
    0b1101111#7]

/-- The seven opcodes that write a register (10_state.md R19). -/
def writingOpcodes : List (BitVec 7) :=
  [0b0110011#7, 0b0010011#7, 0b0010111#7, 0b0110111#7, 0b0000011#7, 0b1101111#7, 0b1100111#7]

end Sys2Proof.Machine

/-! ### Reset and the invariant -/

/-- 10_state.md section 5 (R34), for every value of the parameters. The values of aluOut, aluZero,
memReadData and stop are the spec's decisions D12 and D10 (log 5), the defaults its D1, D2, D6, D7, and
`started` is the model's (log 4), so the statement is derived. -/
def Obligations.ResetState : Prop :=
  (∀ p : Params, ∃ s, s = State.resetWith p ∧ s.params = p ∧ s.fsm = .fetch ∧ s.pc = p.textStart ∧
    s.ir = encode (.addi 0 0 0) ∧ s.readReg 2 = p.spInit ∧ s.readReg 3 = p.gpInit ∧
    (∀ r : RegIdx, r ≠ 2 → r ≠ 3 → s.readReg r = 0) ∧ s.aluOut = 0 ∧ s.aluZero = true ∧ s.memReadData = 0 ∧
    s.stop = .none ∧ s.started = false ∧ s.written = [] ∧ ∀ a, s.mem.readByte a = 0) ∧
  State.reset = State.resetWith ⟨.exact, false, 0x00010000, 0xBFFFFFF0, 0x10008000⟩

/-- The state after construction has the invariant, whatever the parameters. -/
def Obligations.ResetHasInvariant : Prop := ∀ p : Params, (State.resetWith p).Inv

/-- Every tick keeps the invariant: canonical memory, the zero slot, the flag's meaning, an accepted latched
word, a fetchable `pc` in the middle of an instruction, and every nonzero byte among the written ones. -/
def Obligations.TickKeepsInvariant : Prop := ∀ s : State, s.Inv → (tickState s).Inv

/-- Every step keeps the invariant. -/
def Obligations.StepKeepsInvariant : Prop := ∀ s t : State, s.Inv → step s = .next t → t.Inv

/-- 10_state.md section 1 (R17): register 0 reads zero at all times and writes to it are discarded. That no tick or step
writes even the storage behind it is the model's choice (log 11), so the statement is derived. -/
def Obligations.RegisterZeroHardwired : Prop :=
  (∀ (s : State) (v : Word), s.readReg 0 = 0 ∧ s.writeReg 0 v = s) ∧
  ∀ s : State, s.ZeroOk →
    (tick s).1.ZeroOk ∧ (tick s).1.readReg 0 = 0 ∧ ∀ t, step s = .next t → t.ZeroOk ∧ t.readReg 0 = 0

/-- No tick and no step changes a parameter (the model's way of holding them, log 1). -/
def Obligations.ParametersNeverChange : Prop :=
  ∀ s : State, (tickState s).params = s.params ∧ ∀ t, step s = .next t → t.params = s.params

/-! ### Encoding -/

/-- A few words of 95_test_vectors.md decode to the instructions their assembly names. -/
def Obligations.DecodesWordsOfTheSpec : Prop :=
  decode 0xFFF00293 = .ok (.addi 5 0 0xFFF) ∧ decode 0x186A0E37 = .ok (.lui 28 0x186A0) ∧
  decode 0xFE029EE3 = .ok (.bne 5 0 0x1FFC) ∧ decode 0x008000EF = .ok (.jal 1 8) ∧
  decode 0x00008067 = .ok (.jalr 0 1 0) ∧ decode 0x41F55693 = .ok (.srai 13 10 31) ∧
  decode 0xFE20AC23 = .ok (.sw 2 1 0xFF8) ∧ decode 0x0010D403 = .ok (.lhu 8 1 1) ∧
  decode 0x402081B3 = .ok (.sub 3 1 2) ∧ decode 0x00000000 = .ok .sentinel

/-- Decoding the word of a well-formed instruction gives it back: no bit of an operand is dropped. -/
def Obligations.DecodeOfEncode : Prop := ∀ i : Instr, i.wf = true → decode (encode i) = .ok i

/-- Every accepted word is the encoding of the well-formed instruction it decodes to: one word, one meaning. -/
def Obligations.EncodeOfDecode : Prop := ∀ (w : Word) (i : Instr), decode w = .ok i → encode i = w ∧ i.wf = true

/-- 30_encoding.md section 5 (R60) against spec/opcode_table.json: a nonzero word decodes exactly when it is of a row
of the table, and then to an instruction of that row. The funct values are the spec's general knowledge and
the rest of the acceptance its decision D9, so the statement is derived (logs 10, 17). -/
def Obligations.DecodeFollowsTheOpcodeTable : Prop :=
  ∀ w : Word, w ≠ 0 →
    (∀ i, decode w = .ok i → ∃ row ∈ opcodeTable, row.accepts w = true ∧ row.mnemonic = i.mnemonic) ∧
    (∀ row ∈ opcodeTable, row.accepts w = true → ∃ i, decode w = .ok i ∧ i.mnemonic = row.mnemonic)

/-- No word is of two rows of the opcode table. -/
def Obligations.OpcodeRowsDisjoint : Prop :=
  ∀ (w : Word) (r1 r2 : OpcodeRow), r1 ∈ opcodeTable → r2 ∈ opcodeTable → r1.accepts w = true →
    r2.accepts w = true → r1 = r2

/-- 30_encoding.md R53, R58, 20_memory.md R49, R50, 60_exceptions.md R147: a nonzero word whose opcode is
none of the nine is not accepted; FENCE's, the AMOs' and SYSTEM's opcodes and every word whose low bits
are not 11 are such words. The opcode numbers of the absent instructions are the spec's general knowledge. The
rules give such a word only UndefinedDecode: that the decoder's reject is named `unsupportedOpcode` is the model's
choice (DESIGN CHOICE, log 10). -/
def Obligations.AbsentInstructionsRejected : Prop :=
  ∀ w : Word, w ≠ 0 →
    (opcodeOf w ∉ supportedOpcodes → decode w = .error (.unsupportedOpcode w) ∧ accepted w = false) ∧
    (opcodeOf w = 0b0001111#7 ∨ opcodeOf w = 0b0101111#7 ∨ opcodeOf w = 0b1110011#7 ∨
      w.extractLsb' 0 2 ≠ 0b11#2 → opcodeOf w ∉ supportedOpcodes)

/-- 30_encoding.md R56, bit by bit: where each bit of each format's immediate comes from, and that no other
opcode has one: a cycle that gets as far as the immediate of such a latched word raises UndefinedDecode. -/
def Obligations.ImmediateTable : Prop :=
  (∀ (s : State) (c : Control), opcodeOf s.ir ∉ supportedOpcodes → s.control = some c → s.earlyStop c = none →
    cycle s = s.raiseStop s.fsm (.fault (.undefinedDecode s.ir))) ∧
  ∀ w : Word,
    (opcodeOf w = 0b0000011#7 ∨ opcodeOf w = 0b0010011#7 ∨ opcodeOf w = 0b1100111#7 →
      ImmBits w fun k => if k < 11 then w.getLsbD (20 + k) else w.getLsbD 31) ∧
    (opcodeOf w = 0b0100011#7 →
      ImmBits w fun k => if k < 5 then w.getLsbD (7 + k) else if k < 11 then w.getLsbD (20 + k) else w.getLsbD 31) ∧
    (opcodeOf w = 0b1100011#7 →
      ImmBits w fun k => if k = 0 then false else if k < 5 then w.getLsbD (7 + k)
        else if k < 11 then w.getLsbD (20 + k) else if k = 11 then w.getLsbD 7 else w.getLsbD 31) ∧
    (opcodeOf w = 0b0010111#7 ∨ opcodeOf w = 0b0110111#7 →
      ImmBits w fun k => if k < 12 then false else w.getLsbD k) ∧
    (opcodeOf w = 0b1101111#7 →
      ImmBits w fun k => if k = 0 then false else if k < 11 then w.getLsbD (20 + k)
        else if k = 11 then w.getLsbD 20 else if k < 20 then w.getLsbD k else w.getLsbD 31) ∧
    (opcodeOf w = 0b0110011#7 → ImmBits w fun _ => false) ∧
    (opcodeOf w ∉ supportedOpcodes → immOf w = none)

/-- 40_datapath_cycle.md R82, 60_exceptions.md R140: an accepted word never leads to an unmatched table
lookup, in any of the three states that read the tables, nor to the missing `memSize` row. -/
def Obligations.AcceptedWordsMatchEveryTable : Prop :=
  ∀ w : Word, accepted w = true →
    (immOf w).isSome = true ∧ (executeControl w).isSome = true ∧ (writebackControl w).isSome = true ∧
    ∃ c, memoryControl w = some c ∧ (lookup memSizeTable c.memSize).isSome = true

/-! ### Memory -/

/-- 20_memory.md section 2 (R39, R41): a read in range is the little-endian value of its bytes and zero above them; a
read that would cross the top is the AccessOutOfRange of the spec's decision D8. -/
def Obligations.MemReadIsLittleEndian : Prop :=
  ∀ (m : Memory) (addr : Word) (size : AccessSize),
    (4294967296 < addr.toNat + size.bytes → memRead m addr size = .error (.accessOutOfRange addr size)) ∧
    (addr.toNat + size.bytes ≤ 4294967296 → ∃ r, memRead m addr size = .ok r ∧ r.toNat < 2 ^ (8 * size.bytes) ∧
      ∀ k, k < size.bytes → (r >>> (8 * k)).setWidth 8 = m.readByte (addr.toNat + k))

/-- 20_memory.md section 2 (R40, R41): a write in range puts byte `k` of the value at `addr + k`, changes no other byte
and keeps the canonical form; one that would cross the top is the AccessOutOfRange of the decision D8. -/
def Obligations.MemWriteStoresExactlyItsBytes : Prop :=
  ∀ (m : Memory) (addr v : Word) (size : AccessSize), m.wf = true →
    (4294967296 < addr.toNat + size.bytes → memWrite m addr size v = .error (.accessOutOfRange addr size)) ∧
    (addr.toNat + size.bytes ≤ 4294967296 → ∃ m', memWrite m addr size v = .ok m' ∧ m'.wf = true ∧
      (∀ k, k < size.bytes → m'.readByte (addr.toNat + k) = (v >>> (8 * k)).setWidth 8) ∧
      ∀ a, a < addr.toNat ∨ addr.toNat + size.bytes ≤ a → m'.readByte a = m.readByte a)

/-- 20_memory.md R38: after a word store at `a`, every narrower and equal read inside it sees the
little-endian layout, aligned or not. -/
def Obligations.MixedWidthAccessesAreLittleEndian : Prop :=
  ∀ (m m' : Memory) (a v : Word), m.wf = true → memWrite m a .word v = .ok m' →
    memRead m' a .word = .ok v ∧
    (∀ k, k < 4 → memRead m' (a + BitVec.ofNat 32 k) .byte = .ok ((v >>> (8 * k)) &&& 0xFF)) ∧
    (∀ k, k < 3 → memRead m' (a + BitVec.ofNat 32 k) .half = .ok ((v >>> (8 * k)) &&& 0xFFFF))

/-- 20_memory.md section 5 (R51): the word a store puts at the address the next fetch reads is the word that fetch
reads. -/
def Obligations.StoreSeenByNextFetch : Prop :=
  ∀ (s t : State) (rs2 rs1 : RegIdx) (imm : BitVec 12), s.MemOk → exec (.sw rs2 rs1 imm) s = .next t →
    t.stop = .none → t.fsm = .fetch → t.fetchAddr = s.readReg rs1 + imm.signExtend 32 →
    memRead t.mem t.fetchAddr .word = .ok (s.readReg rs2)

/-- No instruction but a store changes memory, or which bytes of it have been written, however it ends. -/
def Obligations.OnlyStoresChangeMemory : Prop :=
  ∀ (i : Instr) (s t : State), isStore i = false → exec i s = .next t → t.mem = s.mem ∧ t.written = s.written

/-! ### The ALU -/

/-- 40_datapath_cycle.md R84: each row of the ALU, on integers; the result and flag are loaded together
when `aluCalc` is 1, and kept when it is 0. -/
def Obligations.AluComputesItsTable : Prop :=
  (∀ a b : Word,
    (alu 0b000 false a b).toNat = (a.toNat + b.toNat) % 4294967296 ∧
    (alu 0b000 true a b).toNat = (a.toNat + (4294967296 - b.toNat)) % 4294967296 ∧
    (∀ alt, (alu 0b001 alt a b).toNat = a.toNat * 2 ^ (b.toNat % 32) % 4294967296) ∧
    (∀ alt, alu 0b010 alt a b = if a.toInt < b.toInt then 1 else 0) ∧
    (∀ alt, alu 0b011 alt a b = if a.toNat < b.toNat then 1 else 0) ∧
    (∀ alt k, (alu 0b100 alt a b).getLsbD k = (a.getLsbD k ^^ b.getLsbD k)) ∧
    (alu 0b101 false a b).toNat = a.toNat / 2 ^ (b.toNat % 32) ∧
    (alu 0b101 true a b).toInt = a.toInt / 2 ^ (b.toNat % 32) ∧
    (∀ alt k, (alu 0b110 alt a b).getLsbD k = (a.getLsbD k || b.getLsbD k)) ∧
    (∀ alt k, (alu 0b111 alt a b).getLsbD k = (a.getLsbD k && b.getLsbD k))) ∧
  ∀ (s : State) (c : Control) (g : Signals),
    (c.aluCalc = true → AluWrote (s.aluCycle c g) (alu c.aluOp c.aluAlt g.aluIn1 g.aluIn2)) ∧
    (c.aluCalc = false → AluKept s (s.aluCycle c g))

/-- 43_control_transfer.md section 1 (R118): for a branch word, the ALU setup row's comparison and the jump setup
row's predicates together decide the comparison the mnemonic names, for every operand pair. -/
def Obligations.BranchTablesDecideTheComparison : Prop :=
  ∀ (w a b : Word) (e m : Control), opcodeOf w = 0b1100011#7 → executeControl w = some e →
    writebackControl w = some m →
    ∃ taken : Bool,
      shouldBranch m.branchZero m.branchNotZero (zeroFlag (alu e.aluOp e.aluAlt a b)) = taken ∧
      (funct3Of w = 0b000#3 → (taken = true ↔ a = b)) ∧ (funct3Of w = 0b001#3 → (taken = true ↔ a ≠ b)) ∧
      (funct3Of w = 0b100#3 → (taken = true ↔ a.toInt < b.toInt)) ∧
      (funct3Of w = 0b101#3 → (taken = true ↔ a.toInt ≥ b.toInt)) ∧
      (funct3Of w = 0b110#3 → (taken = true ↔ a.toNat < b.toNat)) ∧
      (funct3Of w = 0b111#3 → (taken = true ↔ a.toNat ≥ b.toNat))

/-! ### The instructions: encoding, completion, result and frame -/

/-- 41_register_alu.md (R95 to R104): each OP instruction completes in every state, with its result in `rd`
(nothing if `rd` is register 0), its flag, `pc + 4`, and nothing else. That `memReadData` ends as the fetch word
read again is the spec's decision D18 on its decision D3 (log 18), so the statement is derived. -/
def Obligations.OpInstructions : Prop :=
  ∀ (rd rs1 rs2 : RegIdx) (s : State),
    OpRule (.add rd rs1 rs2) 0b0000000 0b000 false rd rs1 rs2 s (s.readReg rs1 + s.readReg rs2) ∧
    OpRule (.sub rd rs1 rs2) 0b0100000 0b000 true rd rs1 rs2 s (s.readReg rs1 - s.readReg rs2) ∧
    (∀ alt, OpRule (.sll rd rs1 rs2) 0b0000000 0b001 alt rd rs1 rs2 s
      (s.readReg rs1 <<< ((s.readReg rs2).toNat % 32))) ∧
    (∀ alt, OpRule (.slt rd rs1 rs2) 0b0000000 0b010 alt rd rs1 rs2 s
      (if (s.readReg rs1).toInt < (s.readReg rs2).toInt then 1 else 0)) ∧
    (∀ alt, OpRule (.sltu rd rs1 rs2) 0b0000000 0b011 alt rd rs1 rs2 s
      (if (s.readReg rs1).toNat < (s.readReg rs2).toNat then 1 else 0)) ∧
    (∀ alt, OpRule (.xor rd rs1 rs2) 0b0000000 0b100 alt rd rs1 rs2 s (s.readReg rs1 ^^^ s.readReg rs2)) ∧
    OpRule (.srl rd rs1 rs2) 0b0000000 0b101 false rd rs1 rs2 s
      (s.readReg rs1 >>> ((s.readReg rs2).toNat % 32)) ∧
    OpRule (.sra rd rs1 rs2) 0b0100000 0b101 true rd rs1 rs2 s
      ((s.readReg rs1).sshiftRight ((s.readReg rs2).toNat % 32)) ∧
    (∀ alt, OpRule (.or rd rs1 rs2) 0b0000000 0b110 alt rd rs1 rs2 s (s.readReg rs1 ||| s.readReg rs2)) ∧
    (∀ alt, OpRule (.and rd rs1 rs2) 0b0000000 0b111 alt rd rs1 rs2 s (s.readReg rs1 &&& s.readReg rs2))

/-- 42_immediate_alu.md (R106 to R114): each OP-IMM instruction completes in every state, with its result in
`rd` (nothing if `rd` is register 0), its flag, `pc + 4`, and nothing else; a left shift's word with another
funct7 is not accepted. That `memReadData` ends as the fetch word read again is the spec's decision D18 on its
decision D3 (log 18), so the statement is derived. -/
def Obligations.OpImmInstructions : Prop :=
  ∀ (rd rs1 : RegIdx) (imm : BitVec 12) (shamt : BitVec 5) (s : State),
    ImmRule (.addi rd rs1 imm) 0b000 rd rs1 imm s (s.readReg rs1 + imm.signExtend 32) ∧
    ImmRule (.slti rd rs1 imm) 0b010 rd rs1 imm s (if (s.readReg rs1).toInt < imm.toInt then 1 else 0) ∧
    ImmRule (.sltiu rd rs1 imm) 0b011 rd rs1 imm s
      (if (s.readReg rs1).toNat < (imm.signExtend 32).toNat then 1 else 0) ∧
    ImmRule (.xori rd rs1 imm) 0b100 rd rs1 imm s (s.readReg rs1 ^^^ imm.signExtend 32) ∧
    ImmRule (.ori rd rs1 imm) 0b110 rd rs1 imm s (s.readReg rs1 ||| imm.signExtend 32) ∧
    ImmRule (.andi rd rs1 imm) 0b111 rd rs1 imm s (s.readReg rs1 &&& imm.signExtend 32) ∧
    ShiftRule (.slli rd rs1 shamt) 0b0000000 0b001 false rd rs1 shamt s (s.readReg rs1 <<< shamt.toNat) ∧
    ShiftRule (.srli rd rs1 shamt) 0b0000000 0b101 false rd rs1 shamt s (s.readReg rs1 >>> shamt.toNat) ∧
    ShiftRule (.srai rd rs1 shamt) 0b0100000 0b101 true rd rs1 shamt s
      ((s.readReg rs1).sshiftRight shamt.toNat) ∧
    ∀ f7, f7 ≠ 0b0000000#7 → accepted (encodeR f7 shamt (regBits rs1) 0b001#3 (regBits rd) 0b0010011#7) = false

/-- 42_immediate_alu.md (R115, R116): LUI and AUIPC complete in every state; LUI leaves the ALU as it was,
AUIPC adds to its own address; the control rows each uses. The values of the signals no row sets, and that
`memReadData` ends as the fetch word read again, are the spec's decisions D3 and D18 (log 18), so the statement
is derived. -/
def Obligations.LuiAndAuipc : Prop :=
  ∀ (rd : RegIdx) (imm : BitVec 20) (s : State),
    (decode (encodeU imm (regBits rd) 0b0110111#7) = .ok (.lui rd imm) ∧
      UsesRows (encodeU imm (regBits rd) 0b0110111#7) ⟨false, 0b000, false, .reg1, .reg2⟩
        ⟨false, .pc, 0b10, false⟩ true .imm ⟨false, false, .pcImm⟩ ∧
      ∃ t, exec (.lui rd imm) s = .next t ∧ Finished s t (s.pc + 4) ∧
        WroteReg s t rd ((imm.setWidth 32) <<< 12) ∧ SameBytes s t ∧ AluKept s t) ∧
    (decode (encodeU imm (regBits rd) 0b0010111#7) = .ok (.auipc rd imm) ∧
      UsesRows (encodeU imm (regBits rd) 0b0010111#7) ⟨true, 0b000, false, .pc, .imm⟩
        ⟨false, .pc, 0b10, false⟩ true .aluOut ⟨false, false, .pcImm⟩ ∧
      CompletesAlu (.auipc rd imm) s rd (s.pc + (imm.setWidth 32) <<< 12))

/-- 43_control_transfer.md section 1 (R119 to R124): each branch completes in every state: `pc` takes `pc + imm` exactly
when the comparison holds and `pc + 4` otherwise; the flag is as its rule says; no register and no byte
changes. That `memReadData` ends as the fetch word read again is the spec's decision D18 on its decision D3
(log 18), so the statement is derived. -/
def Obligations.BranchInstructions : Prop :=
  ∀ (rs1 rs2 : RegIdx) (offset : BitVec 13) (s : State) (a b : Word), s.readReg rs1 = a → s.readReg rs2 = b →
    BranchRule (.beq rs1 rs2 offset) 0b000 true false rs1 rs2 offset s (a - b) (a = b) (a = b) ∧
    BranchRule (.bne rs1 rs2 offset) 0b001 false true rs1 rs2 offset s (a - b) (a = b) (a ≠ b) ∧
    BranchRule (.blt rs1 rs2 offset) 0b100 false true rs1 rs2 offset s (if a.toInt < b.toInt then 1 else 0)
      (¬a.toInt < b.toInt) (a.toInt < b.toInt) ∧
    BranchRule (.bge rs1 rs2 offset) 0b101 true false rs1 rs2 offset s (if a.toInt < b.toInt then 1 else 0)
      (¬a.toInt < b.toInt) (a.toInt ≥ b.toInt) ∧
    BranchRule (.bltu rs1 rs2 offset) 0b110 false true rs1 rs2 offset s (if a.toNat < b.toNat then 1 else 0)
      (¬a.toNat < b.toNat) (a.toNat < b.toNat) ∧
    BranchRule (.bgeu rs1 rs2 offset) 0b111 true false rs1 rs2 offset s (if a.toNat < b.toNat then 1 else 0)
      (¬a.toNat < b.toNat) (a.toNat ≥ b.toNat)

/-- 43_control_transfer.md section 2 (R125, R126): JAL and JALR complete in every state; the link is `pc + 4`, JALR's
target uses the old `x[rs1]` and keeps every bit; the control rows each uses. The values of the signals no row
sets, and that `memReadData` ends as the fetch word read again, are the spec's decisions D3 and D18 (log 18), so
the statement is derived. -/
def Obligations.JumpInstructions : Prop :=
  (∀ (rd : RegIdx) (offset : BitVec 21) (s : State),
    (jumpOffsetOk offset = true → decode (encodeUJ offset (regBits rd) 0b1101111#7) = .ok (.jal rd offset)) ∧
    UsesRows (encodeUJ offset (regBits rd) 0b1101111#7) ⟨true, 0b000, false, .pc, .imm⟩
      ⟨false, .pc, 0b10, false⟩ true .pc4 ⟨true, true, .pcImm⟩ ∧
    ∃ t, exec (.jal rd offset) s = .next t ∧ Finished s t (s.pc + offset.signExtend 32) ∧
      WroteReg s t rd (s.pc + 4) ∧ SameBytes s t ∧ AluWrote t (s.pc + offset.signExtend 32)) ∧
  ∀ (rd rs1 : RegIdx) (imm : BitVec 12) (s : State),
    decode (encodeI imm (regBits rs1) 0b000#3 (regBits rd) 0b1100111#7) = .ok (.jalr rd rs1 imm) ∧
    (∀ f3, f3 ≠ 0b000#3 →
      accepted (encodeI imm (regBits rs1) f3 (regBits rd) 0b1100111#7) = false) ∧
    UsesRows (encodeI imm (regBits rs1) 0b000#3 (regBits rd) 0b1100111#7) ⟨true, 0b000, false, .reg1, .imm⟩
      ⟨false, .pc, 0b10, false⟩ true .pc4 ⟨true, true, .rs1Imm⟩ ∧
    ∃ t, exec (.jalr rd rs1 imm) s = .next t ∧ Finished s t (s.readReg rs1 + imm.signExtend 32) ∧
      WroteReg s t rd (s.pc + 4) ∧ SameBytes s t ∧ AluWrote t (s.readReg rs1 + imm.signExtend 32)

/-- 44_load_store.md section 2 (R129, R132): LB and LBU complete in every state, whatever the parameters, with the byte
at the effective address sign- or zero-extended. The values of the signals MEMORY's row does not set, and that
`memReadData` ends as the fetch word read again, are the spec's decisions D3 and D18 (log 18), so the statement
is derived. -/
def Obligations.ByteLoads : Prop :=
  ∀ (rd rs1 : RegIdx) (imm : BitVec 12) (s : State) (ea : Word), ea = s.readReg rs1 + imm.signExtend 32 →
    (decode (encodeI imm (regBits rs1) 0b000#3 (regBits rd) 0b0000011#7) = .ok (.lb rd rs1 imm) ∧
      DrivesMemory (encodeI imm (regBits rs1) 0b000#3 (regBits rd) 0b0000011#7) false 0b00 false ∧
      CompletesLoad (.lb rd rs1 imm) s rd ea ((s.mem.readByte ea.toNat).signExtend 32)) ∧
    (decode (encodeI imm (regBits rs1) 0b100#3 (regBits rd) 0b0000011#7) = .ok (.lbu rd rs1 imm) ∧
      DrivesMemory (encodeI imm (regBits rs1) 0b100#3 (regBits rd) 0b0000011#7) false 0b00 true ∧
      CompletesLoad (.lbu rd rs1 imm) s rd ea ((s.mem.readByte ea.toNat).setWidth 32))

/-- 44_load_store.md section 2 (R130, R131, R133): LH, LHU and LW complete where the access is admitted, with
the little-endian value extended as the rule says, aligned or not; where it is not they take their stop in
MEMORY and change no register and no byte. The stops are the spec's decisions D7 and D8, the fetch word read
again into `memReadData` its D18 on its D3 (logs 1, 18). -/
def Obligations.HalfAndWordLoads : Prop :=
  ∀ (rd rs1 : RegIdx) (imm : BitVec 12) (s : State) (ea : Word), ea = s.readReg rs1 + imm.signExtend 32 →
    AccessCases (.lh rd rs1 imm) s ea .half (CompletesLoad (.lh rd rs1 imm) s rd ea
      ((s.mem.readByte (ea.toNat + 1) ++ s.mem.readByte ea.toNat : BitVec 16).signExtend 32)) ∧
    AccessCases (.lhu rd rs1 imm) s ea .half (CompletesLoad (.lhu rd rs1 imm) s rd ea
      ((s.mem.readByte (ea.toNat + 1) ++ s.mem.readByte ea.toNat : BitVec 16).setWidth 32)) ∧
    AccessCases (.lw rd rs1 imm) s ea .word (CompletesLoad (.lw rd rs1 imm) s rd ea
      (s.mem.readByte (ea.toNat + 3) ++ s.mem.readByte (ea.toNat + 2) ++ s.mem.readByte (ea.toNat + 1) ++
        s.mem.readByte ea.toNat))

/-- 44_load_store.md section 3 (R134): SB completes in every state with canonical memory, whatever the parameters; only
the byte at the effective address changes. The values of the signals MEMORY's row does not set, and that
`memReadData` ends as the fetch word read again, are the spec's decisions D3 and D18 (log 18), so the statement
is derived. -/
def Obligations.ByteStore : Prop :=
  ∀ (rs2 rs1 : RegIdx) (imm : BitVec 12) (s : State) (ea : Word), ea = s.readReg rs1 + imm.signExtend 32 →
    s.MemOk →
    decode (encodeS imm (regBits rs2) (regBits rs1) 0b000#3 0b0100011#7) = .ok (.sb rs2 rs1 imm) ∧
    DrivesMemory (encodeS imm (regBits rs2) (regBits rs1) 0b000#3 0b0100011#7) true 0b00 false ∧
    CompletesStore (.sb rs2 rs1 imm) s ea 1 (s.readReg rs2)

/-- 44_load_store.md section 3 (R135, R136): SH and SW store exactly 2 and 4 bytes at the effective address where
the access is admitted, aligned or not; where it is not they take their stop in MEMORY and write no byte. The
stops are the spec's decisions D7 and D8, the fetch word read again into `memReadData` its D18 on its D3
(logs 1, 18). -/
def Obligations.HalfAndWordStores : Prop :=
  ∀ (rs2 rs1 : RegIdx) (imm : BitVec 12) (s : State) (ea : Word), ea = s.readReg rs1 + imm.signExtend 32 →
    s.MemOk →
    AccessCases (.sh rs2 rs1 imm) s ea .half (CompletesStore (.sh rs2 rs1 imm) s ea 2 (s.readReg rs2)) ∧
    AccessCases (.sw rs2 rs1 imm) s ea .word (CompletesStore (.sw rs2 rs1 imm) s ea 4 (s.readReg rs2))

/-! ### The cycle -/

/-- 10_state.md R24: a tick of a running core advances the FSM by exactly one state, modulo 5, unless it
stops the core, and then the FSM keeps its state. -/
def Obligations.TickAdvancesFsm : Prop :=
  ∀ s : State, s.Running →
    ((tickState s).Running → (tickState s).fsm.number = (s.fsm.number + 1) % 5) ∧
    (¬(tickState s).Running → (tickState s).fsm = s.fsm)

/-- 10_state.md R21: `pc` is loaded only in WRITEBACK, so a tick in any other state keeps it, and `loadPC` is
asserted in WRITEBACK and in no other state. -/
def Obligations.PcLoadedOnlyInWriteback : Prop :=
  ∀ s : State,
    (s.fsm ≠ .writeback → (tickState s).pc = s.pc) ∧
    (∀ c, s.control = some c → (c.loadPC = true ↔ s.fsm = .writeback))

/-- 10_state.md R19: `regWrite` is asserted only in WRITEBACK and only for the seven writing opcodes; a tick
that changes what a register reads is such a cycle, and the register is the latched `rd`, not register 0. -/
def Obligations.RegistersWrittenOnlyInWriteback : Prop :=
  ∀ s : State,
    (∀ c, s.control = some c → c.regWrite = true → s.fsm = .writeback ∧ opcodeOf s.ir ∈ writingOpcodes) ∧
    (∀ r : RegIdx, (tickState s).readReg r ≠ s.readReg r →
      (∃ c, s.control = some c ∧ c.regWrite = true) ∧ s.fsm = .writeback ∧ opcodeOf s.ir ∈ writingOpcodes ∧ r = rdOf s.ir ∧ r ≠ 0)

/-- 10_state.md R25: `loadInstr` is asserted in DECODE and in no other state; the latch is loaded only there,
with the word most recently loaded from memory; and the decoder's fields and the immediate are functions of
the latch alone. -/
def Obligations.LatchLoadedOnlyInDecode : Prop :=
  (∀ (s : State) (c : Control), s.control = some c → (c.loadInstr = true ↔ s.fsm = .decode)) ∧
  (∀ s : State, s.Inv → s.Running →
    (s.fsm ≠ .decode → (tickState s).ir = s.ir) ∧ (s.fsm = .decode → (tickState s).ir = s.memReadData)) ∧
  ∀ (s t : State) (c d : Control) (imm : Word), s.ir = t.ir →
    (s.signals c imm).opcode = (t.signals d imm).opcode ∧ (s.signals c imm).funct3 = (t.signals d imm).funct3 ∧
    (s.signals c imm).funct7 = (t.signals d imm).funct7 ∧ (s.signals c imm).writeReg = (t.signals d imm).writeReg ∧
    (s.signals c imm).readReg1 = (t.signals d imm).readReg1 ∧
    (s.signals c imm).readReg2 = (t.signals d imm).readReg2 ∧ immOf s.ir = immOf t.ir

/-- 10_state.md R26: `aluCalc` is asserted in the EXECUTE cycle of every accepted opcode but LUI and in no
other cycle, and without it a tick keeps `aluOut` (and the flag written with it). -/
def Obligations.AluWrittenOnlyInExecute : Prop :=
  ∀ s : State, s.Inv → s.Running →
    (∀ c, s.control = some c → (c.aluCalc = true ↔ s.fsm = .execute ∧ opcodeOf s.ir ≠ 0b0110111#7)) ∧
    (¬(s.fsm = .execute ∧ opcodeOf s.ir ≠ 0b0110111#7) → AluKept s (tickState s))

/-- 60_exceptions.md section 1 (R137), 40_datapath_cycle.md section 6 (R89): the tick that stops the core leaves every
register as it was but `stop` and, in DECODE, the latch, and writes no byte. The stop register is the spec's
decision D10. -/
def Obligations.StopsArePrecise : Prop :=
  ∀ s t : State, s.Inv → s.Running → tickState s = t → ¬t.Running →
    t.fsm = s.fsm ∧ t.pc = s.pc ∧ t.x = s.x ∧ t.mem = s.mem ∧ t.written = s.written ∧ t.aluOut = s.aluOut ∧ t.aluZero = s.aluZero ∧
    t.memReadData = s.memReadData ∧ t.params = s.params ∧
    (s.fsm ≠ .decode → t.ir = s.ir) ∧ (s.fsm = .decode → t.ir = s.memReadData)

/-- 60_exceptions.md sections 1 and 2 (R140 to R144): exactly when a tick raises which fault, with the value it
records and in the order of R144. The faults but UndefinedDecode's opcode case are the spec's decisions D6 to
D9, so the statement is derived (logs 1, 10, 18). -/
def Obligations.FaultsHaveExactCauses : Prop :=
  ∀ (s : State) (f : Fault), s.Inv → s.Running →
    ((tickState s).stop = .fault f ↔
      (s.fsm = .fetch ∧ s.fetchTraps = true ∧ f = .misalignedFetch s.pc) ∨
      (s.fsm = .fetch ∧ s.fetchTraps = false ∧ inRange s.fetchAddr .word = false ∧
        f = .accessOutOfRange s.fetchAddr .word) ∨
      (s.fsm = .decode ∧ s.memReadData ≠ 0 ∧ accepted s.memReadData = false ∧
        f = .undefinedDecode s.memReadData) ∨
      (s.fsm = .memory ∧ ∃ size, latchedSize s.ir = some size ∧ s.accessTraps s.aluOut size = true ∧
        f = .misalignedAccess s.aluOut size) ∨
      (s.fsm = .memory ∧ ∃ size, latchedSize s.ir = some size ∧ s.accessTraps s.aluOut size = false ∧
        inRange s.aluOut size = false ∧ f = .accessOutOfRange s.aluOut size))

/-- 60_exceptions.md R139: a run ends when, and only when, a DECODE cycle latches the zero word; the halted
state has `state = DECODE`, `ir = 0` and everything else as it was; so does a step at a zero word, placed or
unwritten, and the sentinel's own meaning. -/
def Obligations.SentinelEndsTheRun : Prop :=
  (∀ s : State, s.Running →
    ((tickState s).Completed ↔ s.fsm = .decode ∧ s.memReadData = 0) ∧
    ((tick s).2 = .done ↔ s.fsm = .decode ∧ s.memReadData = 0) ∧
    ((tickState s).Completed → StoppedEarly s (tickState s) .decode .endOfProgram ∧ (tickState s).ir = 0)) ∧
  (∀ s : State, ∃ t, exec .sentinel s = .next t ∧ StoppedEarly s t .decode .endOfProgram ∧ t.ir = 0) ∧
  ∀ s : State, s.Running → s.fsm = .fetch → s.fetchTraps = false → memRead s.mem s.fetchAddr .word = .ok 0 →
    ∃ t, step s = .next t ∧ StoppedEarly s t .decode .endOfProgram ∧ t.ir = 0

/-- 60_exceptions.md section 2 (R140): a step at a nonzero word the decoder does not accept stops in DECODE with
UndefinedDecode, the word in the latch and in the record, and no architectural change (decision D9, log 10). -/
def Obligations.UndefinedDecodeStopsTheStep : Prop :=
  ∀ (s : State) (w : Word), s.Running → s.fsm = .fetch → s.fetchTraps = false →
    memRead s.mem s.fetchAddr .word = .ok w → w ≠ 0 → accepted w = false →
    ∃ t, step s = .next t ∧ StoppedEarly s t .decode (.fault (.undefinedDecode w)) ∧ t.ir = w

/-- 60_exceptions.md section 2 (R141, R142), 20_memory.md section 3 (R44): when a fetch stops and with what record. Under
`alignDown` and `trap` no fetch that reaches the RAM is out of range; under `exact` it is exactly for the
last three addresses (decisions D6 and D8). -/
def Obligations.FetchStops : Prop :=
  ∀ s : State, s.Running → s.fsm = .fetch →
    (s.params.fetchAlign = .trap → s.pc.toNat % 4 ≠ 0 →
      ∃ t, step s = .next t ∧ StoppedEarly s t .fetch (.fault (.misalignedFetch s.pc)) ∧ t.ir = s.ir) ∧
    (s.params.fetchAlign = .exact → 0xFFFFFFFD ≤ s.pc.toNat →
      ∃ t, step s = .next t ∧ StoppedEarly s t .fetch (.fault (.accessOutOfRange s.pc .word)) ∧ t.ir = s.ir) ∧
    ((s.params.fetchAlign = .exact ∧ s.pc.toNat < 0xFFFFFFFD ∨ s.params.fetchAlign = .alignDown ∨
      s.params.fetchAlign = .trap ∧ s.pc.toNat % 4 = 0) ↔ s.Fetchable)

/-- 60_exceptions.md section 1 (R138): a stopped core performs no cycle and repeats its outcome, at a tick and at a
step (decision D10; the step's form is the model's, log 3). -/
def Obligations.StoppedCoreIsQuiescent : Prop :=
  ∀ s : State, ¬s.Running →
    (∀ n, ticks n s = s) ∧ (tick s).2 = s.stop.result ∧ (s.Completed → step s = .next s) ∧
    (∀ r, s.stop = .fault r → step s = .fault r)

/-- 40_datapath_cycle.md section 8 (R93): `run()` ticks until a tick returns false or signals an error, and the state it
leaves is that tick's; a core that never stops gives it no result, however long it runs. The bound on the ticks,
and the answer `none` before the end, are the model's choice (log 15), so the statement is derived. -/
def Obligations.RunTicksUntilTermination : Prop :=
  ∀ s : State, s.Running →
    (∀ (n : Nat) (t : State) (r : TickResult), run n s = some (t, r) ↔
      ∃ k, k < n ∧ (∀ j, j ≤ k → (ticks j s).Running) ∧ ticks (k + 1) s = t ∧ ¬t.Running ∧ r = t.stop.result) ∧
    ((∀ k, (ticks k s).Running) → ∀ n, run n s = none)

/-! ### From cycles to instructions -/

/-- A running core in FETCH whose fetch address holds the word of an instruction: the step is the
instruction's meaning, from the state that differs only by the latched word, the word read, and the host's
flag that a tick has happened. -/
def Obligations.StepRunsTheDecodedInstruction : Prop :=
  ∀ (s : State) (w : Word) (i : Instr), s.Running → s.fsm = .fetch → s.fetchTraps = false →
    memRead s.mem s.fetchAddr .word = .ok w → decode w = .ok i →
    step s = exec i { s with ir := w, memReadData := w, started := true }

/-- 40_datapath_cycle.md section 7 (R91): from FETCH, the five cycles of the datapath do exactly what the instruction's
rule says (and where the core stops, they stop it with the same state). -/
def Obligations.StepIsFiveTicks : Prop :=
  ∀ s : State, s.Inv → s.Running → s.fsm = .fetch → step s = .next (ticks 5 s)

/-- A run of `n` instructions that is still running is a run of `5 n` ticks, and ends in FETCH (R91, R164). -/
def Obligations.InstructionsAreRunsOfTicks : Prop :=
  ∀ (n : Nat) (s t : State), s.Inv → s.Running → s.fsm = .fetch → core.run n s = .next t → t.Running →
    ticks (5 * n) s = t ∧ t.fsm = .fetch

/-- 70_reset_and_hazards.md section 4 (R164): a core that carries out `n` instructions and then fetches a zero word
returns false on tick `5 n + 2`, and every earlier tick returned true. -/
def Obligations.HaltsOnTickFiveNPlusTwo : Prop :=
  ∀ (n : Nat) (s t : State), s.Inv → s.Running → s.fsm = .fetch → core.run n s = .next t → t.Running →
    t.fetchTraps = false → memRead t.mem t.fetchAddr .word = .ok 0 →
    run (5 * n + 1) s = none ∧ ∃ h, run (5 * n + 2) s = some (h, .done) ∧ h.pc = t.pc ∧ SameRegs t h ∧ SameBytes t h

/-- 10_state.md section 5 (R34) and R32: no register, memory byte, `pc` or stop depends on the latch, the ALU's
registers, the read-data register or the host's flag: two running cores in FETCH that agree on the
architectural state take steps that agree on it, and on whether and how they stopped. -/
def Obligations.InternalRegistersAreUnobservable : Prop :=
  ∀ s s' : State, s.MemOk → s'.MemOk → s.Running → s'.Running → s.fsm = .fetch → s'.fsm = .fetch →
    SameArch s s' →
    ∃ t t', step s = .next t ∧ step s' = .next t' ∧ SameArch t t' ∧ t'.stop = t.stop ∧ t'.fsm = t.fsm

/-! ### The host -/

/-- 70_reset_and_hazards.md section 1 (R157, R160): before the first tick, `SetCode` puts word `i` at `TEXT_START + 4 i`,
whose bytes then count as written, and changes nothing else; a program that does not fit is refused and changes nothing
(decision D16; that the error reported is `doesNotFit` is the model's choice, log 22). -/
def Obligations.SetCodeLoadsTheProgram : Prop :=
  ∀ (words : List Word) (s : State), s.started = false → s.MemOk →
    (s.params.textStart.toNat + 4 * words.length ≤ 4294967296 →
      (setCode words s).error = none ∧
      (∀ (k : Nat) (h : k < words.length),
        memRead (setCode words s).state.mem (s.params.textStart + BitVec.ofNat 32 (4 * k)) .word = .ok words[k]) ∧
      (∀ a, a < s.params.textStart.toNat ∨ s.params.textStart.toNat + 4 * words.length ≤ a →
        (setCode words s).state.mem.readByte a = s.mem.readByte a) ∧
      (∀ a, a ∈ (setCode words s).state.written ↔
        a ∈ s.written ∨ (s.params.textStart.toNat ≤ a ∧ a < s.params.textStart.toNat + 4 * words.length)) ∧
      (setCode words s).state =
        { s with mem := (setCode words s).state.mem, written := (setCode words s).state.written }) ∧
    (4294967296 < s.params.textStart.toNat + 4 * words.length → setCode words s = ⟨s, some .doesNotFit⟩)

/-- 70_reset_and_hazards.md section 1 (R158): before the first tick, an admitted map sets its registers and no other
state; any other call is refused as a whole (decision D19; the repeated key is the model's, log 13). -/
def Obligations.SetRegistersSetsTheMap : Prop :=
  ∀ (map : List (Int × Int)) (s : State), s.started = false →
    ((∀ e ∈ map, 0 ≤ e.1 ∧ e.1 < 32 ∧ 0 ≤ e.2 ∧ e.2 < 4294967296 ∧ (e.1 = 0 → e.2 = 0)) →
      (map.map Prod.fst).Nodup →
      (setRegisters map s).error = none ∧
      (∀ (r : RegIdx) (v : Int), ((r.val : Int), v) ∈ map →
        ((setRegisters map s).state.readReg r).toNat = v.toNat) ∧
      (∀ r : RegIdx, (r.val : Int) ∉ map.map Prod.fst → (setRegisters map s).state.readReg r = s.readReg r) ∧
      (setRegisters map s).state = { s with x := (setRegisters map s).state.x }) ∧
    (¬((∀ e ∈ map, 0 ≤ e.1 ∧ e.1 < 32 ∧ 0 ≤ e.2 ∧ e.2 < 4294967296 ∧ (e.1 = 0 → e.2 = 0)) ∧
      (map.map Prod.fst).Nodup) →
      (setRegisters map s).state = s ∧ (setRegisters map s).error ≠ none)

/-- 70_reset_and_hazards.md section 1 (R159): a tick or a step of a running core is the first tick's mark, and from then
on both setters, SetCode and SetRegisters, are refused and change nothing (decision D11, log 4). The clause about
`placeData` is not R159's or D11's: 70_reset_and_hazards.md R162 and D15 say that the host places data, before the
first tick as it places code, and that it is refused after that is the model's choice (log 13). That the error reported is `afterFirstTick`, its
name and its precedence over every other ground of refusal, is the model's choice (log 22). -/
def Obligations.SettersRefusedAfterTheFirstTick : Prop :=
  (∀ s : State, s.Running →
    (tickState s).started = true ∧ ∀ t, step s = .next t → t.started = true) ∧
  ∀ (s : State) (words : List Word) (map : List (Int × Int)) (a : Word) (bytes : List Byte), s.started = true →
    setCode words s = ⟨s, some .afterFirstTick⟩ ∧ setRegisters map s = ⟨s, some .afterFirstTick⟩ ∧
    placeData a bytes s = ⟨s, some .afterFirstTick⟩

/-- 70_reset_and_hazards.md sections 1 and 2 (R156, R162): a core constructed with a program that fits starts in FETCH at
`TEXT_START`, and its first step runs the program's first word, if that word is an instruction and
`TEXT_START` is a multiple of 4. -/
def Obligations.ConstructedCoreRunsItsFirstWord : Prop :=
  ∀ (p : Params) (w : Word) (ws : List Word) (i : Instr), decode w = .ok i → p.textStart.toNat % 4 = 0 →
    p.textStart.toNat + 4 * (ws.length + 1) ≤ 4294967296 →
    ∃ s, construct p (some (w :: ws)) none = (s, []) ∧ s.pc = p.textStart ∧ s.fsm = .fetch ∧ s.Running ∧
      (∀ r, s.readReg r = (State.resetWith p).readReg r) ∧
      step s = exec i { s with ir := w, memReadData := w, started := true }

/-- 70_reset_and_hazards.md section 1 (R160): between ticks the host reads `pc`, every general register, the FSM state, the
latched instruction, every byte of memory and the internal registers as they are; the sparse iteration of the RAM
gives exactly the bytes that have been written, zero bytes among them, each once and with its value, and every
other byte is zero. That they come in rising order is the model's choice (log 16), so the statement is derived. -/
def Obligations.AccessorsShowTheState : Prop :=
  ∀ s : State, s.WrittenOk →
    s.view.pc = s.pc ∧ s.view.fsm = s.fsm ∧ s.view.ir = s.ir ∧ (∀ r : RegIdx, s.view.regs[r.val]? = some (s.readReg r)) ∧
    s.view.aluOut = s.aluOut ∧ s.view.aluZero = s.aluZero ∧ s.view.memReadData = s.memReadData ∧
    s.view.stop = s.stop ∧ (∀ a : Word, memRead s.mem a .byte = .ok ((s.byteAt a).setWidth 32)) ∧
    (∀ (a : Nat) (b : Byte), (a, b) ∈ s.view.ram ↔ a ∈ s.written ∧ b = s.mem.readByte a) ∧
    (s.view.ram.map Prod.fst).Pairwise (· < ·) ∧ ∀ a : Nat, a ∉ s.view.ram.map Prod.fst → s.mem.readByte a = 0

/-- 70_reset_and_hazards.md section 1 (R160), 20_memory.md section 2 (R40): a store's bytes count as written once it has
completed, whatever their value, and a store that is turned away marks nothing (the decisions D7 and D8, logs 1,
18). No other instruction marks a byte (OnlyStoresChangeMemory). -/
def Obligations.StoresMarkTheirBytesWritten : Prop :=
  ∀ (rs2 rs1 : RegIdx) (imm : BitVec 12) (s : State) (ea : Word), ea = s.readReg rs1 + imm.signExtend 32 →
    MarksWritten (.sb rs2 rs1 imm) s ea 1 ∧ MarksWrittenIfAdmitted (.sh rs2 rs1 imm) s ea .half ∧
    MarksWrittenIfAdmitted (.sw rs2 rs1 imm) s ea .word

/-- 70_reset_and_hazards.md section 1 (R160), 40_datapath_cycle.md section 5 (R83): a tick marks a byte as written only in
the MEMORY cycle of a store that does not stop, the byte is one of those the store covers, and once written a
byte stays so. -/
def Obligations.BytesBecomeWrittenOnlyInMemory : Prop :=
  ∀ (s : State) (a : Nat), s.Running → s.Inv →
    (a ∈ s.written → a ∈ (tickState s).written) ∧
    (a ∈ (tickState s).written → a ∉ s.written →
      (tickState s).Running ∧ s.fsm = .memory ∧ opcodeOf s.ir = 0b0100011#7 ∧
        ∃ size, latchedSize s.ir = some size ∧ s.aluOut.toNat ≤ a ∧ a < s.aluOut.toNat + size.bytes)

/-- 70_reset_and_hazards.md sections 1 and 2 (R157, R158, R159; R162 and D15 for data): whatever a host call is given,
admitted or refused, it keeps the invariant. When data is refused is the model's choice (log 13). -/
def Obligations.HostCallsKeepInvariant : Prop :=
  ∀ s : State, s.Inv →
    (∀ words, (setCode words s).state.Inv) ∧ (∀ map, (setRegisters map s).state.Inv) ∧
    ∀ start bytes, (placeData start bytes s).state.Inv
end

