-- ==== Sys2Proof/Laws/Control.lean ====
section
/-! SUPPORT. The control signals each state drives, at each opcode (spec/40_datapath_cycle.md R77 to R80). -/

namespace Sys2Proof.Machine

theorem executeControl_op {w : Word} (h : opcodeOf w = 0b0110011#7) :
    executeControl w = some { Control.defaults with
      aluCalc := true, aluOp := funct3Of w, aluAlt := (funct7Of w).getLsbD 5 } := by
  unfold executeControl; rw [h]; rfl
theorem executeControl_opImm {w : Word} (h : opcodeOf w = 0b0010011#7) :
    executeControl w = some { Control.defaults with
      aluCalc := true, aluOp := funct3Of w, aluAlt := shiftAlt (funct3Of w) (funct7Of w), aluSrc2 := .imm } := by
  unfold executeControl; rw [h]; rfl
theorem executeControl_auipc {w : Word} (h : opcodeOf w = 0b0010111#7) :
    executeControl w = some { Control.defaults with aluCalc := true, aluSrc1 := .pc, aluSrc2 := .imm } := by
  unfold executeControl; rw [h]; rfl
theorem executeControl_load {w : Word} (h : opcodeOf w = 0b0000011#7) :
    executeControl w = some { Control.defaults with aluCalc := true, aluSrc2 := .imm } := by
  unfold executeControl; rw [h]; rfl
theorem executeControl_store {w : Word} (h : opcodeOf w = 0b0100011#7) :
    executeControl w = some { Control.defaults with aluCalc := true, aluSrc2 := .imm } := by
  unfold executeControl; rw [h]; rfl
theorem executeControl_branch {w : Word} (h : opcodeOf w = 0b1100011#7) :
    executeControl w = some { Control.defaults with
      aluCalc := true, aluOp := branchAluOp (funct3Of w), aluAlt := true } := by
  unfold executeControl; rw [h]; rfl
theorem executeControl_jalr {w : Word} (h : opcodeOf w = 0b1100111#7) :
    executeControl w = some { Control.defaults with aluCalc := true, aluSrc2 := .imm } := by
  unfold executeControl; rw [h]; rfl
theorem executeControl_jal {w : Word} (h : opcodeOf w = 0b1101111#7) :
    executeControl w = some { Control.defaults with aluCalc := true, aluSrc1 := .pc, aluSrc2 := .imm } := by
  unfold executeControl; rw [h]; rfl
theorem executeControl_lui {w : Word} (h : opcodeOf w = 0b0110111#7) :
    executeControl w = some Control.defaults := by
  unfold executeControl; rw [h]; rfl

theorem memoryControl_idle {w : Word} (h : opcodeOf w = 0b0110011#7 ∨ opcodeOf w = 0b0010011#7 ∨
    opcodeOf w = 0b0010111#7 ∨ opcodeOf w = 0b0110111#7 ∨ opcodeOf w = 0b1100011#7 ∨
    opcodeOf w = 0b1100111#7 ∨ opcodeOf w = 0b1101111#7) : memoryControl w = some Control.defaults := by
  unfold memoryControl
  rcases h with h | h | h | h | h | h | h <;> rw [h] <;> rfl
theorem memoryControl_load {w : Word} (h : opcodeOf w = 0b0000011#7) :
    memoryControl w = some { Control.defaults with
      memAddrMuxSrc := .aluOut, memSize := (funct3Of w).extractLsb' 0 2,
        memUnsigned := (funct3Of w).getLsbD 2 } := by
  unfold memoryControl; rw [h]; rfl
theorem memoryControl_store {w : Word} (h : opcodeOf w = 0b0100011#7) :
    memoryControl w = some { Control.defaults with
      memWrite := true, memAddrMuxSrc := .aluOut, memSize := (funct3Of w).extractLsb' 0 2,
        memUnsigned := (funct3Of w).getLsbD 2 } := by
  unfold memoryControl; rw [h]; rfl

theorem jumpTable_none {op : BitVec 7} {f3 : BitVec 3} (h : op = 0b0110011#7 ∨ op = 0b0010011#7 ∨
    op = 0b0010111#7 ∨ op = 0b0110111#7 ∨ op = 0b0000011#7 ∨ op = 0b0100011#7) :
    lookup jumpTable (op ++ f3) = some ⟨false, false, .pcImm⟩ := by
  rcases h with rfl | rfl | rfl | rfl | rfl | rfl <;> (revert f3; decide)

theorem writebackControl_alu {w : Word} (h : opcodeOf w = 0b0110011#7 ∨ opcodeOf w = 0b0010011#7 ∨
    opcodeOf w = 0b0010111#7) :
    writebackControl w = some { Control.defaults with regWrite := true, loadPC := true } := by
  unfold writebackControl
  rw [jumpTable_none (by tauto)]
  rcases h with h | h | h <;> rw [h] <;> rfl
theorem writebackControl_lui {w : Word} (h : opcodeOf w = 0b0110111#7) :
    writebackControl w = some { Control.defaults with
      regWrite := true, writeDataMuxSrc := .imm, loadPC := true } := by
  unfold writebackControl; rw [jumpTable_none (by tauto), h]; rfl
theorem writebackControl_load {w : Word} (h : opcodeOf w = 0b0000011#7) :
    writebackControl w = some { Control.defaults with
      regWrite := true, writeDataMuxSrc := .memRead, loadPC := true } := by
  unfold writebackControl; rw [jumpTable_none (by tauto), h]; rfl
theorem writebackControl_store {w : Word} (h : opcodeOf w = 0b0100011#7) :
    writebackControl w = some { Control.defaults with loadPC := true } := by
  unfold writebackControl; rw [jumpTable_none (by tauto), h]; rfl
theorem writebackControl_jal {w : Word} (h : opcodeOf w = 0b1101111#7) :
    writebackControl w = some { Control.defaults with
      regWrite := true, writeDataMuxSrc := .pc4, branchZero := true, branchNotZero := true, loadPC := true } := by
  unfold writebackControl; rw [h]; generalize funct3Of w = f; revert f; decide
theorem writebackControl_jalr {w : Word} (h : opcodeOf w = 0b1100111#7) :
    writebackControl w = some { Control.defaults with
      regWrite := true, writeDataMuxSrc := .pc4, branchZero := true, branchNotZero := true,
        jumpControlSrc := .rs1Imm, loadPC := true } := by
  unfold writebackControl; rw [h]; generalize funct3Of w = f; revert f; decide
/-- The branch predicates by funct3. -/
def branchPredicates (f3 : BitVec 3) : Bool × Bool :=
  match f3 with
  | 0b000#3 => (true, false)
  | 0b001#3 => (false, true)
  | 0b100#3 => (false, true)
  | 0b101#3 => (true, false)
  | 0b110#3 => (false, true)
  | 0b111#3 => (true, false)
  | _ => (false, false)
theorem writebackControl_branch {w : Word} (h : opcodeOf w = 0b1100011#7) :
    writebackControl w = some { Control.defaults with
      branchZero := (branchPredicates (funct3Of w)).1, branchNotZero := (branchPredicates (funct3Of w)).2,
        loadPC := true } := by
  unfold writebackControl; rw [h]; generalize funct3Of w = f; revert f; decide

end Sys2Proof.Machine
end

