-- ==== Sys2Proof/Laws/Decode.lean ====
section
/-! SUPPORT. Slices of words: what each field of an encoded word is, how a word is joined from its fields, and the immediate table at each opcode. -/

namespace Sys2Proof

/-! ### Slices -/

/-- A slice that lies in the low part of a concatenation. -/
theorem slice_low {n m : Nat} (x : BitVec n) (y : BitVec m) {s l : Nat} (h : s + l ≤ m) :
    (x ++ y).extractLsb' s l = y.extractLsb' s l := by
  ext k hk
  have : s + k < m := by omega
  simp [BitVec.getLsbD_append, this]

/-- A slice that lies in the high part of a concatenation. -/
theorem slice_high {n m : Nat} (x : BitVec n) (y : BitVec m) {s l : Nat} (h : m ≤ s) :
    (x ++ y).extractLsb' s l = x.extractLsb' (s - m) l := by
  ext k hk
  have : ¬s + k < m := by omega
  have e : s + k - m = s - m + k := by omega
  simp [BitVec.getLsbD_append, this, e]

/-- The whole of a bit vector. -/
theorem slice_full {n : Nat} (x : BitVec n) : x.extractLsb' 0 n = x := by
  ext k hk
  simp

/-- Two neighbouring slices joined. -/
theorem slice_join {n : Nat} (x : BitVec n) (s l k : Nat) :
    x.extractLsb' (s + l) k ++ x.extractLsb' s l = x.extractLsb' s (k + l) := by
  ext j hj
  simp only [BitVec.getElem_append, BitVec.getElem_extractLsb']
  split
  · rfl
  · congr 1
    omega

/-- A register number survives its field. -/
theorem regOf_regBits (r : RegIdx) : regOf (regBits r) = r := by
  apply Fin.ext
  have := r.isLt
  simp only [regOf, regBits, BitVec.toNat_ofNat]
  omega

/-- A 5-bit field survives the register number. -/
theorem regBits_regOf (b : BitVec 5) : regBits (regOf b) = b := by
  apply BitVec.eq_of_toNat_eq
  have := b.isLt
  simp only [regOf, regBits, BitVec.toNat_ofNat]
  omega

/-! ### The fields of a format R word -/

theorem opcodeOf_encodeR (f7 : BitVec 7) (b2 b1 : BitVec 5) (f3 : BitVec 3) (d : BitVec 5) (op : BitVec 7) :
    opcodeOf (encodeR f7 b2 b1 f3 d op) = op := by
  refine (slice_low (f7 ++ b2 ++ b1 ++ f3 ++ d) op (by decide)).trans ?_
  exact slice_full _

theorem funct3Of_encodeR (f7 : BitVec 7) (b2 b1 : BitVec 5) (f3 : BitVec 3) (d : BitVec 5) (op : BitVec 7) :
    funct3Of (encodeR f7 b2 b1 f3 d op) = f3 := by
  refine (slice_high (f7 ++ b2 ++ b1 ++ f3 ++ d) op (by decide)).trans ?_
  simp (disch := omega) only [slice_low, slice_high]
  exact slice_full _

theorem funct7Of_encodeR (f7 : BitVec 7) (b2 b1 : BitVec 5) (f3 : BitVec 3) (d : BitVec 5) (op : BitVec 7) :
    funct7Of (encodeR f7 b2 b1 f3 d op) = f7 := by
  refine (slice_high (f7 ++ b2 ++ b1 ++ f3 ++ d) op (by decide)).trans ?_
  simp (disch := omega) only [slice_high]
  exact slice_full _

theorem rd_encodeR (f7 : BitVec 7) (b2 b1 : BitVec 5) (f3 : BitVec 3) (d : BitVec 5) (op : BitVec 7) :
    (encodeR f7 b2 b1 f3 d op).extractLsb' 7 5 = d := by
  refine (slice_high (f7 ++ b2 ++ b1 ++ f3 ++ d) op (by decide)).trans ?_
  simp (disch := omega) only [slice_low]
  exact slice_full _

theorem rs1_encodeR (f7 : BitVec 7) (b2 b1 : BitVec 5) (f3 : BitVec 3) (d : BitVec 5) (op : BitVec 7) :
    (encodeR f7 b2 b1 f3 d op).extractLsb' 15 5 = b1 := by
  refine (slice_high (f7 ++ b2 ++ b1 ++ f3 ++ d) op (by decide)).trans ?_
  simp (disch := omega) only [slice_low, slice_high]
  exact slice_full _

theorem rs2_encodeR (f7 : BitVec 7) (b2 b1 : BitVec 5) (f3 : BitVec 3) (d : BitVec 5) (op : BitVec 7) :
    (encodeR f7 b2 b1 f3 d op).extractLsb' 20 5 = b2 := by
  refine (slice_high (f7 ++ b2 ++ b1 ++ f3 ++ d) op (by decide)).trans ?_
  simp (disch := omega) only [slice_low, slice_high]
  exact slice_full _

/-! ### The fields of a format I word -/

theorem opcodeOf_encodeI (imm : BitVec 12) (b1 : BitVec 5) (f3 : BitVec 3) (d : BitVec 5) (op : BitVec 7) :
    opcodeOf (encodeI imm b1 f3 d op) = op := by
  refine (slice_low (imm ++ b1 ++ f3 ++ d) op (by decide)).trans ?_
  exact slice_full _

theorem funct3Of_encodeI (imm : BitVec 12) (b1 : BitVec 5) (f3 : BitVec 3) (d : BitVec 5) (op : BitVec 7) :
    funct3Of (encodeI imm b1 f3 d op) = f3 := by
  refine (slice_high (imm ++ b1 ++ f3 ++ d) op (by decide)).trans ?_
  simp (disch := omega) only [slice_low, slice_high]
  exact slice_full _

theorem rd_encodeI (imm : BitVec 12) (b1 : BitVec 5) (f3 : BitVec 3) (d : BitVec 5) (op : BitVec 7) :
    (encodeI imm b1 f3 d op).extractLsb' 7 5 = d := by
  refine (slice_high (imm ++ b1 ++ f3 ++ d) op (by decide)).trans ?_
  simp (disch := omega) only [slice_low]
  exact slice_full _

theorem rs1_encodeI (imm : BitVec 12) (b1 : BitVec 5) (f3 : BitVec 3) (d : BitVec 5) (op : BitVec 7) :
    (encodeI imm b1 f3 d op).extractLsb' 15 5 = b1 := by
  refine (slice_high (imm ++ b1 ++ f3 ++ d) op (by decide)).trans ?_
  simp (disch := omega) only [slice_low, slice_high]
  exact slice_full _

theorem immI_encodeI (imm : BitVec 12) (b1 : BitVec 5) (f3 : BitVec 3) (d : BitVec 5) (op : BitVec 7) :
    immI (encodeI imm b1 f3 d op) = imm := by
  refine (slice_high (imm ++ b1 ++ f3 ++ d) op (by decide)).trans ?_
  simp (disch := omega) only [slice_high]
  exact slice_full _

/-! ### The fields of a format S word -/

theorem opcodeOf_encodeS (imm : BitVec 12) (b2 b1 : BitVec 5) (f3 : BitVec 3) (op : BitVec 7) :
    opcodeOf (encodeS imm b2 b1 f3 op) = op := by
  refine (slice_low (imm.extractLsb' 5 7 ++ b2 ++ b1 ++ f3 ++ imm.extractLsb' 0 5) op (by decide)).trans ?_
  exact slice_full _

theorem funct3Of_encodeS (imm : BitVec 12) (b2 b1 : BitVec 5) (f3 : BitVec 3) (op : BitVec 7) :
    funct3Of (encodeS imm b2 b1 f3 op) = f3 := by
  refine (slice_high (imm.extractLsb' 5 7 ++ b2 ++ b1 ++ f3 ++ imm.extractLsb' 0 5) op (by decide)).trans ?_
  simp (disch := omega) only [slice_low, slice_high]
  exact slice_full _

theorem rs1_encodeS (imm : BitVec 12) (b2 b1 : BitVec 5) (f3 : BitVec 3) (op : BitVec 7) :
    (encodeS imm b2 b1 f3 op).extractLsb' 15 5 = b1 := by
  refine (slice_high (imm.extractLsb' 5 7 ++ b2 ++ b1 ++ f3 ++ imm.extractLsb' 0 5) op (by decide)).trans ?_
  simp (disch := omega) only [slice_low, slice_high]
  exact slice_full _

theorem rs2_encodeS (imm : BitVec 12) (b2 b1 : BitVec 5) (f3 : BitVec 3) (op : BitVec 7) :
    (encodeS imm b2 b1 f3 op).extractLsb' 20 5 = b2 := by
  refine (slice_high (imm.extractLsb' 5 7 ++ b2 ++ b1 ++ f3 ++ imm.extractLsb' 0 5) op (by decide)).trans ?_
  simp (disch := omega) only [slice_low, slice_high]
  exact slice_full _

theorem immHi_encodeS (imm : BitVec 12) (b2 b1 : BitVec 5) (f3 : BitVec 3) (op : BitVec 7) :
    (encodeS imm b2 b1 f3 op).extractLsb' 25 7 = imm.extractLsb' 5 7 := by
  refine (slice_high (imm.extractLsb' 5 7 ++ b2 ++ b1 ++ f3 ++ imm.extractLsb' 0 5) op (by decide)).trans ?_
  simp (disch := omega) only [slice_high]
  exact slice_full _

theorem immLo_encodeS (imm : BitVec 12) (b2 b1 : BitVec 5) (f3 : BitVec 3) (op : BitVec 7) :
    (encodeS imm b2 b1 f3 op).extractLsb' 7 5 = imm.extractLsb' 0 5 := by
  refine (slice_high (imm.extractLsb' 5 7 ++ b2 ++ b1 ++ f3 ++ imm.extractLsb' 0 5) op (by decide)).trans ?_
  simp (disch := omega) only [slice_low]
  exact slice_full _

/-! ### The fields of a format SB word -/

theorem opcodeOf_encodeSB (imm : BitVec 13) (b2 b1 : BitVec 5) (f3 : BitVec 3) (op : BitVec 7) :
    opcodeOf (encodeSB imm b2 b1 f3 op) = op := by
  refine (slice_low (imm.extractLsb' 12 1 ++ imm.extractLsb' 5 6 ++ b2 ++ b1 ++ f3 ++ imm.extractLsb' 1 4 ++ imm.extractLsb' 11 1) op (by decide)).trans ?_
  exact slice_full _

theorem funct3Of_encodeSB (imm : BitVec 13) (b2 b1 : BitVec 5) (f3 : BitVec 3) (op : BitVec 7) :
    funct3Of (encodeSB imm b2 b1 f3 op) = f3 := by
  refine (slice_high (imm.extractLsb' 12 1 ++ imm.extractLsb' 5 6 ++ b2 ++ b1 ++ f3 ++ imm.extractLsb' 1 4 ++ imm.extractLsb' 11 1) op (by decide)).trans ?_
  simp (disch := omega) only [slice_low, slice_high]
  exact slice_full _

theorem rs1_encodeSB (imm : BitVec 13) (b2 b1 : BitVec 5) (f3 : BitVec 3) (op : BitVec 7) :
    (encodeSB imm b2 b1 f3 op).extractLsb' 15 5 = b1 := by
  refine (slice_high (imm.extractLsb' 12 1 ++ imm.extractLsb' 5 6 ++ b2 ++ b1 ++ f3 ++ imm.extractLsb' 1 4 ++ imm.extractLsb' 11 1) op (by decide)).trans ?_
  simp (disch := omega) only [slice_low, slice_high]
  exact slice_full _

theorem rs2_encodeSB (imm : BitVec 13) (b2 b1 : BitVec 5) (f3 : BitVec 3) (op : BitVec 7) :
    (encodeSB imm b2 b1 f3 op).extractLsb' 20 5 = b2 := by
  refine (slice_high (imm.extractLsb' 12 1 ++ imm.extractLsb' 5 6 ++ b2 ++ b1 ++ f3 ++ imm.extractLsb' 1 4 ++ imm.extractLsb' 11 1) op (by decide)).trans ?_
  simp (disch := omega) only [slice_low, slice_high]
  exact slice_full _

theorem imm12_encodeSB (imm : BitVec 13) (b2 b1 : BitVec 5) (f3 : BitVec 3) (op : BitVec 7) :
    (encodeSB imm b2 b1 f3 op).extractLsb' 31 1 = imm.extractLsb' 12 1 := by
  refine (slice_high (imm.extractLsb' 12 1 ++ imm.extractLsb' 5 6 ++ b2 ++ b1 ++ f3 ++ imm.extractLsb' 1 4 ++ imm.extractLsb' 11 1) op (by decide)).trans ?_
  simp (disch := omega) only [slice_high]
  exact slice_full _

theorem imm10_5_encodeSB (imm : BitVec 13) (b2 b1 : BitVec 5) (f3 : BitVec 3) (op : BitVec 7) :
    (encodeSB imm b2 b1 f3 op).extractLsb' 25 6 = imm.extractLsb' 5 6 := by
  refine (slice_high (imm.extractLsb' 12 1 ++ imm.extractLsb' 5 6 ++ b2 ++ b1 ++ f3 ++ imm.extractLsb' 1 4 ++ imm.extractLsb' 11 1) op (by decide)).trans ?_
  simp (disch := omega) only [slice_low, slice_high]
  exact slice_full _

theorem imm4_1_encodeSB (imm : BitVec 13) (b2 b1 : BitVec 5) (f3 : BitVec 3) (op : BitVec 7) :
    (encodeSB imm b2 b1 f3 op).extractLsb' 8 4 = imm.extractLsb' 1 4 := by
  refine (slice_high (imm.extractLsb' 12 1 ++ imm.extractLsb' 5 6 ++ b2 ++ b1 ++ f3 ++ imm.extractLsb' 1 4 ++ imm.extractLsb' 11 1) op (by decide)).trans ?_
  simp (disch := omega) only [slice_low, slice_high]
  exact slice_full _

theorem imm11_encodeSB (imm : BitVec 13) (b2 b1 : BitVec 5) (f3 : BitVec 3) (op : BitVec 7) :
    (encodeSB imm b2 b1 f3 op).extractLsb' 7 1 = imm.extractLsb' 11 1 := by
  refine (slice_high (imm.extractLsb' 12 1 ++ imm.extractLsb' 5 6 ++ b2 ++ b1 ++ f3 ++ imm.extractLsb' 1 4 ++ imm.extractLsb' 11 1) op (by decide)).trans ?_
  simp (disch := omega) only [slice_low]
  exact slice_full _

/-! ### The fields of a format U word -/

theorem opcodeOf_encodeU (imm : BitVec 20) (d : BitVec 5) (op : BitVec 7) :
    opcodeOf (encodeU imm d op) = op := by
  refine (slice_low (imm ++ d) op (by decide)).trans ?_
  exact slice_full _

theorem rd_encodeU (imm : BitVec 20) (d : BitVec 5) (op : BitVec 7) :
    (encodeU imm d op).extractLsb' 7 5 = d := by
  refine (slice_high (imm ++ d) op (by decide)).trans ?_
  simp (disch := omega) only [slice_low]
  exact slice_full _

theorem immU_encodeU (imm : BitVec 20) (d : BitVec 5) (op : BitVec 7) :
    immU (encodeU imm d op) = imm := by
  refine (slice_high (imm ++ d) op (by decide)).trans ?_
  simp (disch := omega) only [slice_high]
  exact slice_full _

/-! ### The fields of a format UJ word -/

theorem opcodeOf_encodeUJ (imm : BitVec 21) (d : BitVec 5) (op : BitVec 7) :
    opcodeOf (encodeUJ imm d op) = op := by
  refine (slice_low (imm.extractLsb' 20 1 ++ imm.extractLsb' 1 10 ++ imm.extractLsb' 11 1 ++ imm.extractLsb' 12 8 ++ d) op (by decide)).trans ?_
  exact slice_full _

theorem rd_encodeUJ (imm : BitVec 21) (d : BitVec 5) (op : BitVec 7) :
    (encodeUJ imm d op).extractLsb' 7 5 = d := by
  refine (slice_high (imm.extractLsb' 20 1 ++ imm.extractLsb' 1 10 ++ imm.extractLsb' 11 1 ++ imm.extractLsb' 12 8 ++ d) op (by decide)).trans ?_
  simp (disch := omega) only [slice_low]
  exact slice_full _

theorem imm20_encodeUJ (imm : BitVec 21) (d : BitVec 5) (op : BitVec 7) :
    (encodeUJ imm d op).extractLsb' 31 1 = imm.extractLsb' 20 1 := by
  refine (slice_high (imm.extractLsb' 20 1 ++ imm.extractLsb' 1 10 ++ imm.extractLsb' 11 1 ++ imm.extractLsb' 12 8 ++ d) op (by decide)).trans ?_
  simp (disch := omega) only [slice_high]
  exact slice_full _

theorem imm10_1_encodeUJ (imm : BitVec 21) (d : BitVec 5) (op : BitVec 7) :
    (encodeUJ imm d op).extractLsb' 21 10 = imm.extractLsb' 1 10 := by
  refine (slice_high (imm.extractLsb' 20 1 ++ imm.extractLsb' 1 10 ++ imm.extractLsb' 11 1 ++ imm.extractLsb' 12 8 ++ d) op (by decide)).trans ?_
  simp (disch := omega) only [slice_low, slice_high]
  exact slice_full _

theorem imm11_encodeUJ (imm : BitVec 21) (d : BitVec 5) (op : BitVec 7) :
    (encodeUJ imm d op).extractLsb' 20 1 = imm.extractLsb' 11 1 := by
  refine (slice_high (imm.extractLsb' 20 1 ++ imm.extractLsb' 1 10 ++ imm.extractLsb' 11 1 ++ imm.extractLsb' 12 8 ++ d) op (by decide)).trans ?_
  simp (disch := omega) only [slice_low, slice_high]
  exact slice_full _

theorem imm19_12_encodeUJ (imm : BitVec 21) (d : BitVec 5) (op : BitVec 7) :
    (encodeUJ imm d op).extractLsb' 12 8 = imm.extractLsb' 12 8 := by
  refine (slice_high (imm.extractLsb' 20 1 ++ imm.extractLsb' 1 10 ++ imm.extractLsb' 11 1 ++ imm.extractLsb' 12 8 ++ d) op (by decide)).trans ?_
  simp (disch := omega) only [slice_low, slice_high]
  exact slice_full _

/-! ### Immediates joined from their slices -/

theorem immS_encodeS (imm : BitVec 12) (b2 b1 : BitVec 5) (f3 : BitVec 3) (op : BitVec 7) :
    immS (encodeS imm b2 b1 f3 op) = imm := by
  unfold immS
  rw [immHi_encodeS, immLo_encodeS]
  exact (slice_join imm 0 5 7).trans (slice_full imm)

/-- The four slices of an SB offset and its zero bit are the offset, when bit 0 is zero. -/
theorem join_branchOffset (imm : BitVec 13) (h : branchOffsetOk imm = true) :
    imm.extractLsb' 12 1 ++ imm.extractLsb' 11 1 ++ imm.extractLsb' 5 6 ++ imm.extractLsb' 1 4 ++ 0#1 = imm := by
  have h0 : imm.extractLsb' 0 1 = 0#1 := by
    ext k hk
    obtain rfl : k = 0 := by omega
    simpa [branchOffsetOk] using h
  rw [← h0]
  exact (congrArg (· ++ _) ((congrArg (· ++ _) ((congrArg (· ++ _) (slice_join imm 11 1 1)).trans
    (slice_join imm 5 6 2))).trans (slice_join imm 1 4 8))).trans ((slice_join imm 0 1 12).trans (slice_full imm))

theorem immSB_encodeSB (imm : BitVec 13) (b2 b1 : BitVec 5) (f3 : BitVec 3) (op : BitVec 7)
    (h : branchOffsetOk imm = true) : immSB (encodeSB imm b2 b1 f3 op) = imm := by
  unfold immSB
  rw [imm12_encodeSB, imm11_encodeSB, imm10_5_encodeSB, imm4_1_encodeSB]
  exact join_branchOffset imm h

/-- The four slices of a UJ offset and its zero bit are the offset, when bit 0 is zero. -/
theorem join_jumpOffset (imm : BitVec 21) (h : jumpOffsetOk imm = true) :
    imm.extractLsb' 20 1 ++ imm.extractLsb' 12 8 ++ imm.extractLsb' 11 1 ++ imm.extractLsb' 1 10 ++ 0#1 = imm := by
  have h0 : imm.extractLsb' 0 1 = 0#1 := by
    ext k hk
    obtain rfl : k = 0 := by omega
    simpa [jumpOffsetOk] using h
  rw [← h0]
  exact (congrArg (· ++ _) ((congrArg (· ++ _) ((congrArg (· ++ _) (slice_join imm 12 8 1)).trans
    (slice_join imm 11 1 9))).trans (slice_join imm 1 10 10))).trans ((slice_join imm 0 1 20).trans (slice_full imm))

theorem immUJ_encodeUJ (imm : BitVec 21) (d : BitVec 5) (op : BitVec 7) (h : jumpOffsetOk imm = true) :
    immUJ (encodeUJ imm d op) = imm := by
  unfold immUJ
  rw [imm20_encodeUJ, imm19_12_encodeUJ, imm11_encodeUJ, imm10_1_encodeUJ]
  exact join_jumpOffset imm h

/-- An SB offset read from a word is even. -/
theorem branchOffsetOk_immSB (w : Word) : branchOffsetOk (immSB w) = true := by
  have := BitVec.getLsbD_append (x := w.extractLsb' 31 1 ++ w.extractLsb' 7 1 ++ w.extractLsb' 25 6 ++
    w.extractLsb' 8 4) (y := 0#1) (i := 0)
  simp only [branchOffsetOk, immSB]
  rw [show BitVec.getLsbD _ 0 = _ from this]
  rfl

/-- A UJ offset read from a word is even. -/
theorem jumpOffsetOk_immUJ (w : Word) : jumpOffsetOk (immUJ w) = true := by
  have := BitVec.getLsbD_append (x := w.extractLsb' 31 1 ++ w.extractLsb' 12 8 ++ w.extractLsb' 20 1 ++
    w.extractLsb' 21 10) (y := 0#1) (i := 0)
  simp only [jumpOffsetOk, immUJ]
  rw [show BitVec.getLsbD _ 0 = _ from this]
  rfl

/-! ### The immediate table at each opcode -/

theorem immOf_load {w : Word} (h : opcodeOf w = 0b0000011#7) : immOf w = some ((immI w).signExtend 32) := by
  unfold immOf; rw [h]; rfl

theorem immOf_opImm {w : Word} (h : opcodeOf w = 0b0010011#7) : immOf w = some ((immI w).signExtend 32) := by
  unfold immOf; rw [h]; rfl

theorem immOf_auipc {w : Word} (h : opcodeOf w = 0b0010111#7) : immOf w = some (upperImm (immU w)) := by
  unfold immOf; rw [h]; rfl

theorem immOf_store {w : Word} (h : opcodeOf w = 0b0100011#7) : immOf w = some ((immS w).signExtend 32) := by
  unfold immOf; rw [h]; rfl

theorem immOf_op {w : Word} (h : opcodeOf w = 0b0110011#7) : immOf w = some (0) := by
  unfold immOf; rw [h]; rfl

theorem immOf_lui {w : Word} (h : opcodeOf w = 0b0110111#7) : immOf w = some (upperImm (immU w)) := by
  unfold immOf; rw [h]; rfl

theorem immOf_branch {w : Word} (h : opcodeOf w = 0b1100011#7) : immOf w = some ((immSB w).signExtend 32) := by
  unfold immOf; rw [h]; rfl

theorem immOf_jalr {w : Word} (h : opcodeOf w = 0b1100111#7) : immOf w = some ((immI w).signExtend 32) := by
  unfold immOf; rw [h]; rfl

theorem immOf_jal {w : Word} (h : opcodeOf w = 0b1101111#7) : immOf w = some ((immUJ w).signExtend 32) := by
  unfold immOf; rw [h]; rfl

end Sys2Proof
end

