-- ==== Sys2Proof/Laws/Encode.lean ====
section
/-! SUPPORT. A word as the encoding of its own fields, and the register numbers and the decoder's choice read from an encoded word. -/

namespace Sys2Proof

/-! ### A word is the encoding of its own fields -/

/-- A word is the format R word of its own fields. -/
theorem encodeR_fields (w : Word) :
    encodeR (funct7Of w) (w.extractLsb' 20 5) (w.extractLsb' 15 5) (funct3Of w) (w.extractLsb' 7 5) (opcodeOf w) = w := by
  unfold encodeR funct7Of funct3Of opcodeOf
  exact (congrArg (· ++ _) ((congrArg (· ++ _) ((congrArg (· ++ _) ((congrArg (· ++ _) (slice_join w 20 5 7)).trans
    (slice_join w 15 5 12))).trans (slice_join w 12 3 17))).trans (slice_join w 7 5 20))).trans
    ((slice_join w 0 7 25).trans (slice_full w))

/-- Formats I, S, SB, U and UJ are format R with other names for the upper fields. -/
theorem encodeI_fields (w : Word) :
    encodeI (immI w) (w.extractLsb' 15 5) (funct3Of w) (w.extractLsb' 7 5) (opcodeOf w) = w := by
  refine Eq.trans ?_ (encodeR_fields w)
  unfold encodeI encodeR immI funct7Of
  exact congrArg (· ++ _ ++ _ ++ _ ++ _) (slice_join w 20 5 7).symm

theorem encodeU_fields (w : Word) : encodeU (immU w) (w.extractLsb' 7 5) (opcodeOf w) = w := by
  refine Eq.trans ?_ (encodeR_fields w)
  unfold encodeU encodeR immU funct7Of funct3Of
  exact congrArg (· ++ _ ++ _) ((congrArg (· ++ _) ((congrArg (· ++ _) (slice_join w 20 5 7)).trans
    (slice_join w 15 5 12))).trans (slice_join w 12 3 17)).symm

theorem encodeS_fields (w : Word) :
    encodeS (immS w) (w.extractLsb' 20 5) (w.extractLsb' 15 5) (funct3Of w) (opcodeOf w) = w := by
  refine Eq.trans ?_ (encodeR_fields w)
  have h1 : (immS w).extractLsb' 5 7 = funct7Of w := (slice_high _ _ (by decide)).trans (slice_full _)
  have h2 : (immS w).extractLsb' 0 5 = w.extractLsb' 7 5 := (slice_low _ _ (by decide)).trans (slice_full _)
  unfold encodeS encodeR
  rw [h1, h2]

theorem encodeSB_fields (w : Word) :
    encodeSB (immSB w) (w.extractLsb' 20 5) (w.extractLsb' 15 5) (funct3Of w) (opcodeOf w) = w := by
  apply BitVec.eq_of_getLsbD_eq
  intro k hk
  simp only [encodeSB, immSB, funct3Of, opcodeOf, BitVec.getLsbD_append, BitVec.getLsbD_extractLsb']
  interval_cases k <;> simp

theorem encodeUJ_fields (w : Word) : encodeUJ (immUJ w) (w.extractLsb' 7 5) (opcodeOf w) = w := by
  apply BitVec.eq_of_getLsbD_eq
  intro k hk
  simp only [encodeUJ, immUJ, opcodeOf, BitVec.getLsbD_append, BitVec.getLsbD_extractLsb']
  interval_cases k <;> simp

/-! ### Register numbers of an encoded word -/

theorem regBits_rdOf (w : Word) : regBits (rdOf w) = w.extractLsb' 7 5 := regBits_regOf _
theorem regBits_rs1Of (w : Word) : regBits (rs1Of w) = w.extractLsb' 15 5 := regBits_regOf _
theorem regBits_rs2Of (w : Word) : regBits (rs2Of w) = w.extractLsb' 20 5 := regBits_regOf _

theorem rdOf_encodeR (f7 : BitVec 7) (b2 b1 : BitVec 5) (f3 : BitVec 3) (d : RegIdx) (op : BitVec 7) :
    rdOf (encodeR f7 b2 b1 f3 (regBits d) op) = d := by rw [rdOf, rd_encodeR, regOf_regBits]
theorem rs1Of_encodeR (f7 : BitVec 7) (b2 : BitVec 5) (b1 : RegIdx) (f3 : BitVec 3) (d : BitVec 5) (op : BitVec 7) :
    rs1Of (encodeR f7 b2 (regBits b1) f3 d op) = b1 := by rw [rs1Of, rs1_encodeR, regOf_regBits]
theorem rs2Of_encodeR (f7 : BitVec 7) (b2 : RegIdx) (b1 : BitVec 5) (f3 : BitVec 3) (d : BitVec 5) (op : BitVec 7) :
    rs2Of (encodeR f7 (regBits b2) b1 f3 d op) = b2 := by rw [rs2Of, rs2_encodeR, regOf_regBits]
theorem rdOf_encodeI (imm : BitVec 12) (b1 : BitVec 5) (f3 : BitVec 3) (d : RegIdx) (op : BitVec 7) :
    rdOf (encodeI imm b1 f3 (regBits d) op) = d := by rw [rdOf, rd_encodeI, regOf_regBits]
theorem rs1Of_encodeI (imm : BitVec 12) (b1 : RegIdx) (f3 : BitVec 3) (d : BitVec 5) (op : BitVec 7) :
    rs1Of (encodeI imm (regBits b1) f3 d op) = b1 := by rw [rs1Of, rs1_encodeI, regOf_regBits]
theorem rs1Of_encodeS (imm : BitVec 12) (b2 : BitVec 5) (b1 : RegIdx) (f3 : BitVec 3) (op : BitVec 7) :
    rs1Of (encodeS imm b2 (regBits b1) f3 op) = b1 := by rw [rs1Of, rs1_encodeS, regOf_regBits]
theorem rs2Of_encodeS (imm : BitVec 12) (b2 : RegIdx) (b1 : BitVec 5) (f3 : BitVec 3) (op : BitVec 7) :
    rs2Of (encodeS imm (regBits b2) b1 f3 op) = b2 := by rw [rs2Of, rs2_encodeS, regOf_regBits]
theorem rs1Of_encodeSB (imm : BitVec 13) (b2 : BitVec 5) (b1 : RegIdx) (f3 : BitVec 3) (op : BitVec 7) :
    rs1Of (encodeSB imm b2 (regBits b1) f3 op) = b1 := by rw [rs1Of, rs1_encodeSB, regOf_regBits]
theorem rs2Of_encodeSB (imm : BitVec 13) (b2 : RegIdx) (b1 : BitVec 5) (f3 : BitVec 3) (op : BitVec 7) :
    rs2Of (encodeSB imm (regBits b2) b1 f3 op) = b2 := by rw [rs2Of, rs2_encodeSB, regOf_regBits]
theorem rdOf_encodeU (imm : BitVec 20) (d : RegIdx) (op : BitVec 7) :
    rdOf (encodeU imm (regBits d) op) = d := by rw [rdOf, rd_encodeU, regOf_regBits]
theorem rdOf_encodeUJ (imm : BitVec 21) (d : RegIdx) (op : BitVec 7) :
    rdOf (encodeUJ imm (regBits d) op) = d := by rw [rdOf, rd_encodeUJ, regOf_regBits]


/-- The I immediate of a format R word: the shift forms of OP-IMM use it (42_immediate_alu.md R112). -/
theorem immI_encodeR (f7 : BitVec 7) (b2 b1 : BitVec 5) (f3 : BitVec 3) (d : BitVec 5) (op : BitVec 7) :
    immI (encodeR f7 b2 b1 f3 d op) = f7 ++ b2 := by
  unfold immI
  rw [← slice_join (encodeR f7 b2 b1 f3 d op) 20 5 7, rs2_encodeR]
  exact congrArg (· ++ b2) (funct7Of_encodeR ..)

/-! ### The decoder -/

/-- A word with a nonzero opcode field is not the sentinel. -/
theorem decode_of_opcode {w : Word} (h : opcodeOf w ≠ 0) : decode w = decodeNonzero w := by
  have : w ≠ 0 := by rintro rfl; exact h rfl
  rw [decode, if_neg this]

/-- An accepted row is the row. -/
theorem listed_ok {w : Word} {o : Option Instr} {i : Instr} (h : listed w o = .ok i) : o = some i := by
  cases o <;> simp_all [listed]

/-- An accepted word is an instruction's, and not the sentinel's. -/
theorem decode_of_accepted {w : Word} (h : accepted w = true) : ∃ i, decode w = .ok i ∧ i ≠ .sentinel := by
  unfold accepted at h
  cases hd : decode w with
  | error e => simp [hd] at h
  | ok i => simp [hd] at h; exact ⟨i, rfl, h⟩

end Sys2Proof
end

