-- ==== Sys2Proof/Laws/Memory.lean ====
section
/-! SUPPORT. Every memory operation keeps the canonical form, and what one byte reads after each. -/

namespace Sys2Proof.Machine

/-! ### One byte -/

/-- Below the first address a canonical memory may list, every byte reads zero. -/
theorem Memory.readByte_below {m : Memory} {low k : Nat} (h : m.wfFrom low = true) (hk : k < low) :
    m.readByte k = 0 := by
  induction m generalizing low with
  | nil => rfl
  | cons c rest ih =>
    obtain ⟨a, b⟩ := c
    simp only [Memory.wfFrom, Bool.and_eq_true, decide_eq_true_eq] at h
    have ha : k ≠ a := by omega
    simp only [Memory.readByte, if_neg ha]
    exact ih h.2 (by omega)

/-- The canonical form is kept when the bound is lowered. -/
theorem Memory.wfFrom_mono {m : Memory} {low low' : Nat} (h : m.wfFrom low = true) (hl : low' ≤ low) :
    m.wfFrom low' = true := by
  cases m with
  | nil => rfl
  | cons c rest =>
    obtain ⟨a, b⟩ := c
    simp only [Memory.wfFrom, Bool.and_eq_true, decide_eq_true_eq] at h ⊢
    exact ⟨⟨⟨by omega, h.1.1.2⟩, h.1.2⟩, h.2⟩

theorem Memory.wfFrom_consByte {m : Memory} {low k : Nat} {v : Byte} (hl : low ≤ k) (hk : k < addressSpace)
    (h : m.wfFrom (k + 1) = true) : (Memory.consByte k v m).wfFrom low = true := by
  unfold Memory.consByte
  split
  · exact Memory.wfFrom_mono h (by omega)
  · rename_i hv
    have hv' : ¬v = 0#8 := hv
    simp [Memory.wfFrom, hl, hk, h, hv']

theorem Memory.wfFrom_writeByte {m : Memory} {low k : Nat} {v : Byte} (hl : low ≤ k) (hk : k < addressSpace)
    (h : m.wfFrom low = true) : (m.writeByte k v).wfFrom low = true := by
  induction m generalizing low with
  | nil => exact Memory.wfFrom_consByte hl hk rfl
  | cons c rest ih =>
    obtain ⟨a, b⟩ := c
    have h' := h
    simp only [Memory.wfFrom, Bool.and_eq_true, decide_eq_true_eq] at h'
    obtain ⟨⟨⟨hla, ha⟩, hb⟩, hrest⟩ := h'
    unfold Memory.writeByte
    split
    · refine Memory.wfFrom_consByte hl hk ?_
      simp only [Memory.wfFrom, Bool.and_eq_true, decide_eq_true_eq]
      exact ⟨⟨⟨by omega, ha⟩, hb⟩, hrest⟩
    · split
      · rename_i e
        subst e
        exact Memory.wfFrom_consByte hl hk hrest
      · simp only [Memory.wfFrom, Bool.and_eq_true, decide_eq_true_eq]
        exact ⟨⟨⟨hla, ha⟩, hb⟩, ih (by omega) hrest⟩

/-- Writing a byte of the address space keeps the canonical form. -/
theorem Memory.wf_writeByte {m : Memory} {k : Nat} {v : Byte} (hk : k < addressSpace) (h : m.wf = true) :
    (m.writeByte k v).wf = true :=
  Memory.wfFrom_writeByte (Nat.zero_le k) hk h

theorem Memory.readByte_consByte {m : Memory} {k j : Nat} {v : Byte} (h : m.wfFrom (k + 1) = true) :
    (Memory.consByte k v m).readByte j = if j = k then v else m.readByte j := by
  unfold Memory.consByte
  split
  · rename_i hv
    split
    · rename_i e
      rw [e, Memory.readByte_below h (Nat.lt_succ_self k), hv]
    · rfl
  · simp [Memory.readByte]

/-- A byte read after a byte write (in a canonical memory). -/
theorem Memory.readByte_writeByte_from {m : Memory} {low k j : Nat} {v : Byte} (h : m.wfFrom low = true) :
    (m.writeByte k v).readByte j = if j = k then v else m.readByte j := by
  induction m generalizing low with
  | nil =>
    unfold Memory.writeByte
    exact Memory.readByte_consByte rfl
  | cons c rest ih =>
    obtain ⟨a, b⟩ := c
    have h' := h
    simp only [Memory.wfFrom, Bool.and_eq_true, decide_eq_true_eq] at h'
    obtain ⟨⟨⟨_, ha⟩, hb⟩, hrest⟩ := h'
    unfold Memory.writeByte
    split
    · refine Memory.readByte_consByte ?_
      simp only [Memory.wfFrom, Bool.and_eq_true, decide_eq_true_eq]
      exact ⟨⟨⟨by omega, ha⟩, hb⟩, hrest⟩
    · split
      · rename_i e
        subst e
        rw [Memory.readByte_consByte hrest]
        by_cases hj : j = k <;> simp [Memory.readByte, hj]
      · rename_i hne
        simp only [Memory.readByte]
        by_cases hj : j = a
        · have : j ≠ k := by omega
          simp [hj, Ne.symm hne]
        · simp [hj, ih hrest]

/-- A byte read after a byte write: the written byte at its address, the old byte elsewhere. -/
theorem Memory.readByte_writeByte {m : Memory} {k j : Nat} {v : Byte} (h : m.wf = true) :
    (m.writeByte k v).readByte j = if j = k then v else m.readByte j :=
  Memory.readByte_writeByte_from h

/-! ### Little-endian runs of bytes -/

/-- A run of bytes written inside the address space keeps the canonical form. -/
theorem Memory.wf_writeLE {m : Memory} {a n : Nat} {v : Word} (ha : a + n ≤ addressSpace) (h : m.wf = true) :
    (m.writeLE a n v).wf = true := by
  induction n generalizing m a v with
  | zero => exact h
  | succ n ih => exact ih (by omega) (Memory.wf_writeByte (by omega) h)

/-- One byte after a run of bytes is written: byte `j - a` of the value inside the run, the old byte outside. -/
theorem Memory.readByte_writeLE {m : Memory} {a n j : Nat} {v : Word} (ha : a + n ≤ addressSpace)
    (h : m.wf = true) :
    (m.writeLE a n v).readByte j =
      if a ≤ j ∧ j < a + n then (v >>> (8 * (j - a))).setWidth 8 else m.readByte j := by
  induction n generalizing m a v with
  | zero =>
    have : ¬(a ≤ j ∧ j < a + 0) := by omega
    rw [if_neg this, Memory.writeLE]
  | succ n ih =>
    have hstep := Memory.wf_writeByte (m := m) (k := a) (v := v.setWidth 8) (by omega) h
    rw [Memory.writeLE, ih (by omega) hstep, Memory.readByte_writeByte h]
    by_cases h1 : a + 1 ≤ j ∧ j < a + 1 + n
    · have h2 : a ≤ j ∧ j < a + (n + 1) := by omega
      rw [if_pos h1, if_pos h2, ← BitVec.shiftRight_add]
      congr 2
      omega
    · rw [if_neg h1]
      by_cases h3 : j = a
      · subst h3
        simp
      · have h4 : ¬(a ≤ j ∧ j < a + (n + 1)) := by omega
        rw [if_neg h3, if_neg h4]

/-- Reading a run depends on its bytes only. -/
theorem Memory.readLE_congr {m m' : Memory} {a n : Nat}
    (h : ∀ k, k < n → m.readByte (a + k) = m'.readByte (a + k)) : m.readLE a n = m'.readLE a n := by
  induction n generalizing a with
  | zero => rfl
  | succ n ih =>
    have h0 := h 0 (by omega)
    simp only [Nat.add_zero] at h0
    have hrest := ih (a := a + 1) fun k hk => by
      have := h (k + 1) (by omega)
      simpa [Nat.add_assoc, Nat.add_comm 1 k] using this
    simp [Memory.readLE, h0, hrest]

/-! ### MemRead and MemWrite -/

/-- `MemRead` answers in range and raises AccessOutOfRange out of it. -/
theorem memRead_ok {m : Memory} {addr : Word} {size : AccessSize} (h : inRange addr size = true) :
    memRead m addr size = .ok (m.readLE addr.toNat size.bytes) := by simp [memRead, h]

theorem memRead_eq_ok {m : Memory} {addr r : Word} {size : AccessSize} (h : memRead m addr size = .ok r) :
    inRange addr size = true ∧ r = m.readLE addr.toNat size.bytes := by
  unfold memRead at h
  split at h
  · rename_i hr; exact ⟨hr, by cases h; rfl⟩
  · cases h

theorem memRead_eq_error {m : Memory} {addr : Word} {size : AccessSize} {f : Fault}
    (h : memRead m addr size = .error f) : inRange addr size = false ∧ f = .accessOutOfRange addr size := by
  unfold memRead at h
  split at h
  · cases h
  · rename_i hr; exact ⟨by simpa using hr, by cases h; rfl⟩

/-- `MemWrite` answers in range and raises AccessOutOfRange out of it. -/
theorem memWrite_ok {m : Memory} {addr v : Word} {size : AccessSize} (h : inRange addr size = true) :
    memWrite m addr size v = .ok (m.writeLE addr.toNat size.bytes v) := by simp [memWrite, h]

theorem memWrite_eq_ok {m m' : Memory} {addr v : Word} {size : AccessSize} (h : memWrite m addr size v = .ok m') :
    inRange addr size = true ∧ m' = m.writeLE addr.toNat size.bytes v := by
  unfold memWrite at h
  split at h
  · rename_i hr; exact ⟨hr, by cases h; rfl⟩
  · cases h

theorem memWrite_eq_error {m : Memory} {addr v : Word} {size : AccessSize} {f : Fault}
    (h : memWrite m addr size v = .error f) : inRange addr size = false ∧ f = .accessOutOfRange addr size := by
  unfold memWrite at h
  split at h
  · cases h
  · rename_i hr; exact ⟨by simpa using hr, by cases h; rfl⟩

/-- `MemWrite` keeps the canonical form. -/
theorem memWrite_wf {m m' : Memory} {addr v : Word} {size : AccessSize} (h : m.wf = true)
    (hw : memWrite m addr size v = .ok m') : m'.wf = true := by
  obtain ⟨hr, rfl⟩ := memWrite_eq_ok hw
  exact Memory.wf_writeLE (by simpa [inRange] using hr) h

/-! ### Ranges, and equality of canonical memories -/

theorem inRange_iff {a : Word} {size : AccessSize} : inRange a size = true ↔ a.toNat + size.bytes ≤ 4294967296 := by
  unfold inRange addressSpace; exact decide_eq_true_iff
theorem inRange_false {a : Word} {size : AccessSize} : inRange a size =
    false ↔ 4294967296 < a.toNat + size.bytes := by
  rw [← not_iff_not, Bool.not_eq_false, inRange_iff]; omega

/-- Canonical memories that read alike are equal data. -/
theorem Memory.eq_of_readByte_from {low : Nat} {m m' : Memory} (h : m.wfFrom low = true)
    (h' : m'.wfFrom low = true) (he : ∀ a, m.readByte a = m'.readByte a) : m = m' := by
  induction m generalizing m' low with
  | nil =>
    cases m' with
    | nil => rfl
    | cons c r =>
      obtain ⟨a, b⟩ := c
      simp only [Memory.wfFrom, Bool.and_eq_true] at h'
      have := he a
      simp [Memory.readByte] at this
      simp [← this] at h'
  | cons c r ih =>
    obtain ⟨a, b⟩ := c
    simp only [Memory.wfFrom, Bool.and_eq_true, decide_eq_true_eq, bne_iff_ne] at h
    obtain ⟨⟨⟨h1, h2⟩, h3⟩, h4⟩ := h
    cases m' with
    | nil =>
      have := he a
      simp [Memory.readByte] at this
      exact absurd this h3
    | cons c' r' =>
      obtain ⟨a', b'⟩ := c'
      simp only [Memory.wfFrom, Bool.and_eq_true, decide_eq_true_eq, bne_iff_ne] at h'
      obtain ⟨⟨⟨h1', h2'⟩, h3'⟩, h4'⟩ := h'
      have haa : a = a' := by
        rcases Nat.lt_trichotomy a a' with hlt | rfl | hlt
        · have := he a
          simp [Memory.readByte, Nat.ne_of_lt hlt] at this
          rw [Memory.readByte_below h4' (by omega)] at this
          exact absurd this h3
        · rfl
        · have := he a'
          simp [Memory.readByte, Nat.ne_of_lt hlt] at this
          rw [Memory.readByte_below h4 (by omega)] at this
          exact absurd this.symm h3'
      subst haa
      have hb := he a
      simp [Memory.readByte] at hb
      subst hb
      congr 1
      refine ih h4 h4' fun k => ?_
      by_cases hk : k = a
      · subst hk
        rw [Memory.readByte_below h4 (by omega), Memory.readByte_below h4' (by omega)]
      · have := he k
        simpa [Memory.readByte, hk] using this

theorem Memory.eq_of_readByte {m m' : Memory} (h : m.wf = true) (h' : m'.wf = true)
    (he : ∀ a, m.readByte a = m'.readByte a) : m = m' :=
  Memory.eq_of_readByte_from h h' he

/-! ### The host's writes -/

theorem Memory.wf_writeWords {m : Memory} {a : Nat} {ws : List Word} (ha : a + 4 * ws.length ≤ addressSpace)
    (h : m.wf = true) : (m.writeWords a ws).wf = true := by
  induction ws generalizing m a with
  | nil => exact h
  | cons w ws ih =>
    simp only [List.length_cons] at ha
    exact ih (by omega) (Memory.wf_writeLE (by omega) h)

theorem Memory.wf_writeBytes {m : Memory} {a : Nat} {bs : List Byte} (ha : a + bs.length ≤ addressSpace)
    (h : m.wf = true) : (m.writeBytes a bs).wf = true := by
  induction bs generalizing m a with
  | nil => exact h
  | cons b bs ih =>
    simp only [List.length_cons] at ha
    exact ih (by omega) (Memory.wf_writeByte (by omega) h)

end Sys2Proof.Machine
end

