-- ==== Sys2Proof/Laws/State.lean ====
section
/-! SUPPORT. One lemma per field per state update, and what the derived reads see of each update. -/

namespace Sys2Proof.Machine

/-! ### setAlu -/

@[simp] theorem State.setAlu_params (s : State) (r : Word) : (s.setAlu r).params = s.params := rfl
@[simp] theorem State.setAlu_fsm (s : State) (r : Word) : (s.setAlu r).fsm = s.fsm := rfl
@[simp] theorem State.setAlu_pc (s : State) (r : Word) : (s.setAlu r).pc = s.pc := rfl
@[simp] theorem State.setAlu_ir (s : State) (r : Word) : (s.setAlu r).ir = s.ir := rfl
@[simp] theorem State.setAlu_x (s : State) (r : Word) : (s.setAlu r).x = s.x := rfl
@[simp] theorem State.setAlu_aluOut (s : State) (r : Word) : (s.setAlu r).aluOut = r := rfl
@[simp] theorem State.setAlu_aluZero (s : State) (r : Word) : (s.setAlu r).aluZero = zeroFlag r := rfl
@[simp] theorem State.setAlu_memReadData (s : State) (r : Word) : (s.setAlu r).memReadData = s.memReadData := rfl
@[simp] theorem State.setAlu_stop (s : State) (r : Word) : (s.setAlu r).stop = s.stop := rfl
@[simp] theorem State.setAlu_started (s : State) (r : Word) : (s.setAlu r).started = s.started := rfl
@[simp] theorem State.setAlu_mem (s : State) (r : Word) : (s.setAlu r).mem = s.mem := rfl
@[simp] theorem State.setAlu_written (s : State) (r : Word) : (s.setAlu r).written = s.written := rfl
@[simp] theorem State.setAlu_readReg (s : State) (r : Word) (q : RegIdx) : (s.setAlu r).readReg q = s.readReg q := rfl
@[simp] theorem State.setAlu_pc4 (s : State) (r : Word) : (s.setAlu r).pc4 = s.pc4 := rfl
@[simp] theorem State.setAlu_fetchAddr (s : State) (r : Word) : (s.setAlu r).fetchAddr = s.fetchAddr := rfl
@[simp] theorem State.setAlu_fetchTraps (s : State) (r : Word) : (s.setAlu r).fetchTraps = s.fetchTraps := rfl
@[simp] theorem State.setAlu_reread (s : State) (r : Word) : (s.setAlu r).reread = s.reread := rfl

/-! ### retire -/

@[simp] theorem State.retire_params (s : State) (p : Word) : (s.retire p).params = s.params := rfl
@[simp] theorem State.retire_fsm (s : State) (p : Word) : (s.retire p).fsm = .fetch := rfl
@[simp] theorem State.retire_pc (s : State) (p : Word) : (s.retire p).pc = p := rfl
@[simp] theorem State.retire_ir (s : State) (p : Word) : (s.retire p).ir = s.ir := rfl
@[simp] theorem State.retire_x (s : State) (p : Word) : (s.retire p).x = s.x := rfl
@[simp] theorem State.retire_aluOut (s : State) (p : Word) : (s.retire p).aluOut = s.aluOut := rfl
@[simp] theorem State.retire_aluZero (s : State) (p : Word) : (s.retire p).aluZero = s.aluZero := rfl
@[simp] theorem State.retire_memReadData (s : State) (p : Word) : (s.retire p).memReadData = s.reread := rfl
@[simp] theorem State.retire_stop (s : State) (p : Word) : (s.retire p).stop = s.stop := rfl
@[simp] theorem State.retire_started (s : State) (p : Word) : (s.retire p).started = s.started := rfl
@[simp] theorem State.retire_mem (s : State) (p : Word) : (s.retire p).mem = s.mem := rfl
@[simp] theorem State.retire_written (s : State) (p : Word) : (s.retire p).written = s.written := rfl
@[simp] theorem State.retire_readReg (s : State) (p : Word) (q : RegIdx) : (s.retire p).readReg q = s.readReg q := rfl

/-! ### latch -/

@[simp] theorem State.latch_params (s : State) (w : Word) : (s.latch w).params = s.params := rfl
@[simp] theorem State.latch_fsm (s : State) (w : Word) : (s.latch w).fsm = s.fsm := rfl
@[simp] theorem State.latch_pc (s : State) (w : Word) : (s.latch w).pc = s.pc := rfl
@[simp] theorem State.latch_ir (s : State) (w : Word) : (s.latch w).ir = w := rfl
@[simp] theorem State.latch_x (s : State) (w : Word) : (s.latch w).x = s.x := rfl
@[simp] theorem State.latch_aluOut (s : State) (w : Word) : (s.latch w).aluOut = s.aluOut := rfl
@[simp] theorem State.latch_aluZero (s : State) (w : Word) : (s.latch w).aluZero = s.aluZero := rfl
@[simp] theorem State.latch_memReadData (s : State) (w : Word) : (s.latch w).memReadData = w := rfl
@[simp] theorem State.latch_stop (s : State) (w : Word) : (s.latch w).stop = s.stop := rfl
@[simp] theorem State.latch_started (s : State) (w : Word) : (s.latch w).started = true := rfl
@[simp] theorem State.latch_mem (s : State) (w : Word) : (s.latch w).mem = s.mem := rfl
@[simp] theorem State.latch_written (s : State) (w : Word) : (s.latch w).written = s.written := rfl
@[simp] theorem State.latch_readReg (s : State) (w : Word) (q : RegIdx) : (s.latch w).readReg q = s.readReg q := rfl
@[simp] theorem State.latch_pc4 (s : State) (w : Word) : (s.latch w).pc4 = s.pc4 := rfl
@[simp] theorem State.latch_fetchAddr (s : State) (w : Word) : (s.latch w).fetchAddr = s.fetchAddr := rfl
@[simp] theorem State.latch_fetchTraps (s : State) (w : Word) : (s.latch w).fetchTraps = s.fetchTraps := rfl

/-! ### raiseStop -/

@[simp] theorem State.raiseStop_params (s : State) (f : FsmState) (r : Stop) : (s.raiseStop f r).params = s.params := rfl
@[simp] theorem State.raiseStop_fsm (s : State) (f : FsmState) (r : Stop) : (s.raiseStop f r).fsm = f := rfl
@[simp] theorem State.raiseStop_pc (s : State) (f : FsmState) (r : Stop) : (s.raiseStop f r).pc = s.pc := rfl
@[simp] theorem State.raiseStop_ir (s : State) (f : FsmState) (r : Stop) : (s.raiseStop f r).ir = s.ir := rfl
@[simp] theorem State.raiseStop_x (s : State) (f : FsmState) (r : Stop) : (s.raiseStop f r).x = s.x := rfl
@[simp] theorem State.raiseStop_aluOut (s : State) (f : FsmState) (r : Stop) : (s.raiseStop f r).aluOut = s.aluOut := rfl
@[simp] theorem State.raiseStop_aluZero (s : State) (f : FsmState) (r : Stop) : (s.raiseStop f r).aluZero = s.aluZero := rfl
@[simp] theorem State.raiseStop_memReadData (s : State) (f : FsmState) (r : Stop) : (s.raiseStop f r).memReadData = s.memReadData := rfl
@[simp] theorem State.raiseStop_stop (s : State) (f : FsmState) (r : Stop) : (s.raiseStop f r).stop = r := rfl
@[simp] theorem State.raiseStop_started (s : State) (f : FsmState) (r : Stop) : (s.raiseStop f r).started = s.started := rfl
@[simp] theorem State.raiseStop_mem (s : State) (f : FsmState) (r : Stop) : (s.raiseStop f r).mem = s.mem := rfl
@[simp] theorem State.raiseStop_written (s : State) (f : FsmState) (r : Stop) : (s.raiseStop f r).written = s.written := rfl
@[simp] theorem State.raiseStop_readReg (s : State) (f : FsmState) (r : Stop) (q : RegIdx) : (s.raiseStop f r).readReg q = s.readReg q := rfl
@[simp] theorem State.raiseStop_pc4 (s : State) (f : FsmState) (r : Stop) : (s.raiseStop f r).pc4 = s.pc4 := rfl
@[simp] theorem State.raiseStop_fetchAddr (s : State) (f : FsmState) (r : Stop) : (s.raiseStop f r).fetchAddr = s.fetchAddr := rfl
@[simp] theorem State.raiseStop_fetchTraps (s : State) (f : FsmState) (r : Stop) : (s.raiseStop f r).fetchTraps = s.fetchTraps := rfl

/-! ### raiseInMemory -/

@[simp] theorem State.raiseInMemory_params (s : State) (f : Fault) : (s.raiseInMemory f).params = s.params := rfl
@[simp] theorem State.raiseInMemory_fsm (s : State) (f : Fault) : (s.raiseInMemory f).fsm = .memory := rfl
@[simp] theorem State.raiseInMemory_pc (s : State) (f : Fault) : (s.raiseInMemory f).pc = s.pc := rfl
@[simp] theorem State.raiseInMemory_ir (s : State) (f : Fault) : (s.raiseInMemory f).ir = s.ir := rfl
@[simp] theorem State.raiseInMemory_x (s : State) (f : Fault) : (s.raiseInMemory f).x = s.x := rfl
@[simp] theorem State.raiseInMemory_aluOut (s : State) (f : Fault) : (s.raiseInMemory f).aluOut = s.aluOut := rfl
@[simp] theorem State.raiseInMemory_aluZero (s : State) (f : Fault) : (s.raiseInMemory f).aluZero = s.aluZero := rfl
@[simp] theorem State.raiseInMemory_memReadData (s : State) (f : Fault) : (s.raiseInMemory f).memReadData = s.reread := rfl
@[simp] theorem State.raiseInMemory_stop (s : State) (f : Fault) : (s.raiseInMemory f).stop = .fault f := rfl
@[simp] theorem State.raiseInMemory_started (s : State) (f : Fault) : (s.raiseInMemory f).started = s.started := rfl
@[simp] theorem State.raiseInMemory_mem (s : State) (f : Fault) : (s.raiseInMemory f).mem = s.mem := rfl
@[simp] theorem State.raiseInMemory_written (s : State) (f : Fault) : (s.raiseInMemory f).written = s.written := rfl
@[simp] theorem State.raiseInMemory_readReg (s : State) (f : Fault) (q : RegIdx) : (s.raiseInMemory f).readReg q = s.readReg q := rfl
@[simp] theorem State.raiseInMemory_pc4 (s : State) (f : Fault) : (s.raiseInMemory f).pc4 = s.pc4 := rfl
@[simp] theorem State.raiseInMemory_fetchAddr (s : State) (f : Fault) : (s.raiseInMemory f).fetchAddr = s.fetchAddr := rfl
@[simp] theorem State.raiseInMemory_fetchTraps (s : State) (f : Fault) : (s.raiseInMemory f).fetchTraps = s.fetchTraps := rfl

/-! ### stored -/

@[simp] theorem State.stored_params (s : State) (m : Memory) (a : Word) (z : AccessSize) : (s.stored m a z).params = s.params := rfl
@[simp] theorem State.stored_fsm (s : State) (m : Memory) (a : Word) (z : AccessSize) : (s.stored m a z).fsm = s.fsm := rfl
@[simp] theorem State.stored_pc (s : State) (m : Memory) (a : Word) (z : AccessSize) : (s.stored m a z).pc = s.pc := rfl
@[simp] theorem State.stored_ir (s : State) (m : Memory) (a : Word) (z : AccessSize) : (s.stored m a z).ir = s.ir := rfl
@[simp] theorem State.stored_x (s : State) (m : Memory) (a : Word) (z : AccessSize) : (s.stored m a z).x = s.x := rfl
@[simp] theorem State.stored_aluOut (s : State) (m : Memory) (a : Word) (z : AccessSize) : (s.stored m a z).aluOut = s.aluOut := rfl
@[simp] theorem State.stored_aluZero (s : State) (m : Memory) (a : Word) (z : AccessSize) : (s.stored m a z).aluZero = s.aluZero := rfl
@[simp] theorem State.stored_memReadData (s : State) (m : Memory) (a : Word) (z : AccessSize) : (s.stored m a z).memReadData = s.memReadData := rfl
@[simp] theorem State.stored_stop (s : State) (m : Memory) (a : Word) (z : AccessSize) : (s.stored m a z).stop = s.stop := rfl
@[simp] theorem State.stored_started (s : State) (m : Memory) (a : Word) (z : AccessSize) : (s.stored m a z).started = s.started := rfl
@[simp] theorem State.stored_mem (s : State) (m : Memory) (a : Word) (z : AccessSize) : (s.stored m a z).mem = m := rfl
@[simp] theorem State.stored_written (s : State) (m : Memory) (a : Word) (z : AccessSize) : (s.stored m a z).written = s.written.mark a.toNat z.bytes := rfl
@[simp] theorem State.stored_pc4 (s : State) (m : Memory) (a : Word) (z : AccessSize) : (s.stored m a z).pc4 = s.pc4 := rfl
@[simp] theorem State.stored_fetchAddr (s : State) (m : Memory) (a : Word) (z : AccessSize) : (s.stored m a z).fetchAddr = s.fetchAddr := rfl
@[simp] theorem State.stored_fetchTraps (s : State) (m : Memory) (a : Word) (z : AccessSize) : (s.stored m a z).fetchTraps = s.fetchTraps := rfl
@[simp] theorem State.stored_readReg (s : State) (m : Memory) (a : Word) (z : AccessSize) (q : RegIdx) : (s.stored m a z).readReg q = s.readReg q := rfl

/-! ### writeReg -/

@[simp] theorem State.writeReg_params (s : State) (r : RegIdx) (v : Word) : (s.writeReg r v).params = s.params := by
  unfold State.writeReg; split <;> rfl
@[simp] theorem State.writeReg_fsm (s : State) (r : RegIdx) (v : Word) : (s.writeReg r v).fsm = s.fsm := by
  unfold State.writeReg; split <;> rfl
@[simp] theorem State.writeReg_pc (s : State) (r : RegIdx) (v : Word) : (s.writeReg r v).pc = s.pc := by
  unfold State.writeReg; split <;> rfl
@[simp] theorem State.writeReg_ir (s : State) (r : RegIdx) (v : Word) : (s.writeReg r v).ir = s.ir := by
  unfold State.writeReg; split <;> rfl
@[simp] theorem State.writeReg_aluOut (s : State) (r : RegIdx) (v : Word) : (s.writeReg r v).aluOut = s.aluOut := by
  unfold State.writeReg; split <;> rfl
@[simp] theorem State.writeReg_aluZero (s : State) (r : RegIdx) (v : Word) : (s.writeReg r v).aluZero = s.aluZero := by
  unfold State.writeReg; split <;> rfl
@[simp] theorem State.writeReg_memReadData (s : State) (r : RegIdx) (v : Word) : (s.writeReg r v).memReadData = s.memReadData := by
  unfold State.writeReg; split <;> rfl
@[simp] theorem State.writeReg_stop (s : State) (r : RegIdx) (v : Word) : (s.writeReg r v).stop = s.stop := by
  unfold State.writeReg; split <;> rfl
@[simp] theorem State.writeReg_started (s : State) (r : RegIdx) (v : Word) : (s.writeReg r v).started = s.started := by
  unfold State.writeReg; split <;> rfl
@[simp] theorem State.writeReg_mem (s : State) (r : RegIdx) (v : Word) : (s.writeReg r v).mem = s.mem := by
  unfold State.writeReg; split <;> rfl
@[simp] theorem State.writeReg_written (s : State) (r : RegIdx) (v : Word) : (s.writeReg r v).written = s.written := by
  unfold State.writeReg; split <;> rfl
@[simp] theorem State.writeReg_pc4 (s : State) (r : RegIdx) (v : Word) : (s.writeReg r v).pc4 = s.pc4 := by
  unfold State.writeReg; split <;> rfl
@[simp] theorem State.writeReg_fetchAddr (s : State) (r : RegIdx) (v : Word) : (s.writeReg r v).fetchAddr = s.fetchAddr := by
  unfold State.writeReg; split <;> rfl
@[simp] theorem State.writeReg_fetchTraps (s : State) (r : RegIdx) (v : Word) : (s.writeReg r v).fetchTraps = s.fetchTraps := by
  unfold State.writeReg; split <;> rfl
@[simp] theorem State.writeReg_reread (s : State) (r : RegIdx) (v : Word) : (s.writeReg r v).reread = s.reread := by
  unfold State.writeReg; split <;> rfl

/-- Register 0 reads zero. -/
@[simp] theorem State.readReg_zero (s : State) : s.readReg 0 = 0 := by simp [State.readReg]

/-- A write to register 0 is discarded. -/
@[simp] theorem State.writeReg_zero (s : State) (v : Word) : s.writeReg 0 v = s := by simp [State.writeReg]

/-- What a register reads after a register write. -/
theorem State.readReg_writeReg (s : State) (r q : RegIdx) (v : Word) :
    (s.writeReg r v).readReg q = if q = r ∧ q ≠ 0 then v else s.readReg q := by
  unfold State.writeReg State.readReg
  by_cases hr : r = 0
  · subst hr
    by_cases hq : q = 0 <;> simp [hq]
  · by_cases hq : q = 0
    · simp [hq]
    · by_cases h : q = r
      · subst h; simp [hr]
      · have h' : r.val ≠ q.val := fun e => h (Fin.ext e.symm)
        simp [hq, hr, h, Vector.getElem_set_ne, h']

/-- The storage slot of register 0 is never written. -/
@[simp] theorem State.writeReg_slot_zero (s : State) (r : RegIdx) (v : Word) : (s.writeReg r v).x[0] = s.x[0] := by
  unfold State.writeReg
  split
  · rfl
  · rename_i h
    have h' : r.val ≠ 0 := fun e => h (Fin.ext e)
    simp [Vector.getElem_set_ne, h']

end Sys2Proof.Machine
end

