-- ==== Sys2Proof/Laws/Exec.lean ====
section
/-! SUPPORT. What each shared end of an instruction can do, said once. -/

namespace Sys2Proof.Machine

/-- The value `reread` leaves is the word at the fetch address. -/
theorem State.reread_eq {s : State} {w : Word} (h : memRead s.mem s.fetchAddr .word = .ok w) : s.reread = w := by
  simp [State.reread, h]

theorem wroteReg_writeReg {s t : State} (rd : RegIdx) (v : Word) (h : SameRegs s t) :
    WroteReg s (t.writeReg rd v) rd v := by
  intro r
  rw [State.readReg_writeReg, h r]

/-- An ALU instruction completes: `rd` and the ALU take the result. -/
theorem State.finishAlu_spec (s : State) (rd : RegIdx) (r : Word) :
    ∃ t, s.finishAlu rd r = .next t ∧ Finished s t (s.pc + 4) ∧ WroteReg s t rd r ∧ SameBytes s t ∧
      AluWrote t r := by
  refine ⟨_, rfl, ⟨by simp [State.pc4], by simp, by simp, ⟨by simp, by simp, by simp⟩, ?_⟩, ?_, ?_, ?_⟩
  · intro w hw
    simp only [State.writeReg_mem, State.retire_mem, State.setAlu_mem] at hw
    simp [State.reread_eq hw]
  · exact wroteReg_writeReg rd r fun q => rfl
  · intro a; simp
  · exact ⟨by simp, by simp [zeroFlag]⟩

/-- A branch completes: only `pc` and the ALU change. -/
theorem State.finishBranch_spec (s : State) (r : Word) (taken : Bool) (offset : BitVec 13) :
    ∃ t, s.finishBranch r taken offset = .next t ∧
      Finished s t (if taken then s.pc + branchOffset offset else s.pc + 4) ∧ SameRegs s t ∧ SameBytes s t ∧
      AluWrote t r := by
  refine ⟨_, rfl, ⟨rfl, rfl, rfl, ⟨rfl, rfl, rfl⟩, ?_⟩, fun _ => rfl, fun _ => rfl, rfl, rfl⟩
  intro w hw
  exact State.reread_eq hw

/-- A jump completes: `rd` takes PC4 and `pc` the target. -/
theorem State.finishJump_spec (s : State) (rd : RegIdx) (target : Word) :
    ∃ t, s.finishJump rd target = .next t ∧ Finished s t target ∧ WroteReg s t rd (s.pc + 4) ∧ SameBytes s t ∧
      AluWrote t target := by
  refine ⟨_, rfl, ⟨by simp, by simp, by simp, ⟨by simp, by simp, by simp⟩, ?_⟩, ?_, ?_, ?_⟩
  · intro w hw
    simp only [State.writeReg_mem, State.retire_mem, State.setAlu_mem] at hw
    simp [State.reread_eq hw]
  · exact wroteReg_writeReg rd (s.pc + 4) fun q => rfl
  · intro a; simp
  · exact ⟨by simp, by simp [zeroFlag]⟩

/-- LUI completes: `rd` takes the immediate and the ALU is kept. -/
theorem execLui_spec (s : State) (rd : RegIdx) (imm : BitVec 20) :
    ∃ t, execLui rd imm s = .next t ∧ Finished s t (s.pc + 4) ∧ WroteReg s t rd (upperImm imm) ∧ SameBytes s t ∧
      AluKept s t := by
  refine ⟨_, rfl, ⟨by simp [State.pc4], by simp, by simp, ⟨by simp, by simp, by simp⟩, ?_⟩, ?_, ?_, ?_⟩
  · intro w hw
    simp only [State.writeReg_mem, State.retire_mem] at hw
    simp [State.reread_eq hw]
  · exact wroteReg_writeReg rd (upperImm imm) fun q => rfl
  · intro a; simp
  · exact ⟨by simp, by simp⟩

/-- A MEMORY stop, from the state EXECUTE left. -/
theorem State.raiseInMemory_spec (s : State) (f : Fault) (ea : Word) :
    StoppedInMemory s ((s.setAlu ea).raiseInMemory f) f ea where
  stop := rfl
  fsm := rfl
  pc := rfl
  regs := fun _ => rfl
  bytes := fun _ => rfl
  alu := ⟨rfl, rfl⟩
  kept := ⟨rfl, rfl, rfl⟩
  reread := fun _ hw => State.reread_eq hw

/-- A data access that neither check turns away reads its bytes. -/
theorem State.loadData_ok {s : State} {addr : Word} {size : AccessSize} (ht : s.accessTraps addr size = false)
    (hr : inRange addr size = true) : s.loadData addr size = .ok (s.mem.readLE addr.toNat size.bytes) := by
  simp [State.loadData, ht, memRead_ok hr]

theorem State.storeData_ok {s : State} {addr v : Word} {size : AccessSize} (ht : s.accessTraps addr size = false)
    (hr : inRange addr size = true) :
    s.storeData addr size v = .ok (s.mem.writeLE addr.toNat size.bytes v) := by
  simp [State.storeData, ht, memWrite_ok hr]

/-- A load completes where its access is admitted. -/
theorem State.doLoad_completes (s : State) (size : AccessSize) (e : Extension) (rd rs1 : RegIdx) (imm : BitVec 12)
    (ht : s.accessTraps (s.effectiveAddress rs1 imm) size = false)
    (hr : inRange (s.effectiveAddress rs1 imm) size = true) :
    ∃ t, s.doLoad size e rd rs1 imm = .next t ∧ Finished s t (s.pc + 4) ∧
      WroteReg s t rd (extendRead size e (s.mem.readLE (s.effectiveAddress rs1 imm).toNat size.bytes)) ∧
      SameBytes s t ∧ AluWrote t (s.effectiveAddress rs1 imm) := by
  unfold State.doLoad
  rw [State.loadData_ok ht hr]
  refine ⟨_, rfl, ⟨by simp [State.pc4], by simp, by simp, ⟨by simp, by simp, by simp⟩, ?_⟩, ?_, ?_, ?_⟩
  · intro w hw
    simp only [State.writeReg_mem, State.retire_mem, State.setAlu_mem] at hw
    simp [State.reread_eq hw]
  · exact wroteReg_writeReg rd _ fun q => rfl
  · intro a; simp
  · exact ⟨by simp, by simp [zeroFlag]⟩

/-- A store completes where its access is admitted. -/
theorem State.doStore_completes (s : State) (size : AccessSize) (rs2 rs1 : RegIdx) (imm : BitVec 12)
    (hm : s.MemOk) (ht : s.accessTraps (s.effectiveAddress rs1 imm) size = false)
    (hr : inRange (s.effectiveAddress rs1 imm) size = true) :
    ∃ t, s.doStore size rs2 rs1 imm = .next t ∧ Finished s t (s.pc + 4) ∧ SameRegs s t ∧
      StoredBytes s t (s.effectiveAddress rs1 imm).toNat size.bytes (s.readReg rs2) ∧
      AluWrote t (s.effectiveAddress rs1 imm) := by
  unfold State.doStore
  rw [State.storeData_ok ht hr]
  refine ⟨_, rfl, ⟨rfl, rfl, rfl, ⟨rfl, rfl, rfl⟩, ?_⟩, fun _ => rfl, ?_, rfl, rfl⟩
  · intro w hw
    exact State.reread_eq hw
  · intro a
    exact Memory.readByte_writeLE (by simpa [inRange] using hr) hm

/-- Every stop a load takes. -/
theorem State.doLoad_stops (s : State) (size : AccessSize) (e : Extension) (rd rs1 : RegIdx) (imm : BitVec 12)
    {f : Fault} (h : s.loadData (s.effectiveAddress rs1 imm) size = .error f) :
    ∃ t, s.doLoad size e rd rs1 imm = .next t ∧ StoppedInMemory s t f (s.effectiveAddress rs1 imm) := by
  unfold State.doLoad
  rw [h]
  exact ⟨_, rfl, State.raiseInMemory_spec s f _⟩

/-- Every stop a store takes. -/
theorem State.doStore_stops (s : State) (size : AccessSize) (rs2 rs1 : RegIdx) (imm : BitVec 12) {f : Fault}
    (h : s.storeData (s.effectiveAddress rs1 imm) size (s.readReg rs2) = .error f) :
    ∃ t, s.doStore size rs2 rs1 imm = .next t ∧ StoppedInMemory s t f (s.effectiveAddress rs1 imm) := by
  unfold State.doStore
  rw [h]
  exact ⟨_, rfl, State.raiseInMemory_spec s f _⟩

/-- What an access's checks come to, for a load. -/
theorem State.loadData_cases (s : State) (addr : Word) (size : AccessSize) :
    s.loadData addr size =
      if s.accessTraps addr size then .error (.misalignedAccess addr size)
      else if inRange addr size then .ok (s.mem.readLE addr.toNat size.bytes)
      else .error (.accessOutOfRange addr size) := rfl

/-- What an access's checks come to, for a store. -/
theorem State.storeData_cases (s : State) (addr v : Word) (size : AccessSize) :
    s.storeData addr size v =
      if s.accessTraps addr size then .error (.misalignedAccess addr size)
      else if inRange addr size then .ok (s.mem.writeLE addr.toNat size.bytes v)
      else .error (.accessOutOfRange addr size) := rfl

/-! ### Operand forms -/

theorem shiftAmount_eq (b : Word) : shiftAmount b = b.toNat % 32 := by
  simp [shiftAmount, BitVec.extractLsb'_toNat]

theorem lessSigned_eq (a b : Word) : lessSigned a b = if a.toInt < b.toInt then 1 else 0 := by
  simp [lessSigned, boolWord]
theorem lessUnsigned_eq (a b : Word) : lessUnsigned a b = if a.toNat < b.toNat then 1 else 0 := by
  simp [lessUnsigned, boolWord]

theorem upperImm_eq (imm : BitVec 20) : upperImm imm = (imm.setWidth 32) <<< 12 := by
  apply BitVec.eq_of_getLsbD_eq
  intro k hk
  simp only [upperImm, BitVec.getLsbD_append, BitVec.getLsbD_shiftLeft, BitVec.getLsbD_setWidth]
  by_cases h : k < 12
  · simp [h]
  · have : k - 12 < 32 := by omega
    simp [h, hk, this]

theorem accessTraps_byte (s : State) (a : Word) : s.accessTraps a .byte = false := by
  simp [State.accessTraps, aligned, AccessSize.bytes, Nat.mod_one]
theorem inRange_byte (a : Word) : inRange a .byte = true := by
  rw [inRange_iff]; simp only [AccessSize.bytes]; omega
theorem accessTraps_iff (s : State) (a : Word) (size : AccessSize) :
    s.accessTraps a size = true ↔ s.params.misalignedDataTrap = true ∧ a.toNat % size.bytes ≠ 0 := by
  simp [State.accessTraps, aligned]

theorem pcMisaligned_iff (pc : Word) : pcMisaligned pc = true ↔ pc.toNat % 4 ≠ 0 := by
  unfold pcMisaligned
  rw [bne_iff_ne, ne_eq, ← BitVec.toNat_inj, BitVec.extractLsb'_toNat]
  simp

end Sys2Proof.Machine
end

