-- ==== Sys2Proof/Laws/Cycle.lean ====
section
/-! SUPPORT. What one cycle can do, what each FSM state's cycle leaves, and ticks. -/

namespace Sys2Proof.Machine

/-! ### What one cycle can do, said once -/

/-- Everything one cycle can do. -/
theorem cycle_cases (s : State) :
    (∃ r, r ≠ .none ∧ cycle s = s.raiseStop s.fsm r) ∨
    (s.fsm = .decode ∧ ∃ r, r ≠ .none ∧ cycle s = { s with ir := s.memReadData }.raiseStop .decode r) ∨
    ∃ c imm ram, s.control = some c ∧ s.earlyStop c = none ∧ immOf s.ir = some imm ∧
      s.ramCycle c (s.signals c imm) = .ok ram ∧ cycle s = s.commit c (s.signals c imm) ram := by
  unfold cycle
  cases hc : s.control with
  | none => exact .inl ⟨_, by simp, rfl⟩
  | some c =>
    simp only
    cases he : s.earlyStop c with
    | some t =>
      simp only
      unfold State.earlyStop at he
      have hd : c.loadInstr = true → s.fsm = .decode := by
        intro h
        unfold State.control at hc
        cases hf : s.fsm <;> simp only [hf] at hc
        · cases hc; cases h
        · rfl
        · unfold executeControl at hc
          cases hl : lookup aluSetupTable (opcodeOf s.ir) <;> simp [hl] at hc
          rw [← hc] at h; cases h
        · unfold memoryControl at hc
          cases hl : lookup memTable (opcodeOf s.ir) <;> simp [hl] at hc
          rw [← hc] at h; cases h
        · unfold writebackControl at hc
          split at hc
          · cases hc; cases h
          · cases hc
      split at he
      · cases he; exact .inl ⟨_, by simp, rfl⟩
      · split at he
        · rename_i h
          simp only [Bool.and_eq_true] at h
          cases he
          rw [hd h.1]
          exact .inr (.inl ⟨rfl, _, by simp, rfl⟩)
        · split at he
          · rename_i h
            simp only [Bool.and_eq_true] at h
            cases he
            rw [hd h.1]
            exact .inr (.inl ⟨rfl, _, by simp, rfl⟩)
          · cases he
    | none =>
      simp only
      unfold State.transfer
      cases hi : immOf s.ir with
      | none => exact .inl ⟨_, by simp, rfl⟩
      | some imm =>
        simp only
        cases hr : s.ramCycle c (s.signals c imm) with
        | error f => exact .inl ⟨_, by simp, rfl⟩
        | ok ram => exact .inr (.inr ⟨c, imm, ram, rfl, he, rfl, hr, rfl⟩)

/-- What a RAM cycle that raises nothing does to memory: nothing, or one `MemWrite`, whose bytes then count as
written. -/
theorem ramCycle_mem {s : State} {c : Control} {g : Signals} {ram : RamResult} (h : s.ramCycle c g = .ok ram) :
    (ram.mem = s.mem ∧ ram.written = s.written) ∨ ∃ size, c.memWrite = true ∧
      memWrite s.mem g.memAddress size g.readData2 = .ok ram.mem ∧
      ram.written = s.written.mark g.memAddress.toNat size.bytes := by
  have rr : ∀ {m : Memory} {wr : Written} {size : AccessSize} {u : Bool} {a : Word},
      ramRead m wr size u a = .ok ram → ram.mem = m ∧ ram.written = wr := by
    intro m wr size u a h
    unfold ramRead at h
    split at h <;> cases h
    exact ⟨rfl, rfl⟩
  unfold State.ramCycle at h
  split at h
  · cases h
  · rename_i size hs
    split at h
    · cases h
    · split at h
      · rename_i hw
        split at h
        · cases h
        · rename_i m hm
          exact .inr ⟨size, hw, (rr h).1 ▸ hm, (rr h).2⟩
      · exact .inl (rr h)

theorem aluCycle_shape (s : State) (c : Control) (g : Signals) :
    (c.aluCalc = false ∧ s.aluCycle c g = s) ∨ (c.aluCalc = true ∧
      s.aluCycle c g = s.setAlu (alu c.aluOp c.aluAlt g.aluIn1 g.aluIn2)) := by
  unfold State.aluCycle; cases c.aluCalc <;> simp

theorem commit_fields (s : State) (c : Control) (g : Signals) (ram : RamResult) :
    (s.commit c g ram).params = s.params ∧ (s.commit c g ram).fsm = s.fsm.succ ∧ (s.commit c g ram).mem = ram.mem ∧
    (s.commit c g ram).stop = s.stop ∧ (s.commit c g ram).started = s.started ∧
      (s.commit c g ram).memReadData = ram.data ∧
    (s.commit c g ram).pc = (if c.loadPC then g.pcIn else s.pc) ∧
      (s.commit c g ram).ir = (if c.loadInstr then g.memReadData else s.ir) ∧
    (s.commit c g ram).aluOut = (s.aluCycle c g).aluOut ∧ (s.commit c g ram).aluZero = (s.aluCycle c g).aluZero ∧
    (s.commit c g ram).x = ((s.aluCycle c g).regCycle c g).x ∧ (s.commit c g ram).written = ram.written := by
  have e : ∀ s : State, (s.regCycle c g).params = s.params ∧ (s.regCycle c g).fsm = s.fsm ∧
      (s.regCycle c g).stop = s.stop ∧ (s.regCycle c g).started = s.started ∧ (s.regCycle c g).pc = s.pc ∧
      (s.regCycle c g).ir = s.ir ∧ (s.regCycle c g).aluOut = s.aluOut ∧ (s.regCycle c g).aluZero = s.aluZero := by
    intro s; unfold State.regCycle; split <;> simp
  obtain ⟨h1, h2, h3, h4, h5, h6, h7, h8⟩ := e (s.aluCycle c g)
  have a : (s.aluCycle c g).params = s.params ∧ (s.aluCycle c g).fsm = s.fsm ∧ (s.aluCycle c g).stop = s.stop ∧
      (s.aluCycle c g).started = s.started ∧ (s.aluCycle c g).pc = s.pc ∧ (s.aluCycle c g).ir = s.ir := by
    unfold State.aluCycle; split <;> simp
  obtain ⟨a1, a2, a3, a4, a5, a6⟩ := a
  refine ⟨h1.trans a1, ?_, rfl, h3.trans a3, h4.trans a4, rfl, ?_, ?_, h7, h8, rfl, rfl⟩
  · exact congrArg FsmState.succ (h2.trans a2)
  · show (if c.loadPC then g.pcIn else ((s.aluCycle c g).regCycle c g).pc) = _
    rw [h5, a5]
  · show (if c.loadInstr then g.memReadData else ((s.aluCycle c g).regCycle c g).ir) = _
    rw [h6, a6]

/-- Which control signals each state can assert. -/
theorem control_cases {s : State} {c : Control} (h : s.control = some c) :
    (s.fsm = .fetch ∧ c = Control.defaults) ∨ (s.fsm = .decode ∧ c = { Control.defaults with loadInstr := true }) ∨
    (s.fsm = .execute ∧ executeControl s.ir = some c ∧ c.loadInstr = false ∧ c.memWrite = false ∧
      c.regWrite = false ∧ c.loadPC = false ∧ c.memAddrMuxSrc = .pc ∧ c.memSize = 0b10) ∨
    (s.fsm = .memory ∧ memoryControl s.ir = some c ∧ c.loadInstr = false ∧ c.aluCalc = false ∧
      c.regWrite = false ∧ c.loadPC = false) ∨
    (s.fsm = .writeback ∧ writebackControl s.ir = some c ∧ c.loadInstr = false ∧ c.memWrite = false ∧
      c.aluCalc = false ∧ c.loadPC = true ∧ c.memAddrMuxSrc = .pc ∧ c.memSize = 0b10) := by
  unfold State.control at h
  cases hf : s.fsm <;> simp only [hf] at h
  · cases h; exact .inl ⟨rfl, rfl⟩
  · cases h; exact .inr (.inl ⟨rfl, rfl⟩)
  · refine .inr (.inr (.inl ⟨rfl, h, ?_⟩))
    unfold executeControl at h
    cases hl : lookup aluSetupTable (opcodeOf s.ir) <;> simp [hl] at h
    rw [← h]; simp [Control.defaults]
  · refine .inr (.inr (.inr (.inl ⟨rfl, h, ?_⟩)))
    unfold memoryControl at h
    cases hl : lookup memTable (opcodeOf s.ir) <;> simp [hl] at h
    rw [← h]; simp [Control.defaults]
  · refine .inr (.inr (.inr (.inr ⟨rfl, h, ?_⟩)))
    unfold writebackControl at h
    split at h
    · cases h; simp [Control.defaults]
    · cases h

/-! ### The cycle of each FSM state -/

/-- FETCH of a word that is there. -/
theorem cycle_fetch {s : State} {imm w : Word} (hf : s.fsm = .fetch) (hi : immOf s.ir = some imm)
    (ht : s.fetchTraps = false) (hw : memRead s.mem s.fetchAddr .word = .ok w) :
    cycle s = { s with memReadData := w, fsm := .decode } := by
  simp [cycle, State.control, hf, State.earlyStop, ht, State.transfer, hi, Control.defaults, State.ramCycle,
    lookup, memSizeTable, matchesPattern, State.signals, memAddrMux, ramRead, hw, State.commit, State.aluCycle,
    State.regCycle, FsmState.succ, ramExtend, extendRead]

theorem cycle_fetch_traps {s : State} (hf : s.fsm = .fetch) (ht : s.fetchTraps = true) :
    cycle s = s.raiseStop .fetch (.fault (.misalignedFetch s.pc)) := by
  simp [cycle, State.control, hf, State.earlyStop, ht]

theorem cycle_fetch_error {s : State} {imm : Word} {f : Fault} (hf : s.fsm = .fetch) (hi : immOf s.ir = some imm)
    (ht : s.fetchTraps = false) (hw : memRead s.mem s.fetchAddr .word = .error f) :
    cycle s = s.raiseStop .fetch (.fault f) := by
  simp [cycle, State.control, hf, State.earlyStop, ht, State.transfer, hi, Control.defaults, State.ramCycle,
    lookup, memSizeTable, matchesPattern, State.signals, memAddrMux, ramRead, hw]

theorem cycle_decode {s : State} {imm w : Word} (hf : s.fsm = .decode) (hi : immOf s.ir = some imm)
    (ha : accepted s.memReadData = true) (hw : memRead s.mem s.fetchAddr .word = .ok w) :
    cycle s = { s with ir := s.memReadData, memReadData := w, fsm := .execute } := by
  have h0 : (s.memReadData == 0) = false := by
    cases h : s.memReadData == 0 with
    | false => rfl
    | true =>
      have : s.memReadData = 0 := by simpa using h
      rw [this] at ha; exact absurd ha (by decide)
  have h0' : ¬ s.memReadData = 0#32 := by simpa using h0
  simp [cycle, State.control, hf, State.earlyStop, ha, h0', State.transfer, hi, Control.defaults, State.ramCycle,
    lookup, memSizeTable, matchesPattern, State.signals, memAddrMux, ramRead, hw, State.commit, State.aluCycle,
    State.regCycle, FsmState.succ, ramExtend, extendRead]

theorem cycle_decode_zero {s : State} (hf : s.fsm = .decode) (h0 : s.memReadData = 0) :
    cycle s = { s with ir := 0 }.raiseStop .decode .endOfProgram := by
  have h0' : s.memReadData = 0#32 := h0
  simp [cycle, State.control, hf, State.earlyStop, h0', Control.defaults]

theorem cycle_decode_undefined {s : State} (hf : s.fsm = .decode) (h0 : s.memReadData ≠ 0)
    (ha : accepted s.memReadData = false) :
    cycle s = { s with ir := s.memReadData }.raiseStop .decode (.fault (.undefinedDecode s.memReadData)) := by
  have h0' : ¬ s.memReadData = 0#32 := h0
  simp [cycle, State.control, hf, State.earlyStop, h0', ha, Control.defaults]

theorem cycle_execute {s : State} {c : Control} {imm w : Word} (hf : s.fsm = .execute) (hi : immOf s.ir = some imm)
    (hc : executeControl s.ir = some c)
    (hw : memRead s.mem s.fetchAddr .word = .ok w) :
    cycle s = { (s.aluCycle c (s.signals c imm)) with memReadData := w, fsm := .memory } := by
  unfold executeControl at hc
  cases hl : lookup aluSetupTable (opcodeOf s.ir) with
  | none => simp [hl] at hc
  | some row =>
    simp only [hl, Option.map_some, Option.some.injEq] at hc
    subst hc
    simp [cycle, State.control, hf, executeControl, hl, State.earlyStop, State.transfer, hi, Control.defaults,
      State.ramCycle,
      lookup, memSizeTable, matchesPattern, State.signals, memAddrMux, ramRead, hw, State.commit,
      State.regCycle, FsmState.succ, ramExtend, extendRead]
    unfold State.aluCycle
    split <;> simp [hf]

theorem cycle_memory_idle {s : State} {imm w : Word} (hf : s.fsm = .memory) (hi : immOf s.ir = some imm)
    (hc : memoryControl s.ir = some Control.defaults) (hw : memRead s.mem s.fetchAddr .word = .ok w) :
    cycle s = { s with memReadData := w, fsm := .writeback } := by
  simp [cycle, State.control, hf, hc, State.earlyStop, State.transfer, hi, Control.defaults, State.ramCycle,
    lookup, memSizeTable, matchesPattern, State.signals, memAddrMux, ramRead, hw, State.commit, State.aluCycle,
    State.regCycle, FsmState.succ, ramExtend, extendRead]

theorem cycle_memory_read {s : State} {imm : Word} {sz : BitVec 2} {u : Bool} {size : AccessSize} (hf :
    s.fsm = .memory) (hi : immOf s.ir = some imm)
    (hc : memoryControl s.ir = some { Control.defaults with memAddrMuxSrc := .aluOut, memSize := sz, memUnsigned := u })
    (hs : lookup memSizeTable sz = some size) :
    cycle s = match s.loadData s.aluOut size with
      | .error f => s.raiseStop .memory (.fault f)
      | .ok r => { s with memReadData := ramExtend size u r, fsm := .writeback } := by
  simp [cycle, State.control, hf, hc, State.earlyStop, State.transfer, hi, Control.defaults, State.ramCycle,
    hs, State.signals, memAddrMux, State.loadData, State.accessTraps]
  by_cases ht : s.params.misalignedDataTrap = true ∧ aligned s.aluOut size = false
  · simp [ht]
  · simp only [ht, if_false, ramRead]
    cases memRead s.mem s.aluOut size <;> simp [State.commit, State.aluCycle, State.regCycle, FsmState.succ, hf]

theorem cycle_memory_write {s : State} {imm : Word} {sz : BitVec 2} {u : Bool} {size : AccessSize} (hf :
    s.fsm = .memory) (hi : immOf s.ir = some imm)
    (hc : memoryControl s.ir = some { Control.defaults with memWrite := true, memAddrMuxSrc := .aluOut, memSize := sz, memUnsigned := u })
    (hs : lookup memSizeTable sz = some size) :
    ∃ v, cycle s = match s.storeData s.aluOut size (s.readReg (rs2Of s.ir)) with
      | .error f => s.raiseStop .memory (.fault f)
      | .ok m => { s.stored m s.aluOut size with memReadData := v, fsm := .writeback } := by
  simp [cycle, State.control, hf, hc, State.earlyStop, State.transfer, hi, Control.defaults, State.ramCycle,
    hs, State.signals, memAddrMux, State.storeData, State.accessTraps]
  by_cases ht : s.params.misalignedDataTrap = true ∧ aligned s.aluOut size = false
  · simp [ht]
  · simp only [ht, if_false, ramRead]
    cases hr : inRange s.aluOut size with
    | true =>
      simp [memWrite, memRead, hr, State.commit, State.aluCycle, State.regCycle, FsmState.succ, hf]

    | false => simp [memWrite, hr]

theorem cycle_writeback {s : State} {c : Control} {imm w : Word} (hf : s.fsm = .writeback)
    (hi : immOf s.ir = some imm)
    (hc : writebackControl s.ir = some c) (hw : memRead s.mem s.fetchAddr .word = .ok w) :
    cycle s = { (s.regCycle c (s.signals c imm)) with
      pc := (s.signals c imm).pcIn, memReadData := w, fsm := .fetch } := by
  unfold writebackControl at hc
  cases hl : lookup writebackTable (opcodeOf s.ir) with
  | none => simp [hl] at hc
  | some row =>
    cases hj : lookup jumpTable (opcodeOf s.ir ++ funct3Of s.ir) with
    | none => simp [hl, hj] at hc
    | some j =>
      simp only [hl, hj, Option.some.injEq] at hc
      subst hc
      simp [cycle, State.control, hf, writebackControl, hl, hj, State.earlyStop, State.transfer, hi,
        Control.defaults, State.ramCycle,
        lookup, memSizeTable, matchesPattern, State.signals, memAddrMux, ramRead, hw, State.commit, State.aluCycle,
        ramExtend, extendRead]
      unfold State.regCycle
      split <;> simp [FsmState.succ, hf]
/-! ### Ticks -/

theorem tickState_running {s : State} (h : s.stop = .none) : tickState s = cycle { s with started := true } := by
  simp [tickState, h]

theorem ticks_stopped {s : State} (h : s.stop ≠ .none) (n : Nat) : ticks n s = s := by
  have h1 : tickState s = s := by
    unfold tickState; split <;> simp_all
  induction n with
  | zero => rfl
  | succ n ih => rw [ticks, h1, ih]

theorem ticks_succ (k : Nat) (s : State) : ticks (k + 1) s = ticks k (tickState s) := rfl

theorem ticks_add (a b : Nat) (s : State) : ticks (a + b) s = ticks b (ticks a s) := by
  induction a generalizing s with
  | zero => simp [ticks]
  | succ a ih => rw [show a + 1 + b = (a + b) + 1 by omega, ticks_succ, ticks_succ, ih]

theorem tickState_stopped {s : State} (h : ¬s.Running) : tickState s = s := ticks_stopped h 1

/-- What a tick of a running core leaves, by kind. -/
theorem tick_running_cases {s : State} (hr : s.Running) :
    (∃ r, r ≠ .none ∧ tickState s = ({ s with started := true } : State).raiseStop s.fsm r) ∨
    (s.fsm = .decode ∧ ∃ r, r ≠ .none ∧ tickState s = ({ s with started := true, ir := s.memReadData } :
      State).raiseStop .decode r) ∨
    ∃ c imm ram, s.control = some c ∧ s.earlyStop c = none ∧ immOf s.ir = some imm ∧
      ({ s with started := true } : State).ramCycle c (s.signals c imm) = .ok ram ∧
        tickState s = ({ s with started := true } : State).commit c (s.signals c imm) ram := by
  rw [tickState_running hr]
  rcases cycle_cases { s with started := true } with h | h | ⟨c, imm, ram, h1, h2, h3, h4, h5⟩
  · exact .inl h
  · exact .inr (.inl h)
  · refine .inr (.inr ⟨c, imm, ram, h1, ?_, h3, h4, h5⟩)
    unfold State.earlyStop at h2 ⊢
    split at h2
    · cases h2
    · rename_i hA
      split at h2
      · cases h2
      · rename_i hB
        split at h2
        · cases h2
        · rename_i hC
          exact (if_neg hA).trans ((if_neg hB).trans (if_neg hC))

theorem number_succ (f : FsmState) : f.succ.number = (f.number + 1) % 5 := by cases f <;> rfl

theorem running_before {s : State} {k : Nat} (h : (ticks k s).Running) : ∀ j, j ≤ k → (ticks j s).Running := by
  intro j hj
  by_contra hn
  have : ticks k s = ticks j s := by
    rw [show k = j + (k - j) by omega, ticks_add, ticks_stopped hn]
  rw [this] at h; exact hn h

/-! ### The storage behind register 0 -/

theorem State.commit_slot_zero (s : State) (c : Control) (g : Signals) (ram : RamResult) :
    (s.commit c g ram).x[0] = s.x[0] := by
  show ((s.aluCycle c g).regCycle c g).x[0] = s.x[0]
  have : ∀ t : State, (t.regCycle c g).x[0] = t.x[0] := by
    intro t; unfold State.regCycle; split
    · exact State.writeReg_slot_zero ..
    · rfl
  rw [this]
  unfold State.aluCycle; split <;> rfl

end Sys2Proof.Machine
end

