-- ==== Sys2Proof/Laws/Host.lean ====
section
/-! SUPPORT. The host's writes of code words and register maps, byte by byte and register by register. -/

namespace Sys2Proof.Machine

theorem writeWords_byte (ws : List Word) : ∀ (m : Memory) (a : Nat), m.wf = true →
    a + 4 * ws.length ≤ addressSpace →
   (∀ (k : Nat) (h : k < ws.length) (j : Nat), j < 4 → (m.writeWords a ws).readByte (a + 4 * k + j) =
     (ws[k] >>> (8 * j)).setWidth 8) ∧
   (∀ b, b < a ∨ a + 4 * ws.length ≤ b → (m.writeWords a ws).readByte b = m.readByte b) := by
  induction ws with
  | nil => intro m a _ _; exact ⟨fun k h => absurd h (by simp), fun _ _ => rfl⟩
  | cons w ws ih =>
    intro m a hm ha
    simp only [List.length_cons] at ha
    have hm' : (m.writeLE a 4 w).wf = true := Memory.wf_writeLE (by omega) hm
    obtain ⟨i1, i2⟩ := ih (m.writeLE a 4 w) (a + 4) hm' (by omega)
    refine ⟨fun k h j hj => ?_, fun b hb => ?_⟩
    · cases k with
      | zero =>
        rw [Memory.writeWords, i2 _ (by omega), Memory.readByte_writeLE (by omega) hm, if_pos (by omega)]
        simp only [List.getElem_cons_zero]
        congr 3; omega
      | succ k =>
        have := i1 k (by simpa using h) j hj
        rw [Memory.writeWords, show a + 4 * (k + 1) + j = a + 4 + 4 * k + j by omega, this]
        simp
    · simp only [List.length_cons] at hb
      rw [Memory.writeWords, i2 _ (by omega), Memory.readByte_writeLE (by omega) hm, if_neg (by omega)]

theorem readLE_of_bytes {m : Memory} {a : Nat} {w : Word} (h : ∀ j, j < 4 →
    m.readByte (a + j) = (w >>> (8 * j)).setWidth 8) : m.readLE a 4 = w := by
  have r0 := h 0 (by omega); have r1 := h 1 (by omega); have r2 := h 2 (by omega); have r3 := h 3 (by omega)
  simp only [Memory.readLE, Nat.add_zero, Nat.add_assoc] at *
  rw [r0, r1, r2, r3]
  apply BitVec.eq_of_getLsbD_eq
  intro j hj
  interval_cases j <;> simp

theorem entryOk_iff {k v : Int} : entryOk k v = true ↔ 0 ≤ k ∧ k < 32 ∧ 0 ≤ v ∧ v < 4294967296 ∧
    (k = 0 → v = 0) := by
  simp [entryOk, and_assoc]
  intros
  tauto

theorem badEntry_none {map : List (Int × Int)} : badEntry map = none ↔ ∀ e ∈ map, entryOk e.1 e.2 = true := by
  induction map with
  | nil => simp [badEntry]
  | cons e r ih =>
    obtain ⟨k, v⟩ := e
    unfold badEntry
    split
    · rename_i h; rw [ih]; simp [h]
    · rename_i h; simp [h]

theorem keysDistinct_iff {map : List (Int × Int)} : keysDistinct map = true ↔ (map.map Prod.fst).Nodup := by
  induction map with
  | nil => simp [keysDistinct]
  | cons e r ih =>
    obtain ⟨k, v⟩ := e
    simp [keysDistinct, ih]
    intro _
    constructor
    · intro h x hx; exact h k x hx rfl
    · intro h a b hab he; subst he; exact h b hab

theorem setEntries_frame (map : List (Int × Int)) : ∀ s : State,
    setEntries map s = { s with x := (setEntries map s).x } := by
  induction map with
  | nil => intro s; rfl
  | cons e r ih =>
    intro s
    obtain ⟨k, v⟩ := e
    rw [setEntries, ih]
    generalize (setEntries r (s.writeReg (Fin.ofNat 32 k.toNat) (BitVec.ofInt 32 v))).x = y
    unfold State.writeReg
    split <;> rfl

theorem setEntries_other (map : List (Int × Int)) : ∀ (s : State) (r : RegIdx), (∀ e ∈ map, 0 ≤ e.1 ∧
    e.1 < 32) → (r.val : Int) ∉ map.map Prod.fst → (setEntries map s).readReg r = s.readReg r := by
  induction map with
  | nil => intro s r _ _; rfl
  | cons e t ih =>
    intro s r hk hr
    obtain ⟨k, v⟩ := e
    simp only [List.map_cons, List.mem_cons, not_or] at hr
    rw [setEntries, ih _ _ (fun e he => hk e (List.mem_cons_of_mem _ he)) hr.2, State.readReg_writeReg, if_neg]
    rintro ⟨h, -⟩
    apply hr.1
    have := hk (k, v) (List.mem_cons_self ..)
    rw [h]; simp [Fin.ofNat]; omega

theorem setEntries_mem (map : List (Int × Int)) : ∀ (s : State) (r : RegIdx)
    (v : Int), (∀ e ∈ map, entryOk e.1 e.2 = true) → (map.map Prod.fst).Nodup → ((r.val : Int), v) ∈ map →
    ((setEntries map s).readReg r).toNat = v.toNat := by
  induction map with
  | nil => intro s r v _ _ h; cases h
  | cons e t ih =>
    intro s r v hk hn hm
    obtain ⟨k, u⟩ := e
    simp only [List.map_cons, List.nodup_cons] at hn
    rcases List.mem_cons.mp hm with h | h
    · cases h
      have hok := entryOk_iff.mp (hk _ (List.mem_cons_self ..))
      rw [setEntries, setEntries_other t _ _ (fun e he => ⟨(entryOk_iff.mp (hk e (List.mem_cons_of_mem _ he))).1,
        (entryOk_iff.mp (hk e (List.mem_cons_of_mem _ he))).2.1⟩) hn.1, State.readReg_writeReg]
      simp only at hok
      have hr : (Fin.ofNat 32 ((r.val : Int).toNat) : RegIdx) = r := by apply Fin.ext; simp [Fin.ofNat]
      rw [hr]
      by_cases h0 : r = 0
      · subst h0
        have := hok.2.2.2.2 rfl
        simp [this]
      · rw [if_pos ⟨rfl, h0⟩]
        simp [BitVec.toNat_ofInt]; omega
    · exact ih _ r v (fun e he => hk e (List.mem_cons_of_mem _ he)) hn.2 h

/-! ### A refused call changes no state (60_exceptions.md R146), whichever error it reports (log 22) -/

theorem setCode_refused {ws : List Word} {s : State} (h : (setCode ws s).error ≠ none) :
    (setCode ws s).state = s := by
  unfold setCode at *
  split_ifs at * <;> simp_all

theorem placeData_refused {a : Word} {bs : List Byte} {s : State} (h : (placeData a bs s).error ≠ none) :
    (placeData a bs s).state = s := by
  unfold placeData at *
  split_ifs at * <;> simp_all

/-- All that `setRegisters` can answer: it is admitted, or it reports one error and changes nothing. -/
theorem setRegisters_cases (map : List (Int × Int)) (s : State) :
    (s.started = false ∧ badEntry map = none ∧ keysDistinct map = true ∧
      setRegisters map s = ⟨setEntries map s, none⟩) ∨
    ∃ e, setRegisters map s = ⟨s, some e⟩ := by
  unfold setRegisters
  split
  · exact .inr ⟨_, rfl⟩
  · split
    · exact .inr ⟨_, rfl⟩
    · split
      · exact .inl ⟨by simpa using ‹¬s.started = true›, ‹_›, ‹_›, rfl⟩
      · exact .inr ⟨_, rfl⟩

theorem setRegisters_refused {map : List (Int × Int)} {s : State} (h : (setRegisters map s).error ≠ none) :
    (setRegisters map s).state = s := by
  obtain ⟨-, -, -, e⟩ | ⟨e, e'⟩ := setRegisters_cases map s
  · simp [e] at h
  · rw [e']

/-! ### The bus of a stopped core (log 21) -/

/-- The bus does not depend on the stop: a stopped core's is computed from its frozen registers. -/
@[simp] theorem State.bus_stop (s : State) (r : Stop) : State.bus { s with stop := r } = s.bus := rfl

/-- A latch whose opcode has no immediate, the zero word's among them, leaves the bus empty. -/
theorem State.bus_none {s : State} (h : immOf s.ir = none) : s.bus = none := by
  unfold State.bus
  rw [h]
  split <;> simp_all

theorem State.bus_none_of_zero_latch {s : State} (h : s.ir = 0) : s.bus = none :=
  State.bus_none (by rw [h]; decide)

end Sys2Proof.Machine
end

