-- ==== Sys2Proof/Laws/PerInstr.lean ====
section
/-! SUPPORT. Per instruction: no instruction but the sentinel is encoded as the zero word, so the decoder's zero test turns none of them away (30_encoding.md R60). -/

namespace Sys2Proof.Laws.Nonzero

/-- The word of an instruction other than the sentinel is not zero. -/
def Statement (i : Instr) : Prop := i ≠ .sentinel → encode i ≠ 0

/-- A word whose opcode field is not zero is not zero. -/
theorem of_opcode {w : Word} {op : BitVec 7} (h : opcodeOf w = op) (h0 : op ≠ 0) : w ≠ 0 := by
  rintro rfl
  exact h0 h.symm

theorem lui (rd : RegIdx) (imm : BitVec 20) : Statement (.lui rd imm) :=
  fun _ => of_opcode (opcodeOf_encodeU ..) (by decide)
theorem auipc (rd : RegIdx) (imm : BitVec 20) : Statement (.auipc rd imm) :=
  fun _ => of_opcode (opcodeOf_encodeU ..) (by decide)
theorem jal (rd : RegIdx) (offset : BitVec 21) : Statement (.jal rd offset) :=
  fun _ => of_opcode (opcodeOf_encodeUJ ..) (by decide)
theorem jalr (rd rs1 : RegIdx) (imm : BitVec 12) : Statement (.jalr rd rs1 imm) :=
  fun _ => of_opcode (opcodeOf_encodeI ..) (by decide)
theorem beq (rs1 rs2 : RegIdx) (offset : BitVec 13) : Statement (.beq rs1 rs2 offset) :=
  fun _ => of_opcode (opcodeOf_encodeSB ..) (by decide)
theorem bne (rs1 rs2 : RegIdx) (offset : BitVec 13) : Statement (.bne rs1 rs2 offset) :=
  fun _ => of_opcode (opcodeOf_encodeSB ..) (by decide)
theorem blt (rs1 rs2 : RegIdx) (offset : BitVec 13) : Statement (.blt rs1 rs2 offset) :=
  fun _ => of_opcode (opcodeOf_encodeSB ..) (by decide)
theorem bge (rs1 rs2 : RegIdx) (offset : BitVec 13) : Statement (.bge rs1 rs2 offset) :=
  fun _ => of_opcode (opcodeOf_encodeSB ..) (by decide)
theorem bltu (rs1 rs2 : RegIdx) (offset : BitVec 13) : Statement (.bltu rs1 rs2 offset) :=
  fun _ => of_opcode (opcodeOf_encodeSB ..) (by decide)
theorem bgeu (rs1 rs2 : RegIdx) (offset : BitVec 13) : Statement (.bgeu rs1 rs2 offset) :=
  fun _ => of_opcode (opcodeOf_encodeSB ..) (by decide)
theorem lb (rd rs1 : RegIdx) (imm : BitVec 12) : Statement (.lb rd rs1 imm) :=
  fun _ => of_opcode (opcodeOf_encodeI ..) (by decide)
theorem lh (rd rs1 : RegIdx) (imm : BitVec 12) : Statement (.lh rd rs1 imm) :=
  fun _ => of_opcode (opcodeOf_encodeI ..) (by decide)
theorem lw (rd rs1 : RegIdx) (imm : BitVec 12) : Statement (.lw rd rs1 imm) :=
  fun _ => of_opcode (opcodeOf_encodeI ..) (by decide)
theorem lbu (rd rs1 : RegIdx) (imm : BitVec 12) : Statement (.lbu rd rs1 imm) :=
  fun _ => of_opcode (opcodeOf_encodeI ..) (by decide)
theorem lhu (rd rs1 : RegIdx) (imm : BitVec 12) : Statement (.lhu rd rs1 imm) :=
  fun _ => of_opcode (opcodeOf_encodeI ..) (by decide)
theorem sb (rs2 rs1 : RegIdx) (imm : BitVec 12) : Statement (.sb rs2 rs1 imm) :=
  fun _ => of_opcode (opcodeOf_encodeS ..) (by decide)
theorem sh (rs2 rs1 : RegIdx) (imm : BitVec 12) : Statement (.sh rs2 rs1 imm) :=
  fun _ => of_opcode (opcodeOf_encodeS ..) (by decide)
theorem sw (rs2 rs1 : RegIdx) (imm : BitVec 12) : Statement (.sw rs2 rs1 imm) :=
  fun _ => of_opcode (opcodeOf_encodeS ..) (by decide)
theorem addi (rd rs1 : RegIdx) (imm : BitVec 12) : Statement (.addi rd rs1 imm) :=
  fun _ => of_opcode (opcodeOf_encodeI ..) (by decide)
theorem slti (rd rs1 : RegIdx) (imm : BitVec 12) : Statement (.slti rd rs1 imm) :=
  fun _ => of_opcode (opcodeOf_encodeI ..) (by decide)
theorem sltiu (rd rs1 : RegIdx) (imm : BitVec 12) : Statement (.sltiu rd rs1 imm) :=
  fun _ => of_opcode (opcodeOf_encodeI ..) (by decide)
theorem xori (rd rs1 : RegIdx) (imm : BitVec 12) : Statement (.xori rd rs1 imm) :=
  fun _ => of_opcode (opcodeOf_encodeI ..) (by decide)
theorem ori (rd rs1 : RegIdx) (imm : BitVec 12) : Statement (.ori rd rs1 imm) :=
  fun _ => of_opcode (opcodeOf_encodeI ..) (by decide)
theorem andi (rd rs1 : RegIdx) (imm : BitVec 12) : Statement (.andi rd rs1 imm) :=
  fun _ => of_opcode (opcodeOf_encodeI ..) (by decide)
theorem slli (rd rs1 : RegIdx) (shamt : BitVec 5) : Statement (.slli rd rs1 shamt) :=
  fun _ => of_opcode (opcodeOf_encodeR ..) (by decide)
theorem srli (rd rs1 : RegIdx) (shamt : BitVec 5) : Statement (.srli rd rs1 shamt) :=
  fun _ => of_opcode (opcodeOf_encodeR ..) (by decide)
theorem srai (rd rs1 : RegIdx) (shamt : BitVec 5) : Statement (.srai rd rs1 shamt) :=
  fun _ => of_opcode (opcodeOf_encodeR ..) (by decide)
theorem add (rd rs1 rs2 : RegIdx) : Statement (.add rd rs1 rs2) :=
  fun _ => of_opcode (opcodeOf_encodeR ..) (by decide)
theorem sub (rd rs1 rs2 : RegIdx) : Statement (.sub rd rs1 rs2) :=
  fun _ => of_opcode (opcodeOf_encodeR ..) (by decide)
theorem sll (rd rs1 rs2 : RegIdx) : Statement (.sll rd rs1 rs2) :=
  fun _ => of_opcode (opcodeOf_encodeR ..) (by decide)
theorem slt (rd rs1 rs2 : RegIdx) : Statement (.slt rd rs1 rs2) :=
  fun _ => of_opcode (opcodeOf_encodeR ..) (by decide)
theorem sltu (rd rs1 rs2 : RegIdx) : Statement (.sltu rd rs1 rs2) :=
  fun _ => of_opcode (opcodeOf_encodeR ..) (by decide)
theorem xor (rd rs1 rs2 : RegIdx) : Statement (.xor rd rs1 rs2) :=
  fun _ => of_opcode (opcodeOf_encodeR ..) (by decide)
theorem srl (rd rs1 rs2 : RegIdx) : Statement (.srl rd rs1 rs2) :=
  fun _ => of_opcode (opcodeOf_encodeR ..) (by decide)
theorem sra (rd rs1 rs2 : RegIdx) : Statement (.sra rd rs1 rs2) :=
  fun _ => of_opcode (opcodeOf_encodeR ..) (by decide)
theorem or (rd rs1 rs2 : RegIdx) : Statement (.or rd rs1 rs2) :=
  fun _ => of_opcode (opcodeOf_encodeR ..) (by decide)
theorem and (rd rs1 rs2 : RegIdx) : Statement (.and rd rs1 rs2) :=
  fun _ => of_opcode (opcodeOf_encodeR ..) (by decide)
theorem sentinel : Statement .sentinel := fun h => absurd rfl h

end Sys2Proof.Laws.Nonzero
end

