-- ==== Sys2Proof/Laws/Step.lean ====
section
/-! SUPPORT. What a meaning, a fetch and a step can do, each said once. -/

namespace Sys2Proof.Machine

/-- The instruction went through its cycles, wrote at most one register, and left the ALU's two registers
together: computed, or both kept. -/
def EndsInRegister (s t : State) : Prop :=
  ∃ (rd : RegIdx) (v a p : Word) (z : Bool),
    t = State.writeReg { s with aluOut := a, aluZero := z, pc := p, memReadData := s.reread, fsm := .fetch } rd v ∧
    (z = (a == 0) ∨ a = s.aluOut ∧ z = s.aluZero)

/-- The instruction went through its cycles and made one `MemWrite`. -/
def EndsInStore (s t : State) : Prop :=
  ∃ (a v : Word) (size : AccessSize) (m : Memory), memWrite s.mem a size v = .ok m ∧
    t = { s with
      aluOut := a, aluZero := (a == 0), pc := s.pc + 4, mem := m, written := s.written.mark a.toNat size.bytes,
      memReadData := { s with mem := m }.reread, fsm := .fetch }

/-- The instruction's MEMORY cycle raised a fault. -/
def EndsInMemoryStop (s t : State) : Prop :=
  ∃ (a : Word) (f : Fault),
    t = { s with
      aluOut := a, aluZero := (a == 0), memReadData := s.reread, fsm := .memory, stop := .fault f }

theorem finishAlu_ends {s t : State} {rd : RegIdx} {r : Word} (h : s.finishAlu rd r = .next t) :
    EndsInRegister s t := by
  cases h; exact ⟨rd, r, r, _, _, rfl, .inl rfl⟩

theorem doLoad_ends {s t : State} {size : AccessSize} {e : Extension} {rd rs1 : RegIdx} {imm : BitVec 12}
    (h : s.doLoad size e rd rs1 imm = .next t) : EndsInRegister s t ∨ EndsInMemoryStop s t := by
  unfold State.doLoad at h
  split at h <;> cases h
  · exact .inr ⟨_, _, rfl⟩
  · exact .inl ⟨rd, _, _, _, _, rfl, .inl rfl⟩

theorem doStore_ends {s t : State} {size : AccessSize} {rs2 rs1 : RegIdx} {imm : BitVec 12}
    (h : s.doStore size rs2 rs1 imm = .next t) : EndsInStore s t ∨ EndsInMemoryStop s t := by
  unfold State.doStore at h
  split at h <;> cases h
  · exact .inr ⟨_, _, rfl⟩
  · rename_i m hm
    refine .inl ⟨s.effectiveAddress rs1 imm, s.readReg rs2, size, m, ?_, rfl⟩
    unfold State.storeData at hm
    split at hm
    · cases hm
    · exact hm

/-- Everything a meaning can do. -/
theorem exec_cases {i : Instr} {s t : State} (h : exec i s = .next t) :
    EndsInRegister s t ∨ (isStore i = true ∧ EndsInStore s t) ∨ EndsInMemoryStop s t ∨
    (i = .sentinel ∧
      t = { s with ir := 0, memReadData := 0, started := true, fsm := .decode, stop := .endOfProgram }) := by
  cases i
  case sentinel => cases h; exact .inr (.inr (.inr ⟨rfl, rfl⟩))
  case add | sub | sll | slt | sltu | xor | srl | sra | or | and => exact .inl (finishAlu_ends h)
  case addi | slti | sltiu | xori | ori | andi | slli | srli | srai | auipc => exact .inl (finishAlu_ends h)
  case lui rd imm => cases h; exact .inl ⟨rd, _, _, _, _, rfl, .inr ⟨rfl, rfl⟩⟩
  case jal | jalr => cases h; exact .inl ⟨_, _, _, _, _, rfl, .inl rfl⟩
  case beq | bne | blt | bge | bltu | bgeu =>
    cases h; exact .inl ⟨0, 0, _, _, _, (State.writeReg_zero _ _).symm, .inl rfl⟩
  case lb | lh | lw | lbu | lhu =>
    rcases doLoad_ends h with h | h
    · exact .inl h
    · exact .inr (.inr (.inl h))
  case sb | sh | sw =>
    rcases doStore_ends h with h | h
    · exact .inr (.inl ⟨rfl, h⟩)
    · exact .inr (.inr (.inl h))

/-- Everything a step can do. -/
theorem step_cases {s t : State} (h : step s = .next t) :
    (s.stop = .endOfProgram ∧ t = s) ∨ (s.stop = .none ∧ s.fsm ≠ .fetch ∧ ∃ n, t = ticks n s) ∨
    (s.stop = .none ∧ s.fsm = .fetch ∧ (s.fetchDecode = .stopped t ∨ ∃ i s', s.fetchDecode = .instr i s' ∧
      exec i s' = .next t)) := by
  unfold step at h
  split at h
  · cases h
  · rename_i hs; cases h; exact .inl ⟨hs, rfl⟩
  · rename_i hs
    split at h
    · rename_i hf
      split at h
      · rename_i hd; cases h; exact .inr (.inr ⟨hs, hf, .inl hd⟩)
      · rename_i hd; exact .inr (.inr ⟨hs, hf, .inr ⟨_, _, hd, h⟩⟩)
    all_goals
      rename_i hf
      cases h
      exact .inr (.inl ⟨hs, by simp [hf], _, rfl⟩)

/-- Everything a fetch and decode can do. -/
theorem fetchDecode_cases (s : State) :
    (∃ r, r ≠ .none ∧ s.fetchDecode = .stopped ({ s with started := true }.raiseStop .fetch r)) ∨
    (∃ w r, r ≠ .none ∧ s.fetchDecode = .stopped ((s.latch w).raiseStop .decode r)) ∨
    (∃ w i, s.fetchTraps = false ∧ memRead s.mem s.fetchAddr .word = .ok w ∧ decode w = .ok i ∧
      s.fetchDecode = .instr i (s.latch w)) := by
  unfold State.fetchDecode
  split
  · exact .inl ⟨_, by simp, rfl⟩
  · rename_i ht
    split
    · exact .inl ⟨_, by simp, rfl⟩
    · rename_i w hw
      unfold State.decodeFetched
      split
      · exact .inr (.inr ⟨w, _, by simpa using ht, hw, by assumption, rfl⟩)
      · exact .inr (.inl ⟨w, _, by simp, rfl⟩)

theorem step_fetch {s : State} (hr : s.Running) (hf : s.fsm = .fetch) : step s = match s.fetchDecode with
      | .stopped s' => .next s'
      | .instr i s' => exec i s' := by
  simp only [step, show s.stop = .none from hr, hf]
  try rfl

theorem fetchDecode_of_read {s : State} {w : Word} (ht : s.fetchTraps = false)
    (hw : memRead s.mem s.fetchAddr .word = .ok w) : s.fetchDecode = s.decodeFetched w := by
  unfold State.fetchDecode; rw [if_neg (by simp [ht]), hw]

/-- One step more of the host's run. -/
theorem coreRun_next (M : Host.Core) {s u : M.State} (n : Nat)
    (h : M.step s = .next u) : M.run (n + 1) s = M.run n u := by
  rw [Host.Core.run, h]
theorem coreRun_fault (M : Host.Core) {s : M.State} {f : M.Fault} (n : Nat)
    (h : M.step s = .fault f) : M.run (n + 1) s = .fault f := by
  rw [Host.Core.run, h]
theorem run_next {s u : State} (n : Nat) (h : core.step s = .next u) :
    core.run (n + 1) s = core.run n u := coreRun_next core n h
theorem run_fault {s : State} {f : Fault} (n : Nat) (h : core.step s = .fault f) :
    core.run (n + 1) s = .fault f := coreRun_fault core n h

end Sys2Proof.Machine
end

