-- ==== Sys2Proof/Laws/Ticks.lean ====
section
/-! SUPPORT. The five cycles of an accepted word, put together: no data access, a load, a store. -/

namespace Sys2Proof.Machine

/-- What EXECUTE leaves in the ALU. -/
def State.afterExecute (c : Control) (imm : Word) (s : State) : State :=
  if c.aluCalc then s.setAlu (alu c.aluOp c.aluAlt (aluSrcMux1 c.aluSrc1 (s.readReg (rs1Of s.ir)) s.pc)
    (aluSrcMux2 c.aluSrc2 (s.readReg (rs2Of s.ir)) imm)) else s

theorem State.afterExecute_shape (c : Control) (imm : Word) (s : State) :
    ∃ o z, State.afterExecute c imm s = { s with aluOut := o, aluZero := z } := by
  unfold State.afterExecute; split
  · exact ⟨_, _, rfl⟩
  · exact ⟨s.aluOut, s.aluZero, rfl⟩

/-- FETCH and DECODE of an accepted word. -/
theorem ticks_fetch_decode {s : State} {w : Word} (hr : s.stop = .none)
    (hf : s.fsm = .fetch) {imm0 : Word} (hl : immOf s.ir = some imm0)
    (ht : s.fetchTraps = false) (hw : memRead s.mem s.fetchAddr .word = .ok w) (ha : accepted w = true) (n : Nat) :
    ticks (n + 2) s = ticks n { s.latch w with fsm := .execute } := by
  have h1 : tickState s = { s with started := true, memReadData := w, fsm := .decode } := by
    rw [tickState_running hr, cycle_fetch (s := { s with started := true }) hf hl ht hw]
  have h2 : tickState { s with started := true, memReadData := w, fsm := .decode } =
      { s.latch w with fsm := .execute } := by
    rw [tickState_running (by exact hr), cycle_decode (s := { s with started := true, memReadData := w, fsm := .decode }) (imm := imm0) (w := w) rfl hl ha hw]
    rfl
  rw [ticks, h1, ticks, h2]

theorem tick_execute {L : State} {w imm : Word} {c : Control} (hr : L.stop = .none) (hst : L.started = true)
    (hw : memRead L.mem L.fetchAddr .word = .ok w) (hi : immOf L.ir = some imm)
      (hc : executeControl L.ir = some c) :
    tickState { L with fsm := .execute } = { State.afterExecute c imm L with memReadData := w, fsm := .memory } := by
  rw [tickState_running (by exact hr)]
  rw [cycle_execute (s := { L with fsm := .execute, started := true }) (c := c) (imm := imm) (w := w) rfl hi hc hw]
  unfold State.aluCycle State.afterExecute
  cases c.aluCalc
  · simp [hst]
  · simp [hst, State.signals, State.setAlu, State.readReg]

theorem tick_memory_idle {L : State} {w imm : Word} (hr : L.stop = .none) (hst : L.started = true)
    (hw : memRead L.mem L.fetchAddr .word = .ok w) (hi : immOf L.ir = some imm)
      (hm : memoryControl L.ir = some Control.defaults) :
    tickState { L with fsm := .memory } = { L with memReadData := w, fsm := .writeback } := by
  rw [tickState_running (by exact hr)]
  rw [cycle_memory_idle (s := { L with fsm := .memory, started := true }) (imm := imm) (w := w) rfl hi hm hw]
  simp [hst]

/-- What WRITEBACK leaves. -/
def State.afterWriteback (b : Control) (imm : Word) (s : State) : State :=
  if b.regWrite then s.writeReg (rdOf s.ir) (writeDataMux b.writeDataMuxSrc s.aluOut s.memReadData s.pc4 imm) else s

/-- The `pc` WRITEBACK loads. -/
def State.nextPc (b : Control) (imm : Word) (s : State) : Word :=
  pcSrcMux (if shouldBranch b.branchZero b.branchNotZero s.aluZero then .jumpControl else .pc4) s.pc4 (jumpBase b.jumpControlSrc s.pc (s.readReg (rs1Of s.ir)) + imm)

theorem tick_writeback {L : State} {w imm : Word} {b : Control} (hr : L.stop = .none) (hst : L.started = true)
    (hw : memRead L.mem L.fetchAddr .word = .ok w) (hi : immOf L.ir = some imm)
      (hb : writebackControl L.ir = some b) :
    tickState { L with fsm := .writeback } = { State.afterWriteback b imm L with pc := State.nextPc b imm L, memReadData := w, fsm := .fetch } := by
  rw [tickState_running (by exact hr)]
  rw [cycle_writeback (s := { L with fsm := .writeback, started := true }) (c := b) (imm := imm)
    (w := w) rfl hi hb hw]
  unfold State.regCycle State.afterWriteback State.nextPc
  cases b.regWrite
  · simp [hst, State.signals, State.pc4, State.readReg]
  · simp [State.signals, State.writeReg, State.pc4, State.readReg]
    split <;> simp [hst]

/-- The whole instruction, when MEMORY makes no access. -/
theorem ticks_five_idle {s : State} {w imm : Word} {c b : Control} (hr : s.stop = .none)
    (hf : s.fsm = .fetch) {imm0 : Word} (hl : immOf s.ir = some imm0)
    (ht : s.fetchTraps = false) (hw : memRead s.mem s.fetchAddr .word = .ok w) (ha : accepted w = true)
    (hi : immOf w = some imm) (hc : executeControl w = some c) (hm : memoryControl w = some Control.defaults)
    (hb : writebackControl w = some b) :
    ticks 5 s = { State.afterWriteback b imm (State.afterExecute c imm (s.latch w)) with
        pc := State.nextPc b imm (State.afterExecute c imm (s.latch w)), memReadData := w, fsm := .fetch } := by
  rw [ticks_fetch_decode hr hf hl ht hw ha 3, ticks, tick_execute (L := s.latch w) hr rfl hw hi hc, ticks]
  obtain ⟨o, z, hE⟩ := State.afterExecute_shape c imm (s.latch w)
  rw [hE]
  have e2 := tick_memory_idle (L := { s.latch w with aluOut := o, aluZero := z }) hr rfl hw hi hm
  have e3 := tick_writeback (L := { s.latch w with aluOut := o, aluZero := z }) hr rfl hw hi hb
  refine (congrArg (fun t => ticks 1 t) e2).trans e3
theorem ticks_five_load {s : State} {w imm : Word} {c b : Control} {sz : BitVec 2} {u : Bool} {size : AccessSize} (hr : s.stop = .none) (hf : s.fsm = .fetch) {imm0 : Word} (hl : immOf s.ir = some imm0)
    (ht : s.fetchTraps = false) (hw : memRead s.mem s.fetchAddr .word = .ok w) (ha : accepted w = true)
    (hi : immOf w = some imm) (hc : executeControl w = some c)
    (hm : memoryControl w = some { Control.defaults with memAddrMuxSrc := .aluOut, memSize := sz, memUnsigned := u })
    (hs : lookup memSizeTable sz = some size)
    (hb : writebackControl w = some b) :
    ticks 5 s = match s.loadData (State.afterExecute c imm (s.latch w)).aluOut size with
      | .error f => { State.afterExecute c imm (s.latch w) with fsm := .memory, stop := .fault f }
      | .ok r => { State.afterWriteback b imm { State.afterExecute c imm (s.latch w) with memReadData := ramExtend size u r } with
        pc := State.nextPc b imm { State.afterExecute c imm (s.latch w) with memReadData := ramExtend size u r },
          memReadData := w, fsm := .fetch } := by
  rw [ticks_fetch_decode hr hf hl ht hw ha 3, ticks, tick_execute (L := s.latch w) hr rfl hw hi hc, ticks]
  obtain ⟨o, z, hE⟩ := State.afterExecute_shape c imm (s.latch w)
  rw [hE]
  have e2 : tickState { s.latch w with aluOut := o, aluZero := z, fsm := .memory } =
      match s.loadData o size with
      | .error f => { s.latch w with aluOut := o, aluZero := z, fsm := .memory, stop := .fault f }
      | .ok r => { s.latch w with aluOut := o, aluZero := z, memReadData := ramExtend size u r, fsm := .writeback } := by
    rw [tickState_running (by exact hr)]
    rw [cycle_memory_read (s := { s.latch w with aluOut := o, aluZero := z, fsm := .memory, started := true })
      (imm := imm) (size := size) rfl hi hm hs]
    rw [show State.loadData { s.latch w with aluOut := o, aluZero := z, fsm := .memory, started := true } o size = s.loadData o size from rfl]
    cases s.loadData o size <;> rfl
  refine (congrArg (fun t => ticks 1 t) e2).trans ?_
  simp only
  cases hd : s.loadData o size with
  | error f => exact ticks_stopped (by simp) 1
  | ok r =>
    simp only
    exact tick_writeback (L := { s.latch w with aluOut := o, aluZero := z, memReadData := ramExtend size u r }) hr rfl hw hi hb

theorem ticks_five_store {s : State} {w imm : Word} {c b : Control} {sz : BitVec 2} {u : Bool} {size : AccessSize} (hr : s.stop = .none) (hf : s.fsm = .fetch) {imm0 : Word} (hl : immOf s.ir = some imm0)
    (ht : s.fetchTraps = false) (hw : memRead s.mem s.fetchAddr .word = .ok w) (ha : accepted w = true)
    (hi : immOf w = some imm) (hc : executeControl w = some c)
    (hm : memoryControl w = some { Control.defaults with memWrite := true, memAddrMuxSrc := .aluOut, memSize := sz, memUnsigned := u })
    (hs : lookup memSizeTable sz = some size)
    (hb : writebackControl w = some b) (hnw : b.regWrite = false)
      (hnp : State.nextPc b imm (State.afterExecute c imm (s.latch w)) = s.pc4) :
    ticks 5 s = match s.storeData (State.afterExecute c imm (s.latch w)).aluOut size (s.readReg (rs2Of w)) with
      | .error f => { State.afterExecute c imm (s.latch w) with fsm := .memory, stop := .fault f }
      | .ok m => { (State.afterExecute c imm (s.latch w)).stored m (State.afterExecute c imm (s.latch w)).aluOut size with
          pc := s.pc4, memReadData := { s.latch w with mem := m }.reread, fsm := .fetch } := by
  rw [ticks_fetch_decode hr hf hl ht hw ha 3, ticks, tick_execute (L := s.latch w) hr rfl hw hi hc, ticks]
  obtain ⟨o, z, hE⟩ := State.afterExecute_shape c imm (s.latch w)
  rw [hE] at hnp ⊢
  obtain ⟨v, e⟩ := cycle_memory_write (s := { s.latch w with aluOut := o, aluZero := z, fsm := .memory, started := true }) (imm := imm) (size := size) rfl hi hm hs
  have e2 : tickState { s.latch w with aluOut := o, aluZero := z, fsm := .memory } =
      match s.storeData o size (s.readReg (rs2Of w)) with
      | .error f => { s.latch w with aluOut := o, aluZero := z, fsm := .memory, stop := .fault f }
      | .ok m => { (s.latch w).stored m o size with aluOut := o, aluZero := z, memReadData := v, fsm := .writeback } := by
    rw [tickState_running (by exact hr)]
    refine e.trans ?_
    generalize hq : s.storeData o size (s.readReg (rs2Of w)) = q
    have hq' : State.storeData { s.latch w with aluOut := o, aluZero := z, fsm := .memory, started := true } o size (State.readReg { s.latch w with aluOut := o, aluZero := z, fsm := .memory, started := true } (rs2Of w)) = q := hq
    refine (congrArg (fun (q : Except Fault Memory) => match q with
      | .error f => (State.raiseStop { s.latch w with aluOut := o, aluZero := z, fsm := .memory, started := true } .memory (.fault f))
      | .ok m => { (s.latch w).stored m o size with aluOut := o, aluZero := z, started := true, memReadData := v, fsm := .writeback }) hq').trans ?_
    cases q <;> rfl
  refine (congrArg (fun t => ticks 1 t) e2).trans ?_
  simp only
  cases hd : s.storeData o size (s.readReg (rs2Of w)) with
  | error f => exact ticks_stopped (by simp) 1
  | ok m =>
    simp only
    have hw' : memRead m s.fetchAddr .word = .ok ({ s.latch w with mem := m }.reread) := by
      obtain ⟨h1, h2⟩ := memRead_eq_ok hw
      have h3 : memRead ({ s.latch w with mem := m } : State).mem ({ s.latch w with mem := m } :
        State).fetchAddr .word = .ok (m.readLE s.fetchAddr.toNat 4) := memRead_ok h1
      rw [State.reread_eq h3]
      exact memRead_ok h1
    refine (tick_writeback (L := { (s.latch w).stored m o size with aluOut := o, aluZero := z, memReadData := v }) hr rfl hw' hi hb).trans ?_
    have h5 : State.nextPc b imm { (s.latch w).stored m o size with aluOut := o, aluZero := z, memReadData := v } =
      s.pc4 := hnp
    rw [h5]
    simp [State.afterWriteback, hnw, State.stored]
end Sys2Proof.Machine
end

