-- ==== Sys2Proof/Laws/Written.lean ====
section
/-! SUPPORT. The set of written bytes: its members after each operation, its canonical form, and that a write keeps every nonzero byte in it. -/

namespace Sys2Proof.Machine

theorem Written.mem_add {w : Written} {k a : Nat} : a ∈ w.add k ↔ a = k ∨ a ∈ w := by
  induction w with
  | nil => simp [Written.add]
  | cons b rest ih =>
    unfold Written.add
    split
    · simp
    · split
      · rename_i e; subst e; simp
      · simp only [List.mem_cons, ih]; tauto

/-- Marking a run adds exactly its addresses. -/
theorem Written.mem_mark {w : Written} {a n k : Nat} : k ∈ w.mark a n ↔ k ∈ w ∨ (a ≤ k ∧ k < a + n) := by
  induction n generalizing w a with
  | zero => simp [Written.mark]
  | succ n ih =>
    rw [Written.mark, ih, Written.mem_add]
    by_cases h : k ∈ w
    · simp [h]
    · simp only [h, or_false, false_or]; omega

theorem Written.wfFrom_add {w : Written} {low k : Nat} (hl : low ≤ k) (hk : k < addressSpace)
    (h : w.wfFrom low = true) : (w.add k).wfFrom low = true := by
  induction w generalizing low with
  | nil => simp [Written.add, Written.wfFrom, hl, hk]
  | cons b rest ih =>
    have h' := h
    simp only [Written.wfFrom, Bool.and_eq_true, decide_eq_true_eq] at h'
    obtain ⟨⟨hb, hs⟩, hr⟩ := h'
    unfold Written.add
    split
    · simp only [Written.wfFrom, Bool.and_eq_true, decide_eq_true_eq]
      exact ⟨⟨hl, hk⟩, ⟨by omega, hs⟩, hr⟩
    · split
      · exact h
      · simp only [Written.wfFrom, Bool.and_eq_true, decide_eq_true_eq]
        exact ⟨⟨hb, hs⟩, ih (by omega) hr⟩

/-- Marking a run inside the address space keeps the canonical form. -/
theorem Written.wf_mark {w : Written} {a n : Nat} (ha : a + n ≤ addressSpace) (h : w.wf = true) :
    (w.mark a n).wf = true := by
  induction n generalizing w a with
  | zero => exact h
  | succ n ih => exact ih (by omega) (Written.wfFrom_add (Nat.zero_le a) (by omega) h)

theorem Written.pairwise_from {w : Written} {low : Nat} (h : w.wfFrom low = true) :
    w.Pairwise (· < ·) ∧ ∀ a ∈ w, low ≤ a := by
  induction w generalizing low with
  | nil => simp
  | cons b rest ih =>
    simp only [Written.wfFrom, Bool.and_eq_true, decide_eq_true_eq] at h
    obtain ⟨⟨hb, -⟩, hr⟩ := h
    obtain ⟨hp, hlow⟩ := ih hr
    refine ⟨List.pairwise_cons.mpr ⟨fun a ha => hlow a ha, hp⟩, fun a ha => ?_⟩
    rcases List.mem_cons.mp ha with rfl | ha
    · exact hb
    · exact Nat.le_trans hb (Nat.le_of_succ_le (hlow a ha))

/-- A canonical set of addresses rises strictly. -/
theorem Written.pairwise {w : Written} (h : w.wf = true) : w.Pairwise (· < ·) := (Written.pairwise_from h).1

/-! ### Listed bytes -/

theorem Memory.mem_consByte {m : Memory} {k : Nat} {v : Byte} {c : Host.Cell} (h : c ∈ Memory.consByte k v m) :
    c.1 = k ∨ c ∈ m := by
  unfold Memory.consByte at h
  split at h
  · exact .inr h
  · rcases List.mem_cons.mp h with rfl | h
    · exact .inl rfl
    · exact .inr h

/-- A byte write lists no address but its own. -/
theorem Memory.mem_writeByte {m : Memory} {k : Nat} {v : Byte} {c : Host.Cell} (h : c ∈ m.writeByte k v) :
    c.1 = k ∨ c ∈ m := by
  induction m with
  | nil => exact Memory.mem_consByte h
  | cons d rest ih =>
    obtain ⟨a, b⟩ := d
    unfold Memory.writeByte at h
    split at h
    · exact Memory.mem_consByte h
    · split at h
      · exact (Memory.mem_consByte h).imp_right (List.mem_cons_of_mem _)
      · rcases List.mem_cons.mp h with rfl | h
        · exact .inr (List.mem_cons_self ..)
        · exact (ih h).imp_right (List.mem_cons_of_mem _)

/-- A run of byte writes lists no address outside the run. -/
theorem Memory.mem_writeLE {m : Memory} {a n : Nat} {v : Word} {c : Host.Cell} (h : c ∈ m.writeLE a n v) :
    c ∈ m ∨ (a ≤ c.1 ∧ c.1 < a + n) := by
  induction n generalizing m a v with
  | zero => exact .inl h
  | succ n ih =>
    rcases ih h with h | h
    · rcases Memory.mem_writeByte h with h | h
      · exact .inr (by omega)
      · exact .inl h
    · exact .inr (by omega)

theorem Memory.mem_writeWords {m : Memory} {a : Nat} {ws : List Word} {c : Host.Cell} (h : c ∈ m.writeWords a ws) :
    c ∈ m ∨ (a ≤ c.1 ∧ c.1 < a + 4 * ws.length) := by
  induction ws generalizing m a with
  | nil => exact .inl h
  | cons w ws ih =>
    simp only [List.length_cons]
    rcases ih h with h | h
    · rcases Memory.mem_writeLE h with h | h
      · exact .inl h
      · exact .inr (by omega)
    · exact .inr (by omega)

theorem Memory.mem_writeBytes {m : Memory} {a : Nat} {bs : List Byte} {c : Host.Cell} (h : c ∈ m.writeBytes a bs) :
    c ∈ m ∨ (a ≤ c.1 ∧ c.1 < a + bs.length) := by
  induction bs generalizing m a with
  | nil => exact .inl h
  | cons b bs ih =>
    simp only [List.length_cons]
    rcases ih h with h | h
    · rcases Memory.mem_writeByte h with h | h
      · exact .inr (by omega)
      · exact .inl h
    · exact .inr (by omega)

/-- A byte that no cell lists reads zero. -/
theorem Memory.readByte_of_unlisted {m : Memory} {k : Nat} (h : ∀ c ∈ m, c.1 ≠ k) : m.readByte k = 0 := by
  induction m with
  | nil => rfl
  | cons d rest ih =>
    obtain ⟨a, b⟩ := d
    have ha : k ≠ a := fun e => h (a, b) (List.mem_cons_self ..) e.symm
    simp only [Memory.readByte, if_neg ha]
    exact ih fun c hc => h c (List.mem_cons_of_mem _ hc)

/-- A byte that has not been written reads zero. -/
theorem State.WrittenOk.unwritten_zero {s : State} (h : s.WrittenOk) {a : Nat} (ha : a ∉ s.written) :
    s.mem.readByte a = 0 :=
  Memory.readByte_of_unlisted fun c hc e => ha (e ▸ h.2 c hc)

/-! ### Writes keep every nonzero byte written -/

/-- A run of bytes written and marked together. -/
theorem writtenOk_run {m m' : Memory} {w : Written} {a n : Nat} (ha : a + n ≤ addressSpace)
    (hw : w.wf = true ∧ ∀ c ∈ m, c.1 ∈ w) (hm : ∀ c ∈ m', c ∈ m ∨ (a ≤ c.1 ∧ c.1 < a + n)) :
    (w.mark a n).wf = true ∧ ∀ c ∈ m', c.1 ∈ w.mark a n :=
  ⟨Written.wf_mark ha hw.1, fun c hc => Written.mem_mark.mpr ((hm c hc).imp_left (hw.2 c))⟩

/-- A `MemWrite` keeps every nonzero byte written. -/
theorem State.WrittenOk.stored {s : State} {m : Memory} {addr v : Word} {size : AccessSize} (h : s.WrittenOk)
    (hw : memWrite s.mem addr size v = .ok m) : (s.stored m addr size).WrittenOk := by
  obtain ⟨hr, rfl⟩ := memWrite_eq_ok hw
  exact writtenOk_run (by simpa [inRange] using hr) h fun c hc => Memory.mem_writeLE hc

/-! ### The host's writes -/

theorem setCode_writtenOk {words : List Word} {s : State} (h : s.WrittenOk) : (setCode words s).state.WrittenOk := by
  unfold setCode
  split
  · exact h
  · split
    · exact h
    · rename_i hfit
      exact writtenOk_run (by omega) h fun c hc => Memory.mem_writeWords hc

theorem placeData_writtenOk {start : Word} {bytes : List Byte} {s : State} (h : s.WrittenOk) :
    (placeData start bytes s).state.WrittenOk := by
  unfold placeData
  split
  · exact h
  · split
    · exact h
    · rename_i hfit
      exact writtenOk_run (by omega) h fun c hc => Memory.mem_writeBytes hc

/-- What the sparse iteration lists: the written addresses, each with its byte. -/
theorem mem_sparseRam {s : State} {a : Nat} {b : Byte} :
    (a, b) ∈ s.sparseRam ↔ a ∈ s.written ∧ b = s.mem.readByte a := by
  simp only [State.sparseRam, List.mem_map, Prod.mk.injEq]
  constructor
  · rintro ⟨_, h, rfl, rfl⟩; exact ⟨h, rfl⟩
  · rintro ⟨h, rfl⟩; exact ⟨a, h, rfl, rfl⟩

/-- The addresses the sparse iteration lists. -/
@[simp] theorem sparseRam_addresses (s : State) : s.sparseRam.map Prod.fst = s.written := by
  simp [State.sparseRam, Function.comp_def]

/-- The host's register list holds every register's value at its number. -/
theorem view_regs (s : State) (r : RegIdx) : s.view.regs[r.val]? = some (s.readReg r) := by
  simp [State.view, -List.map_ofFn]

end Sys2Proof.Machine
end

