-- ==== Sys2Proof/Tests/Slice0.lean ====
section
/-! SUPPORT. The model's own tests: ill-formed terms, one decoded word per constructor, one-step vectors of spec/95_test_vectors.md, and a witness for each statement's hypotheses. -/

namespace Sys2Proof.Tests

open Sys2Proof.Machine

/-! ### WellFormed refuses -/

theorem test_wf_refuses_an_odd_beq_offset : (Instr.beq 1 2 0x0FFF).wf = false := by decide
theorem test_wf_refuses_an_odd_bne_offset : (Instr.bne 1 2 0x0FFF).wf = false := by decide
theorem test_wf_refuses_an_odd_blt_offset : (Instr.blt 1 2 0x0FFF).wf = false := by decide
theorem test_wf_refuses_an_odd_bge_offset : (Instr.bge 1 2 0x0FFF).wf = false := by decide
theorem test_wf_refuses_an_odd_bltu_offset : (Instr.bltu 1 2 0x0FFF).wf = false := by decide
theorem test_wf_refuses_an_odd_bgeu_offset : (Instr.bgeu 1 2 0x0FFF).wf = false := by decide
theorem test_wf_refuses_an_odd_jal_offset : (Instr.jal 1 0x100001).wf = false := by decide
theorem test_wf_admits_the_offsets_next_to_them :
    (Instr.beq 1 2 0x0FFE).wf = true ∧ (Instr.beq 1 2 0x1000).wf = true ∧ (Instr.jal 1 0x100000).wf = true := by
  decide

/-! ### Decoding: each word written out field by field from 30_encoding.md R54, R55 and R59 -/

theorem test_decode_lui :
    decode (0x186A0#20 ++ 28#5 ++ 0b0110111#7) = .ok (.lui 28 0x186A0) := by decide
theorem test_decode_auipc :
    decode (0x80001#20 ++ 31#5 ++ 0b0010111#7) = .ok (.auipc 31 0x80001) := by decide
theorem test_decode_jal :
    decode (0b1#1 ++ 0b0000000011#10 ++ 0b1#1 ++ 0b00000101#8 ++ 1#5 ++ 0b1101111#7) = .ok (.jal 1 0x105806) := by decide
theorem test_decode_jalr :
    decode (0b100000000100#12 ++ 9#5 ++ 0b000#3 ++ 5#5 ++ 0b1100111#7) = .ok (.jalr 5 9 0x804) := by decide
theorem test_decode_beq :
    decode (0b1#1 ++ 0b000011#6 ++ 17#5 ++ 30#5 ++ 0b000#3 ++ 0b0101#4 ++ 0b1#1 ++ 0b1100011#7) = .ok (.beq 30 17 0x186A) := by decide
theorem test_decode_bne :
    decode (0b1#1 ++ 0b000011#6 ++ 17#5 ++ 30#5 ++ 0b001#3 ++ 0b0101#4 ++ 0b1#1 ++ 0b1100011#7) = .ok (.bne 30 17 0x186A) := by decide
theorem test_decode_blt :
    decode (0b1#1 ++ 0b000011#6 ++ 17#5 ++ 30#5 ++ 0b100#3 ++ 0b0101#4 ++ 0b1#1 ++ 0b1100011#7) = .ok (.blt 30 17 0x186A) := by decide
theorem test_decode_bge :
    decode (0b1#1 ++ 0b000011#6 ++ 17#5 ++ 30#5 ++ 0b101#3 ++ 0b0101#4 ++ 0b1#1 ++ 0b1100011#7) = .ok (.bge 30 17 0x186A) := by decide
theorem test_decode_bltu :
    decode (0b1#1 ++ 0b000011#6 ++ 17#5 ++ 30#5 ++ 0b110#3 ++ 0b0101#4 ++ 0b1#1 ++ 0b1100011#7) = .ok (.bltu 30 17 0x186A) := by decide
theorem test_decode_bgeu :
    decode (0b1#1 ++ 0b000011#6 ++ 17#5 ++ 30#5 ++ 0b111#3 ++ 0b0101#4 ++ 0b1#1 ++ 0b1100011#7) = .ok (.bgeu 30 17 0x186A) := by decide
theorem test_decode_lb :
    decode (0b111111111011#12 ++ 18#5 ++ 0b000#3 ++ 13#5 ++ 0b0000011#7) = .ok (.lb 13 18 0xFFB) := by decide
theorem test_decode_lh :
    decode (0b111111111011#12 ++ 18#5 ++ 0b001#3 ++ 13#5 ++ 0b0000011#7) = .ok (.lh 13 18 0xFFB) := by decide
theorem test_decode_lw :
    decode (0b111111111011#12 ++ 18#5 ++ 0b010#3 ++ 13#5 ++ 0b0000011#7) = .ok (.lw 13 18 0xFFB) := by decide
theorem test_decode_lbu :
    decode (0b111111111011#12 ++ 18#5 ++ 0b100#3 ++ 13#5 ++ 0b0000011#7) = .ok (.lbu 13 18 0xFFB) := by decide
theorem test_decode_lhu :
    decode (0b111111111011#12 ++ 18#5 ++ 0b101#3 ++ 13#5 ++ 0b0000011#7) = .ok (.lhu 13 18 0xFFB) := by decide
theorem test_decode_sb :
    decode (0b1000001#7 ++ 19#5 ++ 10#5 ++ 0b000#3 ++ 0b00110#5 ++ 0b0100011#7) = .ok (.sb 19 10 0x826) := by decide
theorem test_decode_sh :
    decode (0b1000001#7 ++ 19#5 ++ 10#5 ++ 0b001#3 ++ 0b00110#5 ++ 0b0100011#7) = .ok (.sh 19 10 0x826) := by decide
theorem test_decode_sw :
    decode (0b1000001#7 ++ 19#5 ++ 10#5 ++ 0b010#3 ++ 0b00110#5 ++ 0b0100011#7) = .ok (.sw 19 10 0x826) := by decide
theorem test_decode_addi :
    decode (0b010000000001#12 ++ 11#5 ++ 0b000#3 ++ 20#5 ++ 0b0010011#7) = .ok (.addi 20 11 0x401) := by decide
theorem test_decode_slti :
    decode (0b010000000001#12 ++ 11#5 ++ 0b010#3 ++ 20#5 ++ 0b0010011#7) = .ok (.slti 20 11 0x401) := by decide
theorem test_decode_sltiu :
    decode (0b010000000001#12 ++ 11#5 ++ 0b011#3 ++ 20#5 ++ 0b0010011#7) = .ok (.sltiu 20 11 0x401) := by decide
theorem test_decode_xori :
    decode (0b010000000001#12 ++ 11#5 ++ 0b100#3 ++ 20#5 ++ 0b0010011#7) = .ok (.xori 20 11 0x401) := by decide
theorem test_decode_ori :
    decode (0b010000000001#12 ++ 11#5 ++ 0b110#3 ++ 20#5 ++ 0b0010011#7) = .ok (.ori 20 11 0x401) := by decide
theorem test_decode_andi :
    decode (0b010000000001#12 ++ 11#5 ++ 0b111#3 ++ 20#5 ++ 0b0010011#7) = .ok (.andi 20 11 0x401) := by decide
theorem test_decode_slli :
    decode (0b0000000#7 ++ 17#5 ++ 6#5 ++ 0b001#3 ++ 12#5 ++ 0b0010011#7) = .ok (.slli 12 6 17) := by decide
theorem test_decode_srli :
    decode (0b0000000#7 ++ 17#5 ++ 6#5 ++ 0b101#3 ++ 12#5 ++ 0b0010011#7) = .ok (.srli 12 6 17) := by decide
theorem test_decode_srai :
    decode (0b0100000#7 ++ 17#5 ++ 6#5 ++ 0b101#3 ++ 12#5 ++ 0b0010011#7) = .ok (.srai 12 6 17) := by decide
theorem test_decode_add :
    decode (0b0000000#7 ++ 21#5 ++ 14#5 ++ 0b000#3 ++ 7#5 ++ 0b0110011#7) = .ok (.add 7 14 21) := by decide
theorem test_decode_sub :
    decode (0b0100000#7 ++ 21#5 ++ 14#5 ++ 0b000#3 ++ 7#5 ++ 0b0110011#7) = .ok (.sub 7 14 21) := by decide
theorem test_decode_sll :
    decode (0b0000000#7 ++ 21#5 ++ 14#5 ++ 0b001#3 ++ 7#5 ++ 0b0110011#7) = .ok (.sll 7 14 21) := by decide
theorem test_decode_slt :
    decode (0b0000000#7 ++ 21#5 ++ 14#5 ++ 0b010#3 ++ 7#5 ++ 0b0110011#7) = .ok (.slt 7 14 21) := by decide
theorem test_decode_sltu :
    decode (0b0000000#7 ++ 21#5 ++ 14#5 ++ 0b011#3 ++ 7#5 ++ 0b0110011#7) = .ok (.sltu 7 14 21) := by decide
theorem test_decode_xor :
    decode (0b0000000#7 ++ 21#5 ++ 14#5 ++ 0b100#3 ++ 7#5 ++ 0b0110011#7) = .ok (.xor 7 14 21) := by decide
theorem test_decode_srl :
    decode (0b0000000#7 ++ 21#5 ++ 14#5 ++ 0b101#3 ++ 7#5 ++ 0b0110011#7) = .ok (.srl 7 14 21) := by decide
theorem test_decode_sra :
    decode (0b0100000#7 ++ 21#5 ++ 14#5 ++ 0b101#3 ++ 7#5 ++ 0b0110011#7) = .ok (.sra 7 14 21) := by decide
theorem test_decode_or :
    decode (0b0000000#7 ++ 21#5 ++ 14#5 ++ 0b110#3 ++ 7#5 ++ 0b0110011#7) = .ok (.or 7 14 21) := by decide
theorem test_decode_and :
    decode (0b0000000#7 ++ 21#5 ++ 14#5 ++ 0b111#3 ++ 7#5 ++ 0b0110011#7) = .ok (.and 7 14 21) := by decide
theorem test_decode_sentinel : decode 0x00000000 = .ok .sentinel := by decide

/-- 95_test_vectors.md V-X2, V-X3, V-X7, V-X11: two opcodes and two functs the decoder turns away by name. -/
theorem test_decode_refuses_by_name :
    decode 0x0000007F = .error (.unsupportedOpcode 0x0000007F) ∧
    decode 0x02208033 = .error (.unlistedFunct 0x02208033) ∧
    decode 0x0FF0000F = .error (.unsupportedOpcode 0x0FF0000F) ∧
    decode 0x40001093 = .error (.unlistedFunct 0x40001093) := by decide
theorem test_decodeBytes_needs_four_bytes : decodeBytes [0x93, 0x02, 0xF0] = .error .truncated := by decide
theorem test_decodeTableWord_reads_the_bytes_in_order : decodeTableWord 32 0xFE20AC23 = some (.sw 2 1 0xFF8) := by
  decide
/-- 95_test_vectors.md S1 and P3, and the halt of 30_encoding.md R63. -/
theorem test_pseudo_expansions :
    encode Pseudo.nop.expand = 0x00000013 ∧ encode Pseudo.ret.expand = 0x00008067 ∧
    encode Pseudo.halt.expand = 0x00000000 ∧ encode (Pseudo.li 5 0xFFF).expand = 0xFFF00293 := by decide
theorem test_asmLine_of_a_store : asmLine (.sw 2 1 0xFF8) = "sw x2, -8(x1)" := by decide
theorem test_directive_half : (Directive.half 0xAABB).bytes = some [0xBB, 0xAA] := by decide

/-! ### One step each: the vectors of spec/95_test_vectors.md -/

/-- A word put into the RAM, as a store would. -/
def place (s : State) (a v : Word) : State := s.stored (s.mem.writeLE a.toNat 4 v) a .word

/-- A core just constructed with parameters `p`, some registers, some data words, and one code word at
TEXT_START. -/
def startWith (p : Params) (w : Word) (regs : List (RegIdx × Word)) (data : List (Word × Word)) : State :=
  let s := regs.foldl (fun s e => s.writeReg e.1 e.2) (State.resetWith p)
  place (data.foldl (fun s e => place s e.1 e.2) s) p.textStart w

/-- The same with the default parameters and no data. -/
def start (w : Word) (regs : List (RegIdx × Word)) : State := startWith Params.default w regs []

/-- The state a step leaves. -/
def after (s : State) : State :=
  match step s with
  | .next t => t
  | .fault _ => s
  | .refused _ => s

/-- V-R1, `add x3, x1, x2` (R95). -/
theorem test_add_wraps_past_the_sign :
    let t := after (start 0x002081B3 [(1, 0x7FFFFFFF), (2, 0x00000001)])
    t.pc = 0x00010004 ∧ t.readReg 3 = 0x80000000 := by decide

/-- V-R4, `add x0, x1, x2` (R95). -/
theorem test_add_discards_a_write_to_x0 :
    let t := after (start 0x00208033 [(1, 0x00000005), (2, 0x00000006)])
    t.pc = 0x00010004 ∧ t.readReg 0 = 0 := by decide

/-- V-R5, `sub x3, x1, x2` (R96). -/
theorem test_sub_wraps_below_zero :
    let t := after (start 0x402081B3 [(1, 0x00000000), (2, 0x00000001)])
    t.pc = 0x00010004 ∧ t.readReg 3 = 0xFFFFFFFF := by decide

/-- V-R7, `sub x4, x1, x1` (R96). -/
theorem test_sub_of_equals :
    let t := after (start 0x40108233 [(1, 0x12345678), (4, 0x00000009)])
    t.pc = 0x00010004 ∧ t.readReg 4 = 0x00000000 := by decide

/-- V-R8, `sll x3, x1, x2` (R97). -/
theorem test_sll_by_31 :
    let t := after (start 0x002091B3 [(1, 0x00000001), (2, 0x0000001F)])
    t.pc = 0x00010004 ∧ t.readReg 3 = 0x80000000 := by decide

/-- V-R10, `sll x3, x1, x2` (R97). -/
theorem test_sll_amount_is_mod_32 :
    let t := after (start 0x002091B3 [(1, 0x12345678), (2, 0xFFFFFFE4)])
    t.pc = 0x00010004 ∧ t.readReg 3 = 0x23456780 := by decide

/-- V-R11, `slt x3, x1, x2` (R98). -/
theorem test_slt_is_signed :
    let t := after (start 0x0020A1B3 [(1, 0xFFFFFFFF), (2, 0x00000001)])
    t.pc = 0x00010004 ∧ t.readReg 3 = 0x00000001 := by decide

/-- V-R12, `slt x3, x1, x2` (R98). -/
theorem test_slt_needs_no_difference :
    let t := after (start 0x0020A1B3 [(1, 0x80000000), (2, 0x7FFFFFFF)])
    t.pc = 0x00010004 ∧ t.readReg 3 = 0x00000001 := by decide

/-- V-R14, `sltu x3, x1, x2` (R99). -/
theorem test_sltu_is_unsigned :
    let t := after (start 0x0020B1B3 [(1, 0xFFFFFFFF), (2, 0x00000001)])
    t.pc = 0x00010004 ∧ t.readReg 3 = 0x00000000 := by decide

/-- V-R15, `sltu x3, x0, x2` (R99). -/
theorem test_sltu_zero_below_one :
    let t := after (start 0x002031B3 [(2, 0x00000001)])
    t.pc = 0x00010004 ∧ t.readReg 3 = 0x00000001 := by decide

/-- V-R16, `xor x3, x1, x2` (R100). -/
theorem test_xor_bits :
    let t := after (start 0x0020C1B3 [(1, 0xF0F0F0F0), (2, 0xFF00FF00)])
    t.pc = 0x00010004 ∧ t.readReg 3 = 0x0FF00FF0 := by decide

/-- V-R17, `xor x3, x1, x1` (R100). -/
theorem test_xor_with_itself :
    let t := after (start 0x0010C1B3 [(1, 0xDEADBEEF)])
    t.pc = 0x00010004 ∧ t.readReg 3 = 0x00000000 := by decide

/-- V-R18, `srl x3, x1, x2` (R101). -/
theorem test_srl_fills_with_zero :
    let t := after (start 0x0020D1B3 [(1, 0x80000000), (2, 0x00000001)])
    t.pc = 0x00010004 ∧ t.readReg 3 = 0x40000000 := by decide

/-- V-R20, `srl x3, x1, x2` (R101). -/
theorem test_srl_by_zero :
    let t := after (start 0x0020D1B3 [(1, 0x80000000), (2, 0x00000000)])
    t.pc = 0x00010004 ∧ t.readReg 3 = 0x80000000 := by decide

/-- V-R21, `sra x3, x1, x2` (R102). -/
theorem test_sra_fills_with_the_sign :
    let t := after (start 0x4020D1B3 [(1, 0x80000000), (2, 0x00000001)])
    t.pc = 0x00010004 ∧ t.readReg 3 = 0xC0000000 := by decide

/-- V-R23, `sra x3, x1, x2` (R102). -/
theorem test_sra_amount_is_mod_32 :
    let t := after (start 0x4020D1B3 [(1, 0x7FFFFFFF), (2, 0x00000021)])
    t.pc = 0x00010004 ∧ t.readReg 3 = 0x3FFFFFFF := by decide

/-- V-R24, `or x3, x1, x2` (R103). -/
theorem test_or_bits :
    let t := after (start 0x0020E1B3 [(1, 0xF0F0F0F0), (2, 0x0F0F0F0F)])
    t.pc = 0x00010004 ∧ t.readReg 3 = 0xFFFFFFFF := by decide

/-- V-R25, `and x3, x1, x2` (R104). -/
theorem test_and_bits :
    let t := after (start 0x0020F1B3 [(1, 0xF0F0F0F0), (2, 0xFF00FF00)])
    t.pc = 0x00010004 ∧ t.readReg 3 = 0xF000F000 := by decide

/-- V-R26, `and x3, x1, x0` (R104). -/
theorem test_and_with_x0 :
    let t := after (start 0x0000F1B3 [(1, 0xFFFFFFFF)])
    t.pc = 0x00010004 ∧ t.readReg 3 = 0x00000000 := by decide

/-- V-I2, `addi x5, x1, -2048` (R106). -/
theorem test_addi_sign_extends :
    let t := after (start 0x80008293 [(1, 0x00000000)])
    t.pc = 0x00010004 ∧ t.readReg 5 = 0xFFFFF800 := by decide

/-- V-I4, `addi x5, x5, 1` (R106). -/
theorem test_addi_source_is_destination :
    let t := after (start 0x00128293 [(5, 0x7FFFFFFF)])
    t.pc = 0x00010004 ∧ t.readReg 5 = 0x80000000 := by decide

/-- V-I6, `slti x5, x1, -1` (R107). -/
theorem test_slti_is_signed :
    let t := after (start 0xFFF0A293 [(1, 0x80000000)])
    t.pc = 0x00010004 ∧ t.readReg 5 = 0x00000001 := by decide

/-- V-I7, `slti x5, x1, -1` (R107). -/
theorem test_slti_not_below :
    let t := after (start 0xFFF0A293 [(1, 0x00000000)])
    t.pc = 0x00010004 ∧ t.readReg 5 = 0x00000000 := by decide

/-- V-I8, `sltiu x5, x1, -1` (R108). -/
theorem test_sltiu_extends_then_compares_unsigned :
    let t := after (start 0xFFF0B293 [(1, 0xFFFFFFFE)])
    t.pc = 0x00010004 ∧ t.readReg 5 = 0x00000001 := by decide

/-- V-I10, `sltiu x5, x1, 1` (R108). -/
theorem test_sltiu_not_below :
    let t := after (start 0x0010B293 [(1, 0x00000007)])
    t.pc = 0x00010004 ∧ t.readReg 5 = 0x00000000 := by decide

/-- V-I11, `xori x5, x1, -1` (R109). -/
theorem test_xori_minus_one_inverts :
    let t := after (start 0xFFF0C293 [(1, 0x12345678)])
    t.pc = 0x00010004 ∧ t.readReg 5 = 0xEDCBA987 := by decide

/-- V-I12, `ori x5, x1, -2048` (R110). -/
theorem test_ori_sign_extends :
    let t := after (start 0x8000E293 [(1, 0x0000000F)])
    t.pc = 0x00010004 ∧ t.readReg 5 = 0xFFFFF80F := by decide

/-- V-I13, `andi x5, x1, 255` (R111). -/
theorem test_andi_masks :
    let t := after (start 0x0FF0F293 [(1, 0x12345678)])
    t.pc = 0x00010004 ∧ t.readReg 5 = 0x00000078 := by decide

/-- V-I14, `andi x5, x1, -1` (R111). -/
theorem test_andi_sign_extends :
    let t := after (start 0xFFF0F293 [(1, 0x12345678)])
    t.pc = 0x00010004 ∧ t.readReg 5 = 0x12345678 := by decide

/-- V-I15, `slli x5, x1, 31` (R112). -/
theorem test_slli_by_31 :
    let t := after (start 0x01F09293 [(1, 0x00000003)])
    t.pc = 0x00010004 ∧ t.readReg 5 = 0x80000000 := by decide

/-- V-I16, `slli x5, x1, 0` (R112). -/
theorem test_slli_by_zero :
    let t := after (start 0x00009293 [(1, 0x12345678)])
    t.pc = 0x00010004 ∧ t.readReg 5 = 0x12345678 := by decide

/-- V-I18, `srli x5, x1, 1` (R113). -/
theorem test_srli_fills_with_zero :
    let t := after (start 0x0010D293 [(1, 0x80000000)])
    t.pc = 0x00010004 ∧ t.readReg 5 = 0x40000000 := by decide

/-- V-I17, `srli x5, x1, 31` (R113). -/
theorem test_srli_by_31 :
    let t := after (start 0x01F0D293 [(1, 0x80000000)])
    t.pc = 0x00010004 ∧ t.readReg 5 = 0x00000001 := by decide

/-- V-I19, `srai x5, x1, 1` (R114). -/
theorem test_srai_fills_with_the_sign :
    let t := after (start 0x4010D293 [(1, 0x80000000)])
    t.pc = 0x00010004 ∧ t.readReg 5 = 0xC0000000 := by decide

/-- V-I20, `srai x5, x1, 31` (R114). -/
theorem test_srai_by_31 :
    let t := after (start 0x41F0D293 [(1, 0x80000000)])
    t.pc = 0x00010004 ∧ t.readReg 5 = 0xFFFFFFFF := by decide

/-- V-I22, `lui x5, 0xFFFFF` (R115). -/
theorem test_lui_upper_bits :
    let t := after (start 0xFFFFF2B7 [])
    t.pc = 0x00010004 ∧ t.readReg 5 = 0xFFFFF000 := by decide

/-- V-I24, `lui x0, 0x12345` (R115). -/
theorem test_lui_discards_a_write_to_x0 :
    let t := after (start 0x12345037 [])
    t.pc = 0x00010004 ∧ t.readReg 0 = 0 := by decide

/-- V-I25, `auipc x5, 0xFFFFF` (R116). -/
theorem test_auipc_negative :
    let t := after (start 0xFFFFF297 [])
    t.pc = 0x00010004 ∧ t.readReg 5 = 0x0000F000 := by decide

/-- V-I27, `auipc x5, 0x10000` (R116). -/
theorem test_auipc_wraps :
    let t := after (startWith { Params.default with fetchAlign := .exact, misalignedDataTrap := false, textStart := 0xF0000000 } 0x10000297 [] [])
    t.pc = 0xF0000004 ∧ t.readReg 5 = 0x00000000 := by decide

/-- V-B1, `beq x1, x2, +8` (R119). -/
theorem test_beq_taken :
    let t := after (start 0x00208463 [(1, 0x00000005), (2, 0x00000005)])
    t.pc = 0x00010008 := by decide

/-- V-B19, `beq x0, x0, -4096` (R119). -/
theorem test_beq_farthest_backward :
    let t := after (start 0x80000063 [])
    t.pc = 0x0000F000 ∧ t.readReg 0 = 0 := by decide

/-- V-B17, `bne x1, x2, -16` (R120). -/
theorem test_bne_backward :
    let t := after (start 0xFE2098E3 [(1, 0x00000001), (2, 0x00000002)])
    t.pc = 0x0000FFF0 := by decide

/-- V-B4, `bne x1, x2, +8` (R120). -/
theorem test_bne_not_taken :
    let t := after (start 0x00209463 [(1, 0x00000005), (2, 0x00000005)])
    t.pc = 0x00010004 := by decide

/-- V-B5, `blt x1, x2, +8` (R121). -/
theorem test_blt_is_signed :
    let t := after (start 0x0020C463 [(1, 0xFFFFFFFF), (2, 0x00000001)])
    t.pc = 0x00010008 := by decide

/-- V-B7, `blt x1, x2, +8` (R121). -/
theorem test_blt_of_equals :
    let t := after (start 0x0020C463 [(1, 0x00000005), (2, 0x00000005)])
    t.pc = 0x00010004 := by decide

/-- V-B8, `bge x1, x2, +8` (R122). -/
theorem test_bge_of_equals :
    let t := after (start 0x0020D463 [(1, 0x00000005), (2, 0x00000005)])
    t.pc = 0x00010008 := by decide

/-- V-B10, `bge x1, x2, +8` (R122). -/
theorem test_bge_needs_no_difference :
    let t := after (start 0x0020D463 [(1, 0x80000000), (2, 0x7FFFFFFF)])
    t.pc = 0x00010004 := by decide

/-- V-B12, `bltu x1, x2, +8` (R123). -/
theorem test_bltu_is_unsigned :
    let t := after (start 0x0020E463 [(1, 0x00000001), (2, 0xFFFFFFFF)])
    t.pc = 0x00010008 := by decide

/-- V-B11, `bltu x1, x2, +8` (R123). -/
theorem test_bltu_not_below :
    let t := after (start 0x0020E463 [(1, 0xFFFFFFFF), (2, 0x00000001)])
    t.pc = 0x00010004 := by decide

/-- V-B16, `bgeu x1, x2, +8` (R124). -/
theorem test_bgeu_of_equals :
    let t := after (start 0x0020F463 [(1, 0x00000007), (2, 0x00000007)])
    t.pc = 0x00010008 := by decide

/-- V-B22, `bgeu x0, x0, -8` (R124). -/
theorem test_bgeu_target_wraps :
    let t := after (startWith { Params.default with fetchAlign := .exact, misalignedDataTrap := false, textStart := 0x00000004 } 0xFE007CE3 [] [])
    t.pc = 0xFFFFFFFC ∧ t.readReg 0 = 0 := by decide

/-- V-J4, `jal x1, -0x100000` (R125). -/
theorem test_jal_farthest_backward :
    let t := after (start 0x800000EF [])
    t.pc = 0xFFF10000 ∧ t.readReg 1 = 0x00010004 := by decide

/-- V-J5, `jal x1, 8` (R125). -/
theorem test_jal_link_and_target_wrap :
    let t := after (startWith { Params.default with fetchAlign := .exact, misalignedDataTrap := false, textStart := 0xFFFFFFF8 } 0x008000EF [] [])
    t.pc = 0x00000000 ∧ t.readReg 1 = 0xFFFFFFFC := by decide

/-- V-J8, `jalr x5, 1(x1)` (R126). -/
theorem test_jalr_keeps_bit_zero :
    let t := after (start 0x001082E7 [(1, 0x00010010)])
    t.pc = 0x00010011 ∧ t.readReg 5 = 0x00010004 := by decide

/-- V-J9, `jalr x1, 4(x1)` (R126). -/
theorem test_jalr_uses_the_old_base :
    let t := after (start 0x004080E7 [(1, 0x00010010)])
    t.pc = 0x00010014 ∧ t.readReg 1 = 0x00010004 := by decide

/-- V-L2, `lb x5, 1(x1)` (R129). -/
theorem test_lb_sign_extends :
    let t := after (startWith Params.default 0x00108283 [(1, 0x00020000)] [(0x00020000, 0x8001FF7F)])
    t.pc = 0x00010004 ∧ t.readReg 5 = 0xFFFFFFFF := by decide

/-- V-L18, `lb x5, -1(x0)` (R129). -/
theorem test_lb_last_byte :
    let t := after (startWith Params.default 0xFFF00283 [] [(0xFFFFFFFC, 0x80000000)])
    t.pc = 0x00010004 ∧ t.readReg 5 = 0xFFFFFF80 := by decide

/-- V-L7, `lh x5, 2(x1)` (R130). -/
theorem test_lh_sign_extends :
    let t := after (startWith Params.default 0x00209283 [(1, 0x00020000)] [(0x00020000, 0x8001FF7F)])
    t.pc = 0x00010004 ∧ t.readReg 5 = 0xFFFF8001 := by decide

/-- V-L9, `lh x5, 1(x1)` (R130). -/
theorem test_lh_misaligned :
    let t := after (startWith Params.default 0x00109283 [(1, 0x00020000)] [(0x00020000, 0x8001FF7F)])
    t.pc = 0x00010004 ∧ t.readReg 5 = 0x000001FF := by decide

/-- V-L13, `lw x5, -1(x1)` (R131). -/
theorem test_lw_misaligned_over_an_unwritten_byte :
    let t := after (startWith Params.default 0xFFF0A283 [(1, 0x00020000)] [(0x00020000, 0x8001FF7F)])
    t.pc = 0x00010004 ∧ t.readReg 5 = 0x01FF7F00 := by decide

/-- V-L14, `lw x1, 0(x1)` (R131). -/
theorem test_lw_base_is_destination :
    let t := after (startWith Params.default 0x0000A083 [(1, 0x00020000)] [(0x00020000, 0x8001FF7F)])
    t.pc = 0x00010004 ∧ t.readReg 1 = 0x8001FF7F := by decide

/-- V-L3, `lbu x5, 1(x1)` (R132). -/
theorem test_lbu_zero_extends :
    let t := after (startWith Params.default 0x0010C283 [(1, 0x00020000)] [(0x00020000, 0x8001FF7F)])
    t.pc = 0x00010004 ∧ t.readReg 5 = 0x000000FF := by decide

/-- V-L5, `lbu x5, 3(x1)` (R132). -/
theorem test_lbu_top_byte :
    let t := after (startWith Params.default 0x0030C283 [(1, 0x00020000)] [(0x00020000, 0x8001FF7F)])
    t.pc = 0x00010004 ∧ t.readReg 5 = 0x00000080 := by decide

/-- V-L8, `lhu x5, 2(x1)` (R133). -/
theorem test_lhu_zero_extends :
    let t := after (startWith Params.default 0x0020D283 [(1, 0x00020000)] [(0x00020000, 0x8001FF7F)])
    t.pc = 0x00010004 ∧ t.readReg 5 = 0x00008001 := by decide

/-- V-L10, `lhu x5, 1(x1)` (R133). -/
theorem test_lhu_misaligned :
    let t := after (startWith Params.default 0x0010D283 [(1, 0x00020000)] [(0x00020000, 0x8001FF7F)])
    t.pc = 0x00010004 ∧ t.readReg 5 = 0x000001FF := by decide

/-- V-S1, `sb x2, 1(x1)` (R134). -/
theorem test_sb_one_byte :
    let t := after (startWith Params.default 0x002080A3 [(1, 0x00020000), (2, 0x123456DD)] [(0x00020000, 0xFFFFFFFF)])
    t.pc = 0x00010004 ∧ t.mem.readByte 0x00020001 = 0xDD := by decide

/-- V-S3, `sh x2, 3(x1)` (R135). -/
theorem test_sh_misaligned_across_words :
    let t := after (startWith Params.default 0x002091A3 [(1, 0x00020000), (2, 0x1234CCDD)] [(0x00020000, 0xFFFFFFFF)])
    t.pc = 0x00010004 ∧ t.mem.readByte 0x00020003 = 0xDD ∧ t.mem.readByte 0x00020004 = 0xCC := by decide

/-- V-S9, `sh x2, -2(x0)` (R135). -/
theorem test_sh_last_two_bytes :
    let t := after (start 0xFE201F23 [(2, 0x00005678)])
    t.pc = 0x00010004 ∧ t.mem.readByte 0xFFFFFFFE = 0x78 ∧ t.mem.readByte 0xFFFFFFFF = 0x56 := by decide

/-- V-S5, `sw x2, 1(x1)` (R136). -/
theorem test_sw_misaligned :
    let t := after (start 0x0020A0A3 [(1, 0x00020000), (2, 0x11223344)])
    t.pc = 0x00010004 ∧ t.mem.readByte 0x00020001 = 0x44 ∧ t.mem.readByte 0x00020002 = 0x33 := by decide

/-- V-S7, `sw x0, 0(x1)` (R136). -/
theorem test_sw_of_x0_clears :
    let t := after (startWith Params.default 0x0000A023 [(1, 0x00020000)] [(0x00020000, 0xFFFFFFFF)])
    t.pc = 0x00010004 ∧ t.readReg 0 = 0 ∧ t.mem.readByte 0x00020000 = 0x00 ∧ t.mem.readByte 0x00020001 = 0x00 := by decide

/-! ### Stops: the same vectors' frozen states -/

/-- V-L19, `lh x5, -1(x0)` (R130, R141). -/
theorem test_lh_out_of_range :
    let t := after (start 0xFFF01283 [])
    t.stop = .fault (.accessOutOfRange 0xFFFFFFFF .half) ∧ t.fsm = .memory ∧ t.pc = 0x00010000 := by decide

/-- V-L20, `lw x5, -2(x0)` (R131, R141). -/
theorem test_lw_out_of_range :
    let t := after (start 0xFFE02283 [])
    t.stop = .fault (.accessOutOfRange 0xFFFFFFFE .word) ∧ t.fsm = .memory ∧ t.pc = 0x00010000 := by decide

/-- V-L21, `lh x5, 1(x1)` (R130, R143). -/
theorem test_lh_trap_mode :
    let t := after (startWith { Params.default with fetchAlign := .exact, misalignedDataTrap := true, textStart := 0x00010000 } 0x00109283 [(1, 0x00020000)] [(0x00020000, 0x8001FF7F)])
    t.stop = .fault (.misalignedAccess 0x00020001 .half) ∧ t.fsm = .memory ∧ t.pc = 0x00010000 := by decide

/-- V-L23, `lh x5, -1(x0)` (R130, R143). -/
theorem test_lh_alignment_is_checked_first :
    let t := after (startWith { Params.default with fetchAlign := .exact, misalignedDataTrap := true, textStart := 0x00010000 } 0xFFF01283 [] [])
    t.stop = .fault (.misalignedAccess 0xFFFFFFFF .half) ∧ t.fsm = .memory ∧ t.pc = 0x00010000 := by decide

/-- V-S8, `sh x2, -1(x0)` (R135, R141). -/
theorem test_sh_out_of_range :
    let t := after (start 0xFE201FA3 [(2, 0x00005678)])
    t.stop = .fault (.accessOutOfRange 0xFFFFFFFF .half) ∧ t.fsm = .memory ∧ t.pc = 0x00010000 ∧ t.mem = (start 0xFE201FA3 [(2, 0x00005678)]).mem := by decide

/-- V-S11, `sw x2, 2(x1)` (R136, R143). -/
theorem test_sw_trap_mode :
    let t := after (startWith { Params.default with fetchAlign := .exact, misalignedDataTrap := true, textStart := 0x00010000 } 0x0020A123 [(1, 0x00020000), (2, 0x00005678)] [])
    t.stop = .fault (.misalignedAccess 0x00020002 .word) ∧ t.fsm = .memory ∧ t.pc = 0x00010000 ∧ t.mem = (startWith { Params.default with fetchAlign := .exact, misalignedDataTrap := true, textStart := 0x00010000 } 0x0020A123 [(1, 0x00020000), (2, 0x00005678)] []).mem := by decide

/-- V-X1, `.word 0x00000000` (R139). -/
theorem test_zero_word_ends_the_run :
    let t := after (start 0x00000000 [])
    t.stop = .endOfProgram ∧ t.fsm = .decode ∧ t.pc = 0x00010000 ∧ t.ir = 0x00000000 := by decide

/-- V-X3, `.word 0x02208033` (R140). -/
theorem test_multiply_is_undefined :
    let t := after (start 0x02208033 [])
    t.stop = .fault (.undefinedDecode 0x02208033) ∧ t.fsm = .decode ∧ t.pc = 0x00010000 ∧ t.ir = 0x02208033 := by decide

/-- V-X7, `.word 0x0FF0000F` (R140). -/
theorem test_fence_is_undefined :
    let t := after (start 0x0FF0000F [])
    t.stop = .fault (.undefinedDecode 0x0FF0000F) ∧ t.fsm = .decode ∧ t.pc = 0x00010000 ∧ t.ir = 0x0FF0000F := by decide

/-- V-X8, `.word 0x00000073` (R140). -/
theorem test_ecall_is_undefined :
    let t := after (start 0x00000073 [])
    t.stop = .fault (.undefinedDecode 0x00000073) ∧ t.fsm = .decode ∧ t.pc = 0x00010000 ∧ t.ir = 0x00000073 := by decide

/-- V-X6, `.word 0x00001067` (R140). -/
theorem test_jalr_funct3_is_undefined :
    let t := after (start 0x00001067 [])
    t.stop = .fault (.undefinedDecode 0x00001067) ∧ t.fsm = .decode ∧ t.pc = 0x00010000 ∧ t.ir = 0x00001067 := by decide

/-- V-B21: the branch completes, the next fetch stops (R142). -/
theorem test_misaligned_target_stops_the_next_fetch :
    let t := after (after (startWith { Params.default with fetchAlign := .trap } 0x00000363 [] []))
    t.stop = .fault (.misalignedFetch 0x00010006) ∧ t.fsm = .fetch ∧ t.pc = 0x00010006 := by decide

/-- V-J10: JALR completes, the next fetch would cross the top (R141). -/
theorem test_fetch_across_the_top_stops :
    let t := after (after (start 0xFFF082E7 []))
    t.stop = .fault (.accessOutOfRange 0xFFFFFFFF .word) ∧ t.readReg 5 = 0x00010004 ∧ t.pc = 0xFFFFFFFF := by decide

/-- V-J12: under AlignDown the fetch at 2 reads the zero word at 0 (R44). -/
theorem test_alignDown_fetch :
    let t := after (after (startWith { Params.default with fetchAlign := .alignDown } 0x00200067 [] []))
    t.stop = .endOfProgram ∧ t.pc = 0x00000002 := by decide

/-- V-S12: the stored word is the next instruction (20_memory.md R51). -/
theorem test_stored_code_runs :
    (after (after (start 0x0020A223 [(1, 0x00010000), (2, 0x00700293)]))).readReg 5 = 7 := by decide

/-- A stopped core repeats its outcome (60_exceptions.md R138, log 3). -/
theorem test_stopped_core_repeats :
    after (after (start 0x00000000 [])) = after (start 0x00000000 []) ∧
    (match step (after (start 0x00000073 [])) with
      | .next _ => false
      | .fault r => r == .undefinedDecode 0x00000073
      | .refused _ => false) = true := by decide

/-- Trace T2, ticks 3 to 5 (95_test_vectors.md Part 2). -/
theorem test_trace_of_a_load :
    let s := startWith Params.default 0x0000A283 [(1, 0x00020000)] [(0x00020000, 0xCAFEF00D)]
    (ticks 3 s).aluOut = 0x00020000 ∧ (ticks 3 s).memReadData = 0x0000A283 ∧
    (ticks 4 s).memReadData = 0xCAFEF00D ∧ (ticks 4 s).readReg 5 = 0 ∧
    (ticks 5 s).memReadData = 0x0000A283 ∧ (ticks 5 s).readReg 5 = 0xCAFEF00D ∧ (ticks 5 s).pc = 0x00010004 := by
  decide

/-- Scenario S1 halts on tick 7 and not before (95_test_vectors.md 1.2, 70_reset_and_hazards.md R164). -/
theorem test_run_ends_on_tick_seven :
    run 6 (start 0xFFF00293 []) = none ∧ (run 7 (start 0xFFF00293 [])).map Prod.snd = some .done := by decide

/-- withFetchWord places the word the very next step runs. -/
theorem test_withFetchWord_runs_next : (after (State.reset.withFetchWord 32 0xFFF00293)).readReg 5 = 0xFFFFFFFF := by
  decide

/-- From reset with nothing placed, the first step halts on an unwritten zero word (60_exceptions.md R139). -/
theorem test_reset_halts : (after State.reset).stop = .endOfProgram := by decide

/-! ### The host's calls (70_reset_and_hazards.md R157, R158) -/

theorem test_setCode_refuses_a_program_too_long :
    (setCode [0x00000013] (State.resetWith { Params.default with textStart := 0xFFFFFFFD })).error = some .doesNotFit := by
  decide
theorem test_setRegisters_refuses_a_value_for_x0 :
    (setRegisters [(1, 7), (0, 5)] State.reset).error = some (.invalidEntry 0 5) ∧
    (setRegisters [(1, 7), (0, 5)] State.reset).state = State.reset := by decide
theorem test_setRegisters_overrides_sp : ((setRegisters [(2, 7)] State.reset).state).readReg 2 = 7 := by decide
theorem test_construct_reports_both_errors :
    (construct { Params.default with textStart := 0xFFFFFFFD } (some [0]) (some [(32, 0)])).2 =
      [.doesNotFit, .invalidEntry 32 0] := by decide

/-! ### Witnesses: the hypotheses of the statements are met

Each names the statement; one that has several clauses gets a witness for each, at a boundary value. -/

/-- `addi x5, x0, -1` then zero words: a running core in FETCH. -/
def sample : State := start 0xFFF00293 []

theorem sample_inv : sample.Inv :=
  ⟨by decide, by decide, by decide, fun _ => by decide, fun _ h => absurd (by decide) h, by decide⟩

/-- TickKeepsInvariant, StopsArePrecise, LatchLoadedOnlyInDecode, AluWrittenOnlyInExecute: a running core in the
middle of an instruction has the invariant. -/
theorem witness_invariant_midway :
    (ticks 2 sample).Inv ∧ (ticks 2 sample).Running ∧ (ticks 2 sample).fsm = .execute ∧
    opcodeOf (ticks 2 sample).ir ≠ 0b0110111#7 :=
  ⟨⟨by decide, by decide, by decide, fun _ => by decide, fun _ _ => by decide, by decide⟩, by decide⟩

/-- The same four: in DECODE, and with no early stop to come. -/
theorem witness_invariant_decode :
    (ticks 1 sample).Inv ∧ (ticks 1 sample).Running ∧ (ticks 1 sample).fsm = .decode ∧
    accepted (ticks 1 sample).memReadData = true :=
  ⟨⟨by decide, by decide, by decide, fun _ => by decide, fun _ _ => by decide, by decide⟩, by decide⟩

/-- AluWrittenOnlyInExecute: an EXECUTE cycle of LUI (V-I22). -/
theorem witness_lui_execute :
    (ticks 2 (start 0xFFFFF2B7 [])).Inv ∧ (ticks 2 (start 0xFFFFF2B7 [])).Running ∧
    (ticks 2 (start 0xFFFFF2B7 [])).fsm = .execute ∧ opcodeOf (ticks 2 (start 0xFFFFF2B7 [])).ir = 0b0110111#7 :=
  ⟨⟨by decide, by decide, by decide, fun _ => by decide, fun _ _ => by decide, by decide⟩, by decide⟩

/-- StepKeepsInvariant: a state with the invariant whose step answers next. -/
theorem witness_stepKeepsInvariant : sample.Inv ∧ ∃ t, step sample = .next t := ⟨sample_inv, _, rfl⟩

/-- RegisterZeroHardwired. -/
theorem witness_registerZero : sample.ZeroOk ∧ ∃ t, step sample = .next t := ⟨by decide, _, rfl⟩

/-- ParametersNeverChange. -/
theorem witness_parameters : ∃ t, step sample = .next t := ⟨_, rfl⟩

/-- DecodeOfEncode: offsets at both ends of their range, and an instruction without one. -/
theorem witness_decodeOfEncode :
    (Instr.beq 31 31 0x0FFE).wf = true ∧ (Instr.bgeu 0 31 0x1000).wf = true ∧ (Instr.jal 31 0x100000).wf = true ∧
    (Instr.sra 31 31 31).wf = true ∧ Instr.sentinel.wf = true := by decide

/-- EncodeOfDecode. -/
theorem witness_encodeOfDecode : decode 0xFE20AC23 = .ok (.sw 2 1 0xFF8) ∧ decode 0 = .ok .sentinel := by decide

/-- DecodeFollowsTheOpcodeTable: a nonzero word of a row, and one of none. -/
theorem witness_decodeFollowsTheOpcodeTable :
    (0xFE20AC23 : Word) ≠ 0 ∧ (opcodeTable.any fun r => r.accepts 0xFE20AC23) = true ∧
    decode 0xFE20AC23 = .ok (.sw 2 1 0xFF8) ∧ (opcodeTable.any fun r => r.accepts 0x02208033) = false := by decide

/-- OpcodeRowsDisjoint: the two rows are the same row. -/
theorem witness_opcodeRowsDisjoint :
    ∃ r, r ∈ opcodeTable ∧ r.accepts 0x402081B3 = true := by decide

/-- AbsentInstructionsRejected: FENCE, an AMO, SYSTEM, and low bits other than 11. -/
theorem witness_absentInstructionsRejected :
    opcodeOf 0x0FF0000F = 0b0001111#7 ∧ opcodeOf 0x0000202F = 0b0101111#7 ∧ opcodeOf 0x00000073 = 0b1110011#7 ∧
    (0x00000001 : Word).extractLsb' 0 2 ≠ 0b11#2 ∧ opcodeOf 0xFFFFFFFF ∉ supportedOpcodes := by decide

/-- ImmediateTable: a word for each clause. -/
theorem witness_immediateTable :
    opcodeOf 0xFFF00283 = 0b0000011#7 ∧ opcodeOf 0xFFF00293 = 0b0010011#7 ∧ opcodeOf 0xFFF082E7 = 0b1100111#7 ∧
    opcodeOf 0xFE20AC23 = 0b0100011#7 ∧ opcodeOf 0x80000063 = 0b1100011#7 ∧ opcodeOf 0xFFFFF297 = 0b0010111#7 ∧
    opcodeOf 0xFFFFF2B7 = 0b0110111#7 ∧ opcodeOf 0x800000EF = 0b1101111#7 ∧ opcodeOf 0x002081B3 = 0b0110011#7 ∧
    opcodeOf 0x0FF0000F ∉ supportedOpcodes := by decide

/-- ImmediateTable: a FETCH cycle, without an early stop, with a latched word no row of the table matches. -/
theorem witness_noImmediateRow :
    opcodeOf ({ State.reset with ir := 0x0000000F } : State).ir ∉ supportedOpcodes ∧
    (({ State.reset with ir := 0x0000000F } : State).control.any fun c =>
      (({ State.reset with ir := 0x0000000F } : State).earlyStop c).isNone) = true := by decide

/-- OpImmInstructions: a left shift's word with another funct7. -/
theorem witness_slliFunct7 : 0b0100000#7 ≠ 0b0000000#7 ∧ accepted 0x40009293 = false := by decide

/-- AcceptedWordsMatchEveryTable. -/
theorem witness_acceptedWords : accepted 0x800000EF = true ∧ accepted 0x00000037 = true := by decide

/-- MemReadIsLittleEndian, MemWriteStoresExactlyItsBytes: the last word in range, the first out of it. -/
theorem witness_memory_ranges :
    (0xFFFFFFFC : Word).toNat + AccessSize.word.bytes ≤ 4294967296 ∧
    4294967296 < (0xFFFFFFFD : Word).toNat + AccessSize.word.bytes ∧
    (0xFFFFFFFF : Word).toNat + AccessSize.byte.bytes ≤ 4294967296 ∧ Memory.wf sample.mem = true := by decide

/-- MixedWidthAccessesAreLittleEndian: a misaligned word store, and the last word. -/
theorem witness_mixedWidth :
    Memory.wf [] = true ∧ (∃ m, memWrite [] 0x00020001 .word 0x11223344 = .ok m) ∧
    ∃ m, memWrite [] 0xFFFFFFFC .word 0x11223344 = .ok m :=
  ⟨by decide, ⟨_, rfl⟩, _, rfl⟩

/-- StoreSeenByNextFetch: V-S12's store of the next word. -/
theorem witness_storeSeenByNextFetch :
    (start 0x0020A223 [(1, 0x00010000), (2, 0x00700293)]).MemOk ∧
    ∃ t, exec (.sw 2 1 4) (start 0x0020A223 [(1, 0x00010000), (2, 0x00700293)]) = .next t ∧ t.stop = .none ∧
      t.fsm = .fetch ∧ t.fetchAddr = 0x00010000 + (4 : BitVec 12).signExtend 32 :=
  ⟨by decide, _, rfl, by decide⟩

/-- OnlyStoresChangeMemory. -/
theorem witness_onlyStores : isStore (.lw 5 1 0) = false ∧ ∃ t, exec (.lw 5 1 0) sample = .next t := ⟨by decide, _, rfl⟩

/-- AluComputesItsTable: a control with `aluCalc` and one without. -/
theorem witness_aluCalc :
    (executeControl 0x002081B3).any (fun c => c.aluCalc) = true ∧
    (executeControl 0xFFFFF2B7).any (fun c => !c.aluCalc) = true := by decide

/-- BranchTablesDecideTheComparison: a branch word of each funct3 drives both tables. -/
theorem witness_branchTables :
    ([0x00208463, 0x00209463, 0x0020C463, 0x0020D463, 0x0020E463, 0x0020F463] : List Word).all (fun w =>
      opcodeOf w = 0b1100011#7 && (executeControl w).isSome && (writebackControl w).isSome) = true ∧
    ([0x00208463, 0x00209463, 0x0020C463, 0x0020D463, 0x0020E463, 0x0020F463] : List Word).map funct3Of =
      [0b000#3, 0b001#3, 0b100#3, 0b101#3, 0b110#3, 0b111#3] := by decide

/-- BranchInstructions: operands for which each comparison holds and fails. -/
theorem witness_branches :
    (Instr.beq 1 2 0x1000).wf = true ∧ (start 0 [(1, 5), (4, 5)]).readReg 1 = 5 ∧
    (start 0 [(1, 5), (4, 5)]).readReg 4 = 5 ∧ (start 0 [(1, 5), (4, 6)]).readReg 4 = 6 ∧
    (0x80000000 : Word).toInt < (0x7FFFFFFF : Word).toInt ∧ (0x7FFFFFFF : Word).toNat < (0x80000000 : Word).toNat := by
  decide

/-- JumpInstructions. -/
theorem witness_jumps : jumpOffsetOk 0x100000 = true ∧ jumpOffsetOk 0x0FFFFE = true ∧ 0b001#3 ≠ 0b000#3 := by decide

/-- ByteLoads, ByteStore: the last byte of memory. -/
theorem witness_bytes :
    (0xFFFFFFFF : Word) = sample.readReg 0 + (0xFFF : BitVec 12).signExtend 32 ∧ sample.MemOk := by decide

/-- HalfAndWordLoads, HalfAndWordStores: the three cases of an access, each at a boundary (V-L23, V-L20, V-S9). -/
theorem witness_accessCases :
    let trapping := startWith { Params.default with misalignedDataTrap := true } 0 [] []
    (trapping.params.misalignedDataTrap = true ∧ (0xFFFFFFFF : Word).toNat % AccessSize.half.bytes ≠ 0) ∧
    (¬(sample.params.misalignedDataTrap = true ∧ (0xFFFFFFFD : Word).toNat % AccessSize.word.bytes ≠ 0) ∧
      4294967296 < (0xFFFFFFFD : Word).toNat + AccessSize.word.bytes) ∧
    (¬(trapping.params.misalignedDataTrap = true ∧ (0xFFFFFFFC : Word).toNat % AccessSize.word.bytes ≠ 0) ∧
      (0xFFFFFFFC : Word).toNat + AccessSize.word.bytes ≤ 4294967296) ∧
    (0xFFFFFFFC : Word) = trapping.readReg 0 + (0xFFC : BitVec 12).signExtend 32 ∧ trapping.MemOk := by decide

/-- TickAdvancesFsm, RunTicksUntilTermination: a tick that keeps the core running, from WRITEBACK, and one that
stops it. -/
theorem witness_tickAdvancesFsm :
    (ticks 4 sample).Running ∧ (ticks 4 sample).fsm = .writeback ∧ (tickState (ticks 4 sample)).Running ∧
    (ticks 6 sample).Running ∧ ¬(tickState (ticks 6 sample)).Running := by decide

/-- RunTicksUntilTermination: a run that ends. -/
theorem witness_runTicks : sample.Running ∧ ∃ t, run 7 sample = some (t, .done) := ⟨by decide, _, rfl⟩

/-- PcLoadedOnlyInWriteback, RegistersWrittenOnlyInWriteback: cycles with a control row, one of which changes a
register. -/
theorem witness_registersWritten :
    (ticks 2 sample).fsm ≠ .writeback ∧ (ticks 2 sample).control.isSome = true ∧
    (ticks 4 sample).control.any (fun c => c.regWrite) = true ∧
    (tickState (ticks 4 sample)).readReg 5 ≠ (ticks 4 sample).readReg 5 := by decide

/-- LatchLoadedOnlyInDecode: two states with the same latch. -/
theorem witness_sameLatch : (ticks 2 sample).ir = (ticks 4 sample).ir ∧ ticks 2 sample ≠ ticks 4 sample := by decide

/-- StopsArePrecise: a running state with the invariant whose tick stops the core, in DECODE and in MEMORY. -/
theorem witness_stopsArePrecise :
    ((ticks 1 (start 0x0FF0000F [])).Inv ∧ (ticks 1 (start 0x0FF0000F [])).Running ∧
      ¬(tickState (ticks 1 (start 0x0FF0000F []))).Running) ∧
    ((ticks 3 (start 0xFFE02283 [])).Inv ∧ (ticks 3 (start 0xFFE02283 [])).Running ∧
      ¬(tickState (ticks 3 (start 0xFFE02283 []))).Running) :=
  ⟨⟨⟨by decide, by decide, by decide, fun _ => by decide, fun _ _ => by decide, by decide⟩, by decide, by decide⟩,
    ⟨by decide, by decide, by decide, fun _ => by decide, fun _ _ => by decide, by decide⟩, by decide, by decide⟩

/-- FaultsHaveExactCauses: each of its five causes (V-J11, V-J10, V-X7, V-L23, V-L20). -/
theorem witness_faultsHaveExactCauses :
    (let s := startWith { Params.default with fetchAlign := .trap, textStart := 2 } 0 [] [];
      s.Running ∧ s.fsm = .fetch ∧ s.fetchTraps = true) ∧
    (let s := startWith { Params.default with textStart := 0xFFFFFFFD } 0 [] [];
      s.Running ∧ s.fsm = .fetch ∧ s.fetchTraps = false ∧ inRange s.fetchAddr .word = false) ∧
    (let s := ticks 1 (start 0x0FF0000F []);
      s.Running ∧ s.fsm = .decode ∧ s.memReadData ≠ 0 ∧ accepted s.memReadData = false) ∧
    (let s := ticks 3 (startWith { Params.default with misalignedDataTrap := true } 0xFFF01283 [] []);
      s.Running ∧ s.fsm = .memory ∧ latchedSize s.ir = some .half ∧ s.accessTraps s.aluOut .half = true) ∧
    (let s := ticks 3 (start 0xFFE02283 []);
      s.Running ∧ s.fsm = .memory ∧ latchedSize s.ir = some .word ∧ s.accessTraps s.aluOut .word = false ∧
        inRange s.aluOut .word = false) := by decide

/-- SentinelEndsTheRun: a DECODE of the zero word, and a step at one. -/
theorem witness_sentinel :
    ((ticks 6 sample).Running ∧ (ticks 6 sample).fsm = .decode ∧ (ticks 6 sample).memReadData = 0) ∧
    (State.reset.Running ∧ State.reset.fsm = .fetch ∧ State.reset.fetchTraps = false) ∧
    memRead State.reset.mem State.reset.fetchAddr .word = .ok 0 :=
  ⟨by decide, by decide, rfl⟩

/-- UndefinedDecodeStopsTheStep (V-X3). -/
theorem witness_undefinedDecode :
    (start 0x02208033 []).Running ∧ (start 0x02208033 []).fsm = .fetch ∧ (start 0x02208033 []).fetchTraps = false ∧
    memRead (start 0x02208033 []).mem (start 0x02208033 []).fetchAddr .word = .ok 0x02208033 ∧
    accepted 0x02208033 = false :=
  ⟨by decide, by decide, by decide, rfl, by decide⟩

/-- FetchStops: a trapping `pc`, and the first `pc` at which an exact fetch would cross the top. -/
theorem witness_fetchStops :
    (let s := startWith { Params.default with fetchAlign := .trap, textStart := 2 } 0 [] [];
      s.Running ∧ s.fsm = .fetch ∧ s.params.fetchAlign = .trap ∧ s.pc.toNat % 4 ≠ 0) ∧
    (let s := startWith { Params.default with textStart := 0xFFFFFFFD } 0 [] [];
      s.Running ∧ s.fsm = .fetch ∧ s.params.fetchAlign = .exact ∧ 0xFFFFFFFD ≤ s.pc.toNat) := by decide

/-- StoppedCoreIsQuiescent: a completed core and a faulted one. -/
theorem witness_stoppedCore :
    ¬(after State.reset).Running ∧ (after State.reset).Completed ∧
    (after (start 0x00000073 [])).stop = .fault (.undefinedDecode 0x00000073) := by decide

/-- StepRunsTheDecodedInstruction, StepIsFiveTicks, InternalRegistersAreUnobservable: a running core in FETCH at
an instruction's word. -/
theorem witness_step :
    sample.Inv ∧ sample.Running ∧ sample.fsm = .fetch ∧ sample.fetchTraps = false ∧
    memRead sample.mem sample.fetchAddr .word = .ok 0xFFF00293 ∧ decode 0xFFF00293 = .ok (.addi 5 0 0xFFF) :=
  ⟨sample_inv, by decide, by decide, by decide, rfl, by decide⟩

/-- InstructionsAreRunsOfTicks, HaltsOnTickFiveNPlusTwo: one instruction, then a zero word. -/
theorem witness_runs :
    sample.Inv ∧ sample.Running ∧ sample.fsm = .fetch ∧ ∃ t, core.run 1 sample = .next t ∧ t.Running ∧
      t.fetchTraps = false ∧ memRead t.mem t.fetchAddr .word = .ok 0 :=
  ⟨sample_inv, by decide, by decide, _, rfl, by decide, by decide, rfl⟩

/-- InternalRegistersAreUnobservable: two states that agree on the architectural part and differ beside it. -/
theorem witness_unobservable :
    sample.MemOk ∧ SameArch sample { sample with aluOut := 7, memReadData := 9, started := true } ∧
    sample ≠ { sample with aluOut := 7, memReadData := 9, started := true } :=
  ⟨by decide, ⟨rfl, rfl, fun _ => rfl, fun _ => rfl⟩, by decide⟩

/-- SetCodeLoadsTheProgram: the last address at which one word fits, and the first at which it does not. -/
theorem witness_setCode :
    (State.resetWith { Params.default with textStart := 0xFFFFFFFC }).started = false ∧
    (State.resetWith { Params.default with textStart := 0xFFFFFFFC }).MemOk ∧
    (0xFFFFFFFC : Word).toNat + 4 * [(0 : Word)].length ≤ 4294967296 ∧
    4294967296 < (0xFFFFFFFD : Word).toNat + 4 * [(0 : Word)].length := by decide

/-- SetRegistersSetsTheMap: an admitted map at the ends of its ranges, and a refused one. -/
theorem witness_setRegisters :
    State.reset.started = false ∧
    (∀ e ∈ [((31 : Int), (4294967295 : Int)), (0, 0)],
      0 ≤ e.1 ∧ e.1 < 32 ∧ 0 ≤ e.2 ∧ e.2 < 4294967296 ∧ (e.1 = 0 → e.2 = 0)) ∧
    ([((31 : Int), (4294967295 : Int)), (0, 0)].map Prod.fst).Nodup ∧
    (setRegisters [(0, 1)] State.reset).error = some (.invalidEntry 0 1) ∧
    (setRegisters [(1, 1), (1, 2)] State.reset).error = some .repeatedKey := by decide

/-- SettersRefusedAfterTheFirstTick. -/
theorem witness_started : sample.Running ∧ (∃ t, step sample = .next t) ∧ (tickState sample).started = true :=
  ⟨by decide, ⟨_, rfl⟩, by decide⟩

/-- ConstructedCoreRunsItsFirstWord: the default parameters, and the last TEXT_START that holds two words. -/
theorem witness_construct :
    decode 0xFFF00293 = .ok (.addi 5 0 0xFFF) ∧ Params.default.textStart.toNat % 4 = 0 ∧
    Params.default.textStart.toNat + 4 * ([(0 : Word)].length + 1) ≤ 4294967296 ∧
    (0xFFFFFFF8 : Word).toNat % 4 = 0 ∧ (0xFFFFFFF8 : Word).toNat + 4 * ([(0 : Word)].length + 1) ≤ 4294967296 := by
  decide

/-- AccessorsShowTheState: `sb x0` over a written byte leaves it among the bytes the host's iteration gives, with
the value zero (R134, R160), and a program's zero word is among them too (R157). -/
theorem test_sparse_iteration_lists_written_zeros :
    (after (start 0x00008023 [(1, 0x00010001)])).view.ram =
      [(0x10000, 0x23), (0x10001, 0x00), (0x10002, 0x00), (0x10003, 0x00)] ∧
    (setCode [0x00000000] State.reset).state.view.ram =
      [(0x10000, 0x00), (0x10001, 0x00), (0x10002, 0x00), (0x10003, 0x00)] ∧ State.reset.view.ram = [] := by decide

/-- AccessorsShowTheState: a state with written bytes. -/
theorem witness_accessors : sample.WrittenOk ∧ 0x10000 ∈ sample.written ∧ 0x10004 ∉ sample.written := by decide

/-- StoresMarkTheirBytesWritten: the admitted access at the top of memory and both that are turned away (V-S9). -/
theorem witness_storesMark :
    (0xFFFFFFFC : Word) = sample.readReg 0 + (0xFFC : BitVec 12).signExtend 32 ∧
    (0xFFFFFFFC : Word).toNat + AccessSize.word.bytes ≤ 4294967296 ∧
    4294967296 < (0xFFFFFFFD : Word).toNat + AccessSize.word.bytes ∧
    ((startWith { Params.default with misalignedDataTrap := true } 0 [] []).params.misalignedDataTrap = true ∧
      (0xFFFFFFFF : Word).toNat % AccessSize.half.bytes ≠ 0) := by decide

/-- BytesBecomeWrittenOnlyInMemory: the MEMORY cycle of `sw x0, 0(x1)` marks the four bytes it stores. -/
theorem witness_bytesBecomeWritten :
    (ticks 3 (start 0x0000A023 [(1, 0x00020000)])).Inv ∧ (ticks 3 (start 0x0000A023 [(1, 0x00020000)])).Running ∧
    0x20003 ∉ (ticks 3 (start 0x0000A023 [(1, 0x00020000)])).written ∧
    0x20003 ∈ (tickState (ticks 3 (start 0x0000A023 [(1, 0x00020000)]))).written :=
  ⟨⟨by decide, by decide, by decide, fun _ => by decide, fun _ _ => by decide, by decide⟩, by decide⟩

/-- HostCallsKeepInvariant: a state with the invariant whose calls are admitted, and one whose calls are refused. -/
theorem witness_hostCalls :
    State.reset.Inv ∧ State.reset.started = false ∧ (ticks 1 sample).Inv ∧ (ticks 1 sample).started = true :=
  ⟨⟨by decide, by decide, by decide, fun _ => by decide, fun _ h => absurd rfl h, by decide⟩, by decide,
    ⟨by decide, by decide, by decide, fun _ => by decide, fun _ _ => by decide, by decide⟩, by decide⟩

end Sys2Proof.Tests
end

section
/-! The parameters through a cycle, a tick, a run of ticks, a meaning and a step (spec/00_scope.md R9). -/

namespace Sys2Proof.Machine

/-! ### Cycles and ticks -/

@[simp] theorem commit_params (s : State) (c : Control) (g : Signals) (ram : RamResult) :
    (s.commit c g ram).params = s.params := (commit_fields s c g ram).1

@[simp] theorem cycle_params (s : State) : (cycle s).params = s.params := by
  rcases cycle_cases s with ⟨r, -, h⟩ | ⟨-, r, -, h⟩ | ⟨c, imm, ram, -, -, -, -, h⟩
  · rw [h, State.raiseStop_params]
  · rw [h, State.raiseStop_params]
  · rw [h, commit_params]

@[simp] theorem tickState_params (s : State) : (tickState s).params = s.params := by
  by_cases h : s.Running
  · rw [tickState_running h, cycle_params]
  · rw [tickState_stopped h]

@[simp] theorem ticks_params (n : Nat) (s : State) : (ticks n s).params = s.params := by
  induction n generalizing s with
  | zero => rfl
  | succ n ih => rw [ticks_succ, ih, tickState_params]

/-! ### Steps -/

theorem fetchDecode_stopped_params {s t : State} (h : s.fetchDecode = .stopped t) : t.params = s.params := by
  rcases fetchDecode_cases s with ⟨r, -, e⟩ | ⟨w, r, -, e⟩ | ⟨w, i, -, -, -, e⟩ <;> cases e.symm.trans h
  · exact State.raiseStop_params ..
  · exact (State.raiseStop_params ..).trans (State.latch_params ..)

theorem fetchDecode_instr_params {s t : State} {i : Instr} (h : s.fetchDecode = .instr i t) :
    t.params = s.params := by
  rcases fetchDecode_cases s with ⟨r, -, e⟩ | ⟨w, r, -, e⟩ | ⟨w, i, -, -, -, e⟩ <;> cases e.symm.trans h
  exact State.latch_params ..

theorem exec_params {i : Instr} {s t : State} (h : exec i s = .next t) : t.params = s.params := by
  rcases exec_cases h with ⟨rd, v, a, p, z, rfl, -⟩ | ⟨-, a, v, size, m, -, rfl⟩ | ⟨a, f, rfl⟩ | ⟨-, rfl⟩
  · exact State.writeReg_params ..
  all_goals rfl

theorem step_params {s t : State} (h : step s = .next t) : t.params = s.params := by
  rcases step_cases h with ⟨-, rfl⟩ | ⟨-, -, n, rfl⟩ | ⟨-, -, hstop | ⟨i, u, hinstr, hexec⟩⟩
  · rfl
  · exact ticks_params n s
  · exact fetchDecode_stopped_params hstop
  · exact (exec_params hexec).trans (fetchDecode_instr_params hinstr)

/-- Settles O6: one cycle keeps the parameters, so ticks do; a step is a stopped core's, some ticks, or a fetch
and the meaning of what it decodes. -/
theorem parametersNeverChange : Obligations.ParametersNeverChange :=
  fun s => ⟨tickState_params s, fun _ => step_params⟩

end Sys2Proof.Machine
end

section
/-! The opcodes of accepted words, and the one place each control signal is asserted (spec/40_datapath_cycle.md R70 to R79). -/

namespace Sys2Proof.Machine

/-! ### Accepted words -/

/-- The decoder accepts words of the nine opcodes only (spec/30_encoding.md R58, R60). -/
theorem opcodeOf_mem_of_accepted {w : Word} (h : accepted w = true) : opcodeOf w ∈ supportedOpcodes := by
  obtain ⟨i, hd, hi⟩ := decode_of_accepted h
  have hw : w ≠ 0 := by
    rintro rfl
    exact hi (Except.ok.inj hd).symm
  rw [decode, if_neg hw, decodeNonzero] at hd
  split at hd
  case h_10 => cases hd
  all_goals rename_i hop; rw [hop]; decide

/-- Every supported opcode has a row in the immediate table. -/
theorem immTable_total : ∀ op ∈ supportedOpcodes, (lookup immTable op).isSome = true := by decide

theorem immOf_of_accepted {w : Word} (h : accepted w = true) : ∃ imm, immOf w = some imm := by
  obtain ⟨f, hf⟩ := Option.isSome_iff_exists.mp (immTable_total _ (opcodeOf_mem_of_accepted h))
  exact ⟨f w, by rw [immOf, hf, Option.map_some]⟩

/-! ### Where a control signal is asserted -/

/-- `loadPC` is WRITEBACK's. -/
theorem control_loadPC {s : State} {c : Control} (h : s.control = some c) :
    c.loadPC = true ↔ s.fsm = .writeback := by
  rcases control_cases h with ⟨hf, rfl⟩ | ⟨hf, rfl⟩ | ⟨hf, -, -, -, -, hc, -⟩ | ⟨hf, -, -, -, -, hc⟩ |
    ⟨hf, -, -, -, -, hc, -⟩
  · simp [hf, Control.defaults]
  · simp [hf, Control.defaults]
  all_goals simp [hf, hc]

/-- `loadInstr` is DECODE's. -/
theorem control_loadInstr {s : State} {c : Control} (h : s.control = some c) :
    c.loadInstr = true ↔ s.fsm = .decode := by
  rcases control_cases h with ⟨hf, rfl⟩ | ⟨hf, rfl⟩ | ⟨hf, -, hc, -⟩ | ⟨hf, -, hc, -⟩ | ⟨hf, -, hc, -⟩
  · simp [hf, Control.defaults]
  · simp [hf]
  all_goals simp [hf, hc]

/-- Only the writing opcodes have a writeback row that writes a register. -/
theorem writebackTable_writes :
    ∀ op : BitVec 7, ((lookup writebackTable op).any fun row => row.1) = true → op ∈ writingOpcodes := by decide

theorem writebackControl_regWrite {w : Word} {c : Control} (h : writebackControl w = some c)
    (hc : c.regWrite = true) : opcodeOf w ∈ writingOpcodes := by
  unfold writebackControl at h
  split at h
  · rename_i hrow _
    cases h
    exact writebackTable_writes _ (by simpa [hrow] using hc)
  · cases h

/-- `regWrite` is WRITEBACK's, for the writing opcodes. -/
theorem control_regWrite {s : State} {c : Control} (h : s.control = some c) (hc : c.regWrite = true) :
    s.fsm = .writeback ∧ opcodeOf s.ir ∈ writingOpcodes := by
  rcases control_cases h with ⟨-, rfl⟩ | ⟨-, rfl⟩ | ⟨-, -, -, -, hn, -⟩ | ⟨-, -, -, -, hn, -⟩ | ⟨hf, hw, -⟩
  · cases hc
  · cases hc
  · cases hn.symm.trans hc
  · cases hn.symm.trans hc
  · exact ⟨hf, writebackControl_regWrite hw hc⟩

/-- Of the supported opcodes' rows only LUI's leaves the ALU idle. -/
theorem aluSetupTable_aluCalc {op : BitVec 7} (h : op ∈ supportedOpcodes) (f3 : BitVec 3) (f7 : BitVec 7) :
    (lookup aluSetupTable op).map (fun row => (row f3 f7).aluCalc) = some (op != 0b0110111#7) := by
  simp only [supportedOpcodes, List.mem_cons, List.not_mem_nil, or_false] at h
  rcases h with rfl | rfl | rfl | rfl | rfl | rfl | rfl | rfl | rfl <;> rfl

theorem executeControl_aluCalc {w : Word} {c : Control} (hop : opcodeOf w ∈ supportedOpcodes)
    (h : executeControl w = some c) : c.aluCalc = true ↔ opcodeOf w ≠ 0b0110111#7 := by
  obtain ⟨row, hrow, rfl⟩ := Option.map_eq_some_iff.mp h
  have hcalc := aluSetupTable_aluCalc hop (funct3Of w) (funct7Of w)
  rw [hrow, Option.map_some, Option.some.injEq] at hcalc
  rw [← bne_iff_ne, ← hcalc]

/-- `aluCalc` is EXECUTE's, for every supported opcode but LUI. -/
theorem control_aluCalc {s : State} {c : Control} (hop : opcodeOf s.ir ∈ supportedOpcodes)
    (h : s.control = some c) : c.aluCalc = true ↔ s.fsm = .execute ∧ opcodeOf s.ir ≠ 0b0110111#7 := by
  rcases control_cases h with ⟨hf, rfl⟩ | ⟨hf, rfl⟩ | ⟨hf, hx, -⟩ | ⟨hf, -, -, hc, -⟩ | ⟨hf, -, -, -, hc, -⟩
  case inr.inr.inl => rw [executeControl_aluCalc hop hx, hf, eq_self, true_and]
  · simp [hf, Control.defaults]
  · simp [hf, Control.defaults]
  all_goals simp [hf, hc]

end Sys2Proof.Machine
end

section
/-! The state after reset (spec/10_state.md section 5). -/

namespace Sys2Proof.Machine

/-- Reset gives every register but the stack and the global pointer zero (R34). -/
theorem resetWith_readReg {p : Params} {r : RegIdx} (h2 : r ≠ 2) (h3 : r ≠ 3) :
    (State.resetWith p).readReg r = 0 := by
  have h2' : 2 ≠ r.val := fun e => h2 (Fin.ext e.symm)
  have h3' : 3 ≠ r.val := fun e => h3 (Fin.ext e.symm)
  simp [State.readReg, State.resetWith, resetRegs, Vector.getElem_set_ne, h2', h3']

/-- Settles O1: each field of `resetWith` as R34 gives it. -/
theorem resetState : Obligations.ResetState := by
  refine ⟨fun p => ⟨_, rfl, rfl, rfl, rfl, ?_, rfl, rfl, ?_, rfl, rfl, rfl, rfl, rfl, rfl, fun _ => rfl⟩, rfl⟩
  · show (0x00000013 : Word) = encode (.addi 0 0 0)
    decide
  · exact fun r => resetWith_readReg

/-- Settles O2: reset's memory and written set are empty, its latch holds the NOP word, and it is in FETCH. -/
theorem resetHasInvariant : Obligations.ResetHasInvariant := fun p =>
  have nop_accepted : accepted 0x00000013 = true := by decide
  { memOk := rfl
    zeroOk := rfl
    flagOk := rfl
    latchOk := fun _ => nop_accepted
    midwayOk := fun _ hf => absurd rfl hf
    writtenOk := ⟨rfl, fun _ hc => absurd hc List.not_mem_nil⟩ }

end Sys2Proof.Machine
end

section
/-! The storage behind register 0, which no cycle, meaning or step writes (spec/10_state.md R17). -/

namespace Sys2Proof.Machine

@[simp] theorem cycle_slot_zero (s : State) : (cycle s).x[0] = s.x[0] := by
  rcases cycle_cases s with ⟨r, -, h⟩ | ⟨-, r, -, h⟩ | ⟨c, imm, ram, -, -, -, -, h⟩
  · rw [h, State.raiseStop_x]
  · rw [h, State.raiseStop_x]
  · rw [h, State.commit_slot_zero]

@[simp] theorem tickState_slot_zero (s : State) : (tickState s).x[0] = s.x[0] := by
  by_cases h : s.Running
  · rw [tickState_running h, cycle_slot_zero]
  · rw [tickState_stopped h]

@[simp] theorem ticks_slot_zero (n : Nat) (s : State) : (ticks n s).x[0] = s.x[0] := by
  induction n generalizing s with
  | zero => rfl
  | succ n ih => rw [ticks_succ, ih, tickState_slot_zero]

theorem fetchDecode_stopped_x {s t : State} (h : s.fetchDecode = .stopped t) : t.x = s.x := by
  rcases fetchDecode_cases s with ⟨r, -, e⟩ | ⟨w, r, -, e⟩ | ⟨w, i, -, -, -, e⟩ <;> cases e.symm.trans h <;> rfl

theorem fetchDecode_instr_x {s t : State} {i : Instr} (h : s.fetchDecode = .instr i t) : t.x = s.x := by
  rcases fetchDecode_cases s with ⟨r, -, e⟩ | ⟨w, r, -, e⟩ | ⟨w, i, -, -, -, e⟩ <;> cases e.symm.trans h
  rfl

theorem exec_slot_zero {i : Instr} {s t : State} (h : exec i s = .next t) : t.x[0] = s.x[0] := by
  rcases exec_cases h with ⟨rd, v, a, p, z, rfl, -⟩ | ⟨-, a, v, size, m, -, rfl⟩ | ⟨a, f, rfl⟩ | ⟨-, rfl⟩
  · exact State.writeReg_slot_zero ..
  all_goals rfl

theorem step_slot_zero {s t : State} (h : step s = .next t) : t.x[0] = s.x[0] := by
  rcases step_cases h with ⟨-, rfl⟩ | ⟨-, -, n, rfl⟩ | ⟨-, -, hstop | ⟨i, u, hinstr, hexec⟩⟩
  · rfl
  · exact ticks_slot_zero n s
  · rw [fetchDecode_stopped_x hstop]
  · rw [exec_slot_zero hexec, fetchDecode_instr_x hinstr]

/-- Settles O5: reads and writes of register 0 never reach its storage, and no tick or step changes it. -/
theorem registerZeroHardwired : Obligations.RegisterZeroHardwired :=
  ⟨fun s v => ⟨State.readReg_zero s, State.writeReg_zero s v⟩, fun s hz =>
    ⟨(tickState_slot_zero s).trans hz, State.readReg_zero _, fun t ht =>
      ⟨(step_slot_zero ht).trans hz, State.readReg_zero t⟩⟩⟩

end Sys2Proof.Machine
end

section
/-! What one tick changes of the FSM state, `pc`, the registers, the latch and the ALU (spec/10_state.md R19 to R27). -/

namespace Sys2Proof.Machine

/-! ### The fields of a completed cycle -/

section
variable (s : State) (c : Control) (g : Signals) (ram : RamResult)

@[simp] theorem commit_fsm : (s.commit c g ram).fsm = s.fsm.succ := by
  obtain ⟨-, h, -⟩ := commit_fields s c g ram; exact h
@[simp] theorem commit_stop : (s.commit c g ram).stop = s.stop := by
  obtain ⟨-, -, -, h, -⟩ := commit_fields s c g ram; exact h
@[simp] theorem commit_pc : (s.commit c g ram).pc = if c.loadPC then g.pcIn else s.pc := by
  obtain ⟨-, -, -, -, -, -, h, -⟩ := commit_fields s c g ram; exact h
@[simp] theorem commit_ir : (s.commit c g ram).ir = if c.loadInstr then g.memReadData else s.ir := by
  obtain ⟨-, -, -, -, -, -, -, h, -⟩ := commit_fields s c g ram; exact h
@[simp] theorem commit_mem : (s.commit c g ram).mem = ram.mem := rfl
@[simp] theorem commit_written : (s.commit c g ram).written = ram.written := rfl

/-- The ALU's registers keep their values, or take a result and its flag together. -/
theorem commit_alu : (c.aluCalc = false ∧ AluKept s (s.commit c g ram)) ∨
    (c.aluCalc = true ∧ AluWrote (s.commit c g ram) (alu c.aluOp c.aluAlt g.aluIn1 g.aluIn2)) := by
  obtain ⟨-, -, -, -, -, -, -, -, hout, hzero, -⟩ := commit_fields s c g ram
  rcases aluCycle_shape s c g with ⟨hc, h⟩ | ⟨hc, h⟩ <;> rw [h] at hout hzero
  · exact .inl ⟨hc, hout, hzero⟩
  · exact .inr ⟨hc, hout, hzero⟩

/-- A register reads differently after a cycle only if that cycle wrote it. -/
theorem commit_readReg (r : RegIdx) : (s.commit c g ram).readReg r =
    if c.regWrite = true ∧ r = g.writeReg ∧ r ≠ 0 then g.writeData else s.readReg r := by
  show ((s.aluCycle c g).regCycle c g).readReg r = _
  have halu : (s.aluCycle c g).readReg r = s.readReg r := by
    rcases aluCycle_shape s c g with ⟨-, h⟩ | ⟨-, h⟩ <;> rw [h]
    exact State.setAlu_readReg ..
  cases hw : c.regWrite <;> simp [State.regCycle, hw, State.readReg_writeReg, halu]

end

/-! ### The frame of a tick -/

/-- Settles O31: a stop keeps the FSM state and stops the core; any other cycle advances it and raises nothing. -/
theorem tickAdvancesFsm : Obligations.TickAdvancesFsm := by
  intro s hr
  rcases tick_running_cases hr with ⟨r, hstop, h⟩ | ⟨hf, r, hstop, h⟩ | ⟨c, imm, ram, -, -, -, -, h⟩ <;> rw [h]
  · exact ⟨fun hrun => absurd hrun hstop, fun _ => rfl⟩
  · exact ⟨fun hrun => absurd hrun hstop, fun _ => hf.symm⟩
  · exact ⟨fun _ => by rw [commit_fsm, number_succ], fun hstop => absurd ((commit_stop { s with started := true } ..).trans hr) hstop⟩

theorem tickState_pc {s : State} (hf : s.fsm ≠ .writeback) : (tickState s).pc = s.pc := by
  by_cases hr : s.Running
  · rcases tick_running_cases hr with ⟨r, -, h⟩ | ⟨-, r, -, h⟩ | ⟨c, imm, ram, hc, -, -, -, h⟩ <;> rw [h]
    · rfl
    · rfl
    · rw [commit_pc, if_neg (mt (control_loadPC hc).mp hf)]
  · rw [tickState_stopped hr]

/-- Settles O32: only a completed cycle with `loadPC` loads `pc`, and WRITEBACK alone asserts it. -/
theorem pcLoadedOnlyInWriteback : Obligations.PcLoadedOnlyInWriteback :=
  fun _ => ⟨tickState_pc, fun _ => control_loadPC⟩

/-- A tick after which a register reads differently completed a cycle that wrote it. -/
theorem tickState_readReg_ne {s : State} {r : RegIdx} (h : (tickState s).readReg r ≠ s.readReg r) :
    ∃ c, s.control = some c ∧ c.regWrite = true ∧ r = rdOf s.ir ∧ r ≠ 0 := by
  by_cases hr : s.Running
  · rcases tick_running_cases hr with ⟨q, -, e⟩ | ⟨-, q, -, e⟩ | ⟨c, imm, ram, hc, -, -, -, e⟩ <;> rw [e] at h
    · exact absurd rfl h
    · exact absurd rfl h
    · rw [commit_readReg] at h
      split at h
      · rename_i hwrite
        exact ⟨c, hc, hwrite⟩
      · exact absurd rfl h
  · exact absurd (by rw [tickState_stopped hr]) h

/-- Settles O33: the cycle that changed a register had `regWrite` asserted, which is WRITEBACK's alone. -/
theorem registersWrittenOnlyInWriteback : Obligations.RegistersWrittenOnlyInWriteback := by
  refine fun s => ⟨fun c => control_regWrite, fun r h => ?_⟩
  obtain ⟨c, hc, hwrite, hrd, h0⟩ := tickState_readReg_ne h
  obtain ⟨hf, hop⟩ := control_regWrite hc hwrite
  exact ⟨⟨c, hc, hwrite⟩, hf, hop, hrd, h0⟩

theorem tickState_ir {s : State} (hf : s.fsm ≠ .decode) : (tickState s).ir = s.ir := by
  by_cases hr : s.Running
  · rcases tick_running_cases hr with ⟨r, -, h⟩ | ⟨hd, -⟩ | ⟨c, imm, ram, hc, -, -, -, h⟩
    · rw [h]; rfl
    · exact absurd hd hf
    · rw [h, commit_ir, if_neg (mt (control_loadInstr hc).mp hf)]
  · rw [tickState_stopped hr]

/-- In the middle of an instruction the word at the fetch address can be read. -/
theorem State.Inv.fetch_reads {s : State} (h : s.Inv) (hr : s.Running) (hf : s.fsm ≠ .fetch) :
    ∃ w, memRead s.mem s.fetchAddr .word = .ok w :=
  ⟨_, memRead_ok (h.midwayOk hr hf).2⟩

/-- DECODE latches the word FETCH read, whether it then stops or goes on. -/
theorem tickState_ir_decode {s : State} (h : s.Inv) (hr : s.Running) (hf : s.fsm = .decode) :
    (tickState s).ir = s.memReadData := by
  rw [tickState_running hr]
  by_cases h0 : s.memReadData = 0
  · rw [cycle_decode_zero (s := { s with started := true }) hf h0]
    exact h0.symm
  · cases ha : accepted s.memReadData with
    | false => rw [cycle_decode_undefined (s := { s with started := true }) hf h0 ha]; rfl
    | true =>
      obtain ⟨imm, hi⟩ := immOf_of_accepted (h.latchOk hr)
      obtain ⟨w, hw⟩ := h.fetch_reads hr (by simp [hf])
      rw [cycle_decode (s := { s with started := true }) hf hi ha hw]

/-- Settles O34: `loadInstr` is DECODE's, and the decoder's signals are functions of the latch. -/
theorem latchLoadedOnlyInDecode : Obligations.LatchLoadedOnlyInDecode :=
  ⟨fun _ _ => control_loadInstr, fun _ hi hr => ⟨tickState_ir, tickState_ir_decode hi hr⟩,
    fun _ _ _ _ _ hir => by simp [State.signals, hir]⟩

/-- A tick that asserts no `aluCalc` keeps the ALU's registers. -/
theorem tickState_aluKept {s : State} (h : ∀ c, s.control = some c → c.aluCalc ≠ true) :
    AluKept s (tickState s) := by
  by_cases hr : s.Running
  · rcases tick_running_cases hr with ⟨r, -, e⟩ | ⟨-, r, -, e⟩ | ⟨c, imm, ram, hc, -, -, -, e⟩ <;> rw [e]
    · exact ⟨rfl, rfl⟩
    · exact ⟨rfl, rfl⟩
    · rcases commit_alu { s with started := true } c (s.signals c imm) ram with ⟨-, hkept⟩ | ⟨hcalc, -⟩
      · exact hkept
      · exact absurd hcalc (h c hc)
  · rw [tickState_stopped hr]
    exact ⟨rfl, rfl⟩

/-- Settles O35: the latch of a running core is an accepted word, and among those `aluCalc` is asserted exactly
in EXECUTE of an opcode other than LUI. -/
theorem aluWrittenOnlyInExecute : Obligations.AluWrittenOnlyInExecute := by
  intro s hi hr
  have hcalc : ∀ c, s.control = some c → (c.aluCalc = true ↔ s.fsm = .execute ∧ opcodeOf s.ir ≠ 0b0110111#7) :=
    fun c => control_aluCalc (opcodeOf_mem_of_accepted (hi.latchOk hr))
  exact ⟨hcalc, fun hx => tickState_aluKept fun c hc => mt (hcalc c hc).mp hx⟩

end Sys2Proof.Machine
end

section
/-! The invariant through a cycle, a tick, a meaning and a step (spec/10_state.md sections 1 to 3, spec/20_memory.md section 1). -/

namespace Sys2Proof.Machine

/-! ### State changes that keep the invariant -/

/-- What a stopped core's invariant speaks of: the latch and `pc` are no part of it. -/
theorem State.Inv.of_stopped {s t : State} (h : s.Inv) (hstop : t.stop ≠ .none) (hmem : t.mem = s.mem)
    (hwritten : t.written = s.written) (hslot : t.x[0] = s.x[0]) (hflag : t.FlagOk) : t.Inv where
  memOk := by rw [State.MemOk, hmem]; exact h.memOk
  zeroOk := hslot.trans h.zeroOk
  flagOk := hflag
  latchOk := fun hr => absurd hr hstop
  midwayOk := fun hr => absurd hr hstop
  writtenOk := by rw [State.WrittenOk, hmem, hwritten]; exact h.writtenOk

theorem State.Inv.writeReg {s : State} (h : s.Inv) (r : RegIdx) (v : Word) : (s.writeReg r v).Inv where
  memOk := by simpa [State.MemOk] using h.memOk
  zeroOk := (State.writeReg_slot_zero s r v).trans h.zeroOk
  flagOk := by simpa [State.FlagOk] using h.flagOk
  latchOk := by simpa [State.LatchOk, State.Running] using h.latchOk
  midwayOk := by simpa [State.MidwayOk, State.Running, State.Fetchable] using h.midwayOk
  writtenOk := by simpa [State.WrittenOk] using h.writtenOk

/-- The fetch checks read the parameters and `pc` alone. -/
theorem State.Fetchable.congr {s t : State} (h : s.Fetchable) (hparams : t.params = s.params) (hpc : t.pc = s.pc) :
    t.Fetchable := by
  simpa only [State.Fetchable, State.fetchTraps, State.fetchAddr, hparams, hpc] using h

/-! ### Cycles and ticks -/

/-- A FETCH that raises no stop found its word. -/
theorem fetchable_of_cycle_running {s : State} {imm : Word} (hf : s.fsm = .fetch) (hi : immOf s.ir = some imm)
    (hrun : (cycle s).Running) : s.Fetchable := by
  cases ht : s.fetchTraps with
  | true => rw [cycle_fetch_traps hf ht] at hrun; cases hrun
  | false =>
    cases hw : memRead s.mem s.fetchAddr .word with
    | error f => rw [cycle_fetch_error hf hi ht hw] at hrun; cases hrun
    | ok w => exact ⟨ht, (memRead_eq_ok hw).1⟩

/-- A DECODE that raises no stop was given an accepted word. -/
theorem accepted_of_cycle_running {s : State} (hf : s.fsm = .decode) (hrun : (cycle s).Running) :
    accepted s.memReadData = true := by
  by_cases h0 : s.memReadData = 0
  · rw [cycle_decode_zero hf h0] at hrun; cases hrun
  · cases ha : accepted s.memReadData with
    | false => rw [cycle_decode_undefined hf h0 ha] at hrun; cases hrun
    | true => rfl

theorem commit_memOk {s : State} {c : Control} {g : Signals} {ram : RamResult} (h : s.MemOk)
    (hram : s.ramCycle c g = .ok ram) : (s.commit c g ram).MemOk := by
  rcases ramCycle_mem hram with ⟨hmem, -⟩ | ⟨size, -, hw, -⟩
  · rw [State.MemOk, commit_mem, hmem]; exact h
  · exact memWrite_wf h hw

theorem commit_writtenOk {s : State} {c : Control} {g : Signals} {ram : RamResult} (h : s.WrittenOk)
    (hram : s.ramCycle c g = .ok ram) : (s.commit c g ram).WrittenOk := by
  rw [State.WrittenOk, commit_mem, commit_written]
  rcases ramCycle_mem hram with ⟨hmem, hwritten⟩ | ⟨size, -, hw, hwritten⟩ <;> rw [hwritten]
  · rw [hmem]; exact h
  · exact h.stored hw

theorem commit_flagOk {s : State} {c : Control} {g : Signals} {ram : RamResult} (h : s.FlagOk) :
    (s.commit c g ram).FlagOk := by
  rcases commit_alu s c g ram with ⟨-, hout, hzero⟩ | ⟨-, hout, hzero⟩ <;> rw [State.FlagOk, hout, hzero]
  exact h

/-- A completed DECODE latches the accepted word it was given; every other completed cycle keeps the latch. -/
theorem commit_latchOk {s : State} {c : Control} {imm : Word} {ram : RamResult} (h : s.LatchOk)
    (hc : s.control = some c) (hrun : (cycle s).Running) : (s.commit c (s.signals c imm) ram).LatchOk := by
  intro hr
  rw [commit_ir]
  split
  · rename_i hload
    exact accepted_of_cycle_running ((control_loadInstr hc).mp hload) hrun
  · exact h ((commit_stop ..).symm.trans hr)

/-- A completed FETCH found its word, and no later cycle but WRITEBACK, after which the FSM is back in FETCH,
loads `pc`. -/
theorem commit_midwayOk {s : State} {c : Control} {g : Signals} {imm : Word} {ram : RamResult} (h : s.MidwayOk)
    (hc : s.control = some c) (hi : immOf s.ir = some imm) (hrun : (cycle s).Running) :
    (s.commit c g ram).MidwayOk := by
  intro hr hf
  have hwb : s.fsm ≠ .writeback := by
    intro e
    rw [commit_fsm, e] at hf
    exact hf rfl
  have hfetchable : s.Fetchable := by
    by_cases hfetch : s.fsm = .fetch
    · exact fetchable_of_cycle_running hfetch hi hrun
    · exact h ((commit_stop ..).symm.trans hr) hfetch
  refine hfetchable.congr (commit_params ..) ?_
  rw [commit_pc, if_neg (mt (control_loadPC hc).mp hwb)]

theorem cycle_keeps_inv {s : State} (h : s.Inv) (hr : s.Running) : (cycle s).Inv := by
  rcases cycle_cases s with ⟨r, hstop, e⟩ | ⟨-, r, hstop, e⟩ | ⟨c, imm, ram, hc, -, hi, hram, e⟩
  · rw [e]; exact h.of_stopped hstop rfl rfl rfl h.flagOk
  · rw [e]; exact h.of_stopped hstop rfl rfl rfl h.flagOk
  · have hrun : (cycle s).Running := by rw [e]; exact (commit_stop ..).trans hr
    rw [e]
    exact {
      memOk := commit_memOk h.memOk hram
      zeroOk := (State.commit_slot_zero ..).trans h.zeroOk
      flagOk := commit_flagOk h.flagOk
      latchOk := commit_latchOk h.latchOk hc hrun
      midwayOk := commit_midwayOk h.midwayOk hc hi hrun
      writtenOk := commit_writtenOk h.writtenOk hram }

/-- Settles O3: a stopped core's tick changes nothing, and a running one's is a cycle after the host's mark. -/
theorem tickKeepsInvariant : Obligations.TickKeepsInvariant := by
  intro s h
  by_cases hr : s.Running
  · rw [tickState_running hr]
    exact cycle_keeps_inv ⟨h.memOk, h.zeroOk, h.flagOk, h.latchOk, h.midwayOk, h.writtenOk⟩ hr
  · rw [tickState_stopped hr]
    exact h

theorem ticks_keep_inv {s : State} (h : s.Inv) (n : Nat) : (ticks n s).Inv := by
  induction n generalizing s with
  | zero => exact h
  | succ n ih => exact ih (tickKeepsInvariant s h)

/-! ### Steps -/

theorem fetchDecode_stopped_keeps_inv {s t : State} (h : s.Inv) (hd : s.fetchDecode = .stopped t) : t.Inv := by
  rcases fetchDecode_cases s with ⟨r, hstop, e⟩ | ⟨w, r, hstop, e⟩ | ⟨w, i, -, -, -, e⟩ <;> cases e.symm.trans hd
  · exact h.of_stopped hstop rfl rfl rfl h.flagOk
  · exact h.of_stopped hstop rfl rfl rfl h.flagOk

/-- Any meaning keeps the invariant: it ends in FETCH with the same latch, or it stops the core. -/
theorem exec_keeps_inv {i : Instr} {s t : State} (h : s.Inv) (he : exec i s = .next t) : t.Inv := by
  rcases exec_cases he with ⟨rd, v, a, p, z, rfl, hz⟩ | ⟨-, a, v, size, m, hw, rfl⟩ | ⟨a, f, rfl⟩ | ⟨-, rfl⟩
  · apply State.Inv.writeReg
    refine ⟨h.memOk, h.zeroOk, ?_, h.latchOk, fun _ hf => absurd rfl hf, h.writtenOk⟩
    rcases hz with rfl | ⟨rfl, rfl⟩
    · rfl
    · exact h.flagOk
  · exact ⟨memWrite_wf h.memOk hw, h.zeroOk, rfl, h.latchOk, fun _ hf => absurd rfl hf, h.writtenOk.stored hw⟩
  · exact h.of_stopped (fun e => nomatch e) rfl rfl rfl rfl
  · exact h.of_stopped (fun e => nomatch e) rfl rfl rfl h.flagOk

/-- The fetched instruction keeps the invariant. The sentinel's zero word is latched without being accepted, but
the sentinel stops the core. -/
theorem fetched_keeps_inv {i : Instr} {s u t : State} (h : s.Inv) (hf : s.fsm = .fetch)
    (hd : s.fetchDecode = .instr i u) (he : exec i u = .next t) : t.Inv := by
  rcases fetchDecode_cases s with ⟨r, -, e⟩ | ⟨w, r, -, e⟩ | ⟨w, j, -, -, hdec, e⟩ <;> cases e.symm.trans hd
  by_cases hi : i = .sentinel
  · subst hi
    cases he
    exact h.of_stopped (fun e => nomatch e) rfl rfl rfl h.flagOk
  · have haccepted : accepted w = true := by simp [accepted, hdec, hi]
    exact exec_keeps_inv (s := s.latch w)
      ⟨h.memOk, h.zeroOk, h.flagOk, fun _ => haccepted, fun _ hmid => absurd hf hmid, h.writtenOk⟩ he

/-- Settles O4: a step is a completed core's, some ticks, or a fetch and the meaning of what it decodes. -/
theorem stepKeepsInvariant : Obligations.StepKeepsInvariant := by
  intro s t h hstep
  rcases step_cases hstep with ⟨-, rfl⟩ | ⟨-, -, n, rfl⟩ | ⟨-, hf, hstop | ⟨i, u, hinstr, hexec⟩⟩
  · exact h
  · exact ticks_keep_inv h n
  · exact fetchDecode_stopped_keeps_inv h hstop
  · exact fetched_keeps_inv h hf hinstr hexec

end Sys2Proof.Machine
end

section
/-! Two states that differ in the internal registers alone (spec/10_state.md sections 3 to 5): one rule per state operation, then the meanings, the fetch and the step. -/

namespace Sys2Proof.Machine

/-- The two states differ at most in the latch, the ALU's registers, the read-data register, the host's mark,
the set of written bytes and the slot behind register 0. -/
structure SameVisible (s t : State) : Prop where
  params : t.params = s.params
  pc : t.pc = s.pc
  readReg : ∀ r : RegIdx, t.readReg r = s.readReg r
  mem : t.mem = s.mem
  stop : t.stop = s.stop
  fsm : t.fsm = s.fsm

/-- Two outcomes that both answer a next state, with no visible difference. -/
def SameNext (o o' : Outcome) : Prop := ∃ t t', o = .next t ∧ o' = .next t' ∧ SameVisible t t'

theorem SameArch.sameVisible {s t : State} (h : SameArch s t) (hs : s.MemOk) (ht : t.MemOk)
    (hstop : t.stop = s.stop) (hfsm : t.fsm = s.fsm) : SameVisible s t :=
  ⟨h.params, h.pc, h.regs, Memory.eq_of_readByte ht hs h.bytes, hstop, hfsm⟩

theorem SameVisible.sameArch {s t : State} (h : SameVisible s t) : SameArch s t :=
  ⟨h.params, h.pc, h.readReg, fun a => by rw [h.mem]⟩

namespace SameVisible

variable {s t : State} (h : SameVisible s t)
include h

/-! ### What the machine computes from the visible part -/

theorem pc4 : t.pc4 = s.pc4 := by rw [State.pc4, State.pc4, h.pc]

theorem fetchAddr : t.fetchAddr = s.fetchAddr := by rw [State.fetchAddr, State.fetchAddr, h.params, h.pc]

theorem fetchTraps : t.fetchTraps = s.fetchTraps := by rw [State.fetchTraps, State.fetchTraps, h.params, h.pc]

theorem effectiveAddress (rs1 : RegIdx) (imm : BitVec 12) :
    t.effectiveAddress rs1 imm = s.effectiveAddress rs1 imm := by
  rw [State.effectiveAddress, State.effectiveAddress, h.readReg]

theorem accessTraps (addr : Word) (size : AccessSize) : t.accessTraps addr size = s.accessTraps addr size := by
  rw [State.accessTraps, State.accessTraps, h.params]

theorem loadData (addr : Word) (size : AccessSize) : t.loadData addr size = s.loadData addr size := by
  rw [State.loadData, State.loadData, h.accessTraps, h.mem]

theorem storeData (addr : Word) (size : AccessSize) (v : Word) :
    t.storeData addr size v = s.storeData addr size v := by
  rw [State.storeData, State.storeData, h.accessTraps, h.mem]

/-! ### The state operations -/

theorem setAlu (r : Word) : SameVisible (s.setAlu r) (t.setAlu r) :=
  ⟨h.params, h.pc, h.readReg, h.mem, h.stop, h.fsm⟩

theorem retire (p : Word) : SameVisible (s.retire p) (t.retire p) :=
  ⟨h.params, rfl, h.readReg, h.mem, h.stop, rfl⟩

theorem latch (w : Word) : SameVisible (s.latch w) (t.latch w) :=
  ⟨h.params, h.pc, h.readReg, h.mem, h.stop, h.fsm⟩

theorem raiseStop (f : FsmState) {r r' : Stop} (hr : r' = r) : SameVisible (s.raiseStop f r) (t.raiseStop f r') :=
  ⟨h.params, h.pc, h.readReg, h.mem, hr, rfl⟩

theorem raiseInMemory (f : Fault) : SameVisible (s.raiseInMemory f) (t.raiseInMemory f) :=
  ⟨h.params, h.pc, h.readReg, h.mem, rfl, rfl⟩

theorem stored (m : Memory) (a : Word) (size : AccessSize) :
    SameVisible (s.stored m a size) (t.stored m a size) :=
  ⟨h.params, h.pc, h.readReg, rfl, h.stop, h.fsm⟩

theorem markStarted : SameVisible { s with started := true } { t with started := true } :=
  ⟨h.params, h.pc, h.readReg, h.mem, h.stop, h.fsm⟩

theorem writeReg (r : RegIdx) (v : Word) : SameVisible (s.writeReg r v) (t.writeReg r v) where
  params := by simpa using h.params
  pc := by simpa using h.pc
  readReg := fun q => by rw [State.readReg_writeReg, State.readReg_writeReg, h.readReg]
  mem := by simpa using h.mem
  stop := by simpa using h.stop
  fsm := by simpa using h.fsm

/-! ### The shared ends of the meanings -/

theorem finishAlu (rd : RegIdx) {r r' : Word} (hr : r' = r) : SameNext (s.finishAlu rd r) (t.finishAlu rd r') := by
  subst hr
  rw [State.finishAlu, State.finishAlu, h.pc4]
  exact ⟨_, _, rfl, rfl, ((h.setAlu _).retire _).writeReg ..⟩

theorem finishBranch (offset : BitVec 13) {r r' : Word} {taken taken' : Bool} (hr : r' = r)
    (htaken : taken' = taken) : SameNext (s.finishBranch r taken offset) (t.finishBranch r' taken' offset) := by
  subst hr htaken
  rw [State.finishBranch, State.finishBranch, h.pc, h.pc4]
  exact ⟨_, _, rfl, rfl, (h.setAlu _).retire _⟩

theorem finishJump (rd : RegIdx) {target target' : Word} (htarget : target' = target) :
    SameNext (s.finishJump rd target) (t.finishJump rd target') := by
  subst htarget
  rw [State.finishJump, State.finishJump, h.pc4]
  exact ⟨_, _, rfl, rfl, ((h.setAlu _).retire _).writeReg ..⟩

theorem execLui (rd : RegIdx) (imm : BitVec 20) :
    SameNext (Machine.execLui rd imm s) (Machine.execLui rd imm t) := by
  rw [Machine.execLui, Machine.execLui, h.pc4]
  exact ⟨_, _, rfl, rfl, (h.retire _).writeReg ..⟩

theorem doLoad (size : AccessSize) (e : Extension) (rd rs1 : RegIdx) (imm : BitVec 12) :
    SameNext (s.doLoad size e rd rs1 imm) (t.doLoad size e rd rs1 imm) := by
  rw [State.doLoad, State.doLoad, h.effectiveAddress, h.loadData, h.pc4]
  cases s.loadData (s.effectiveAddress rs1 imm) size with
  | error f => exact ⟨_, _, rfl, rfl, (h.setAlu _).raiseInMemory f⟩
  | ok r => exact ⟨_, _, rfl, rfl, ((h.setAlu _).retire _).writeReg ..⟩

theorem doStore (size : AccessSize) (rs2 rs1 : RegIdx) (imm : BitVec 12) :
    SameNext (s.doStore size rs2 rs1 imm) (t.doStore size rs2 rs1 imm) := by
  rw [State.doStore, State.doStore, h.effectiveAddress, h.readReg, h.storeData, h.pc4]
  cases s.storeData (s.effectiveAddress rs1 imm) size (s.readReg rs2) with
  | error f => exact ⟨_, _, rfl, rfl, (h.setAlu _).raiseInMemory f⟩
  | ok m => exact ⟨_, _, rfl, rfl, ((h.setAlu _).stored ..).retire _⟩

theorem execSentinel : SameNext (Machine.execSentinel s) (Machine.execSentinel t) :=
  ⟨_, _, rfl, rfl, (h.latch 0).raiseStop _ rfl⟩

/-! ### Meanings, fetches and steps -/

/-- Every meaning reads its operands from the visible part only. -/
theorem exec (i : Instr) : SameNext (Machine.exec i s) (Machine.exec i t) := by
  cases i
  case add | sub | sll | slt | sltu | xor | srl | sra | or | and => exact h.finishAlu _ (by simp only [h.readReg])
  case addi | slti | sltiu | xori | ori | andi | slli | srli | srai =>
    exact h.finishAlu _ (by simp only [h.readReg])
  case auipc => exact h.finishAlu _ (by rw [h.pc])
  case lui rd imm => exact h.execLui rd imm
  case jal => exact h.finishJump _ (by rw [h.pc])
  case jalr => exact h.finishJump _ (by rw [h.readReg])
  case beq | bne | blt | bge | bltu | bgeu =>
    exact h.finishBranch _ (by simp only [h.readReg]) (by simp only [h.readReg])
  case lb | lh | lw | lbu | lhu => exact h.doLoad ..
  case sb | sh | sw => exact h.doStore ..
  case sentinel => exact h.execSentinel

theorem step (hr : s.Running) (hf : s.fsm = .fetch) : SameNext (Machine.step s) (Machine.step t) := by
  have hread : memRead t.mem t.fetchAddr .word = memRead s.mem s.fetchAddr .word := by rw [h.fetchAddr, h.mem]
  rw [step_fetch hr hf, step_fetch (h.stop.trans hr) (h.fsm.trans hf), State.fetchDecode, State.fetchDecode,
    h.fetchTraps, hread]
  cases s.fetchTraps with
  | true => exact ⟨_, _, rfl, rfl, h.markStarted.raiseStop _ (by rw [h.pc])⟩
  | false =>
    cases memRead s.mem s.fetchAddr .word with
    | error f => exact ⟨_, _, rfl, rfl, h.markStarted.raiseStop _ rfl⟩
    | ok w =>
      simp only [State.decodeFetched]
      cases decode w with
      | error e => exact ⟨_, _, rfl, rfl, (h.latch w).raiseStop _ rfl⟩
      | ok i => exact (h.latch w).exec i

end SameVisible

/-- Settles O47: canonical memories that read alike are equal, and a step computes from the visible part alone. -/
theorem internalRegistersAreUnobservable : Obligations.InternalRegistersAreUnobservable := by
  intro s s' hm hm' hr hr' hf hf' harch
  obtain ⟨t, t', ht, ht', h⟩ :=
    (harch.sameVisible hm hm' (hr'.trans hr.symm) (hf'.trans hf.symm)).step hr hf
  exact ⟨t, t', ht, ht', h.sameArch, h.stop, h.fsm⟩

end Sys2Proof.Machine
end

section
/-! Little-endian reads bit by bit, a read inside the bytes just written, and the stores among the meanings (spec/20_memory.md sections 2 and 5). -/

namespace Sys2Proof.Machine

theorem AccessSize.bytes_pos (size : AccessSize) : 1 ≤ size.bytes := by cases size <;> decide
theorem AccessSize.bytes_le (size : AccessSize) : size.bytes ≤ 4 := by cases size <;> decide

/-! ### The bits of a little-endian read -/

/-- Bit `j` of a little-endian read is bit `j % 8` of its byte `j / 8`; above the bytes read the value is zero. -/
theorem Memory.getLsbD_readLE (m : Memory) (a n : Nat) {j : Nat} (hj : j < 32) :
    (m.readLE a n).getLsbD j = (decide (j < 8 * n) && (m.readByte (a + j / 8)).getLsbD (j % 8)) := by
  induction n generalizing a j with
  | zero => simp [Memory.readLE]
  | succ n ih =>
    simp only [Memory.readLE, BitVec.getLsbD_or, BitVec.getLsbD_setWidth, BitVec.getLsbD_shiftLeft]
    by_cases hlow : j < 8
    · have hmod : j % 8 = j := by omega
      have hdiv : j / 8 = 0 := by omega
      have hin : j < 8 * (n + 1) := by omega
      simp [hlow, hj, hmod, hdiv, hin]
    · have hmod : (j - 8) % 8 = j % 8 := by omega
      have hdiv : a + 1 + (j - 8) / 8 = a + j / 8 := by omega
      have hin : j - 8 < 8 * n ↔ j < 8 * (n + 1) := by omega
      rw [ih (a + 1) (by omega : j - 8 < 32), hmod, hdiv, BitVec.getLsbD_of_ge _ j (by omega)]
      simp [hlow, hj, hin]

/-- A little-endian read of `n` bytes has no bit above them. -/
theorem Memory.toNat_readLE_lt (m : Memory) (a n : Nat) :
    (m.readLE a n).toNat < 2 ^ (8 * n) := by
  refine Nat.lt_pow_two_of_testBit _ fun j hj => ?_
  rw [BitVec.testBit_toNat]
  by_cases h : j < 32
  · simp [Memory.getLsbD_readLE m a n h, Nat.not_lt.mpr hj]
  · exact BitVec.getLsbD_of_ge _ j (Nat.not_lt.mp h)

/-- Byte `k` of a little-endian read is the byte at `a + k`. -/
theorem Memory.byte_readLE (m : Memory) (a : Nat) {n k : Nat} (hn : n ≤ 4) (hk : k < n) :
    (m.readLE a n >>> (8 * k)).setWidth 8 = m.readByte (a + k) := by
  apply BitVec.eq_of_getLsbD_eq
  intro j hj
  have hin : 8 * k + j < 8 * n := by omega
  have hdiv : (8 * k + j) / 8 = k := by omega
  have hmod : (8 * k + j) % 8 = j := by omega
  rw [BitVec.getLsbD_setWidth, BitVec.getLsbD_ushiftRight, Memory.getLsbD_readLE m a n (by omega), hdiv, hmod]
  simp [hj, hin]

/-! ### Reads inside the bytes just written -/

/-- A read inside a run of bytes just written gives those bytes of the written value. -/
theorem Memory.readLE_writeLE {m : Memory} {a n k n' : Nat} {v : Word} (ha : a + n ≤ addressSpace)
    (h : m.wf = true) (hin : k + n' ≤ n) :
    (m.writeLE a n v).readLE (a + k) n' = ((v >>> (8 * k)).setWidth (8 * n')).setWidth 32 := by
  apply BitVec.eq_of_getLsbD_eq
  intro j hj
  simp only [Memory.getLsbD_readLE _ _ _ hj, BitVec.getLsbD_setWidth, BitVec.getLsbD_ushiftRight, hj,
    decide_true, Bool.true_and]
  by_cases hb : j < 8 * n'
  · have hrun : a ≤ a + k + j / 8 ∧ a + k + j / 8 < a + n := by omega
    have hbit : 8 * (a + k + j / 8 - a) + j % 8 = 8 * k + j := by omega
    have hmod : j % 8 < 8 := by omega
    rw [Memory.readByte_writeLE ha h, if_pos hrun, BitVec.getLsbD_setWidth, BitVec.getLsbD_ushiftRight, hbit]
    simp [hmod]
  · simp [hb]

/-- After a `MemWrite` a `MemRead` inside its bytes gives those bytes of the written value. -/
theorem memRead_memWrite {m m' : Memory} {a v : Word} {size size' : AccessSize} {k : Nat} (h : m.wf = true)
    (hw : memWrite m a size v = .ok m') (hin : k + size'.bytes ≤ size.bytes) :
    memRead m' (a + BitVec.ofNat 32 k) size' = .ok (((v >>> (8 * k)).setWidth (8 * size'.bytes)).setWidth 32) := by
  obtain ⟨hr, rfl⟩ := memWrite_eq_ok hw
  have hrange := inRange_iff.mp hr
  have hsize' := size'.bytes_pos
  have haddr : (a + BitVec.ofNat 32 k).toNat = a.toNat + k := by
    rw [BitVec.toNat_add, BitVec.toNat_ofNat]; omega
  rw [memRead_ok (inRange_iff.mpr (by omega)), haddr, Memory.readLE_writeLE hrange h hin]

/-- Keeping the low `k` bits is masking with `2 ^ k - 1`. -/
theorem setWidth_setWidth_eq_and (v : Word) {k : Nat} (hk : k ≤ 32) :
    (v.setWidth k).setWidth 32 = v &&& BitVec.ofNat 32 (2 ^ k - 1) := by
  have hpow : 2 ^ k ≤ 2 ^ 32 := Nat.pow_le_pow_right (by decide) hk
  apply BitVec.eq_of_toNat_eq
  rw [BitVec.toNat_setWidth_of_le hk, BitVec.toNat_setWidth, BitVec.toNat_and, BitVec.toNat_ofNat,
    Nat.mod_eq_of_lt (by omega : 2 ^ k - 1 < 2 ^ 32), Nat.and_two_pow_sub_one_eq_mod]

/-- Settles O15: out of range the read raises its fault; in range it is the little-endian value, bit by bit. -/
theorem memReadIsLittleEndian : Obligations.MemReadIsLittleEndian := by
  intro m addr size
  constructor
  · intro hout
    simp [memRead, inRange_false.mpr hout]
  · intro hin
    exact ⟨_, memRead_ok (inRange_iff.mpr hin), m.toNat_readLE_lt addr.toNat size.bytes,
      fun k hk => m.byte_readLE addr.toNat size.bytes_le hk⟩

/-- Settles O16: out of range the write raises its fault; in range each byte reads as the run of bytes written says. -/
theorem memWriteStoresExactlyItsBytes : Obligations.MemWriteStoresExactlyItsBytes := by
  intro m addr v size h
  constructor
  · intro hout
    simp [memWrite, inRange_false.mpr hout]
  · intro hin
    have hw := memWrite_ok (m := m) (v := v) (inRange_iff.mpr hin)
    refine ⟨_, hw, memWrite_wf h hw, fun k hk => ?_, fun a ha => ?_⟩
    · rw [Memory.readByte_writeLE hin h, if_pos (by omega), Nat.add_sub_cancel_left]
    · rw [Memory.readByte_writeLE hin h, if_neg (by omega)]

/-- A `MemRead` of the word just written, at its address, gives it back. -/
theorem memRead_memWrite_word {m m' : Memory} {a v : Word} (h : m.wf = true)
    (hw : memWrite m a .word v = .ok m') : memRead m' a .word = .ok v := by
  simpa [AccessSize.bytes] using memRead_memWrite (k := 0) (size' := .word) h hw (by decide)

/-- Settles O17: each of the reads lies inside the written word, and a narrow one masks the shifted word. -/
theorem mixedWidthAccessesAreLittleEndian : Obligations.MixedWidthAccessesAreLittleEndian := by
  intro m m' a v h hw
  refine ⟨memRead_memWrite_word h hw, fun k hk => ?_, fun k hk => ?_⟩
  · have hin : k + AccessSize.byte.bytes ≤ AccessSize.word.bytes := by simp only [AccessSize.bytes]; omega
    rw [memRead_memWrite h hw hin, setWidth_setWidth_eq_and _ (by decide)]
    rfl
  · have hin : k + AccessSize.half.bytes ≤ AccessSize.word.bytes := by simp only [AccessSize.bytes]; omega
    rw [memRead_memWrite h hw hin, setWidth_setWidth_eq_and _ (by decide)]
    rfl

/-! ### Stores and the other instructions -/

/-- A data access that answers a memory was admitted, and its memory is the write's. -/
theorem State.storeData_eq_ok {s : State} {addr v : Word} {size : AccessSize} {m : Memory}
    (h : s.storeData addr size v = .ok m) : memWrite s.mem addr size v = .ok m := by
  unfold State.storeData at h
  split at h
  · cases h
  · exact h

/-- A store that leaves the core running wrote its bytes at the effective address. -/
theorem doStore_running {s t : State} {size : AccessSize} {rs2 rs1 : RegIdx} {imm : BitVec 12}
    (h : s.doStore size rs2 rs1 imm = .next t) (hr : t.Running) :
    memWrite s.mem (s.effectiveAddress rs1 imm) size (s.readReg rs2) = .ok t.mem := by
  unfold State.doStore at h
  split at h <;> cases h
  case h_1 => cases hr
  case h_2 m hm => exact State.storeData_eq_ok hm

/-- Settles O18: the completed SW wrote its word at the effective address, which is the next fetch address. -/
theorem storeSeenByNextFetch : Obligations.StoreSeenByNextFetch := by
  intro s t rs2 rs1 imm hmem hexec hrunning _ haddr
  rw [haddr]
  exact memRead_memWrite_word hmem (doStore_running hexec hrunning)

/-- Settles O19: of the ways a meaning can end, only a store's writes memory. -/
theorem onlyStoresChangeMemory : Obligations.OnlyStoresChangeMemory := by
  intro i s t hi hexec
  rcases exec_cases hexec with ⟨rd, v, a, p, z, rfl, -⟩ | ⟨hstore, -⟩ | ⟨a, f, rfl⟩ | ⟨-, rfl⟩
  · exact ⟨State.writeReg_mem .., State.writeReg_written ..⟩
  · rw [hi] at hstore; cases hstore
  · exact ⟨rfl, rfl⟩
  · exact ⟨rfl, rfl⟩

end Sys2Proof.Machine
end

section
/-! The decoder at each opcode, and its round trip with the encoder (spec/30_encoding.md sections 2 to 5). -/

namespace Sys2Proof

/-! ### The decoder at each opcode (R58, R60) -/

theorem decode_load {w : Word} (h : opcodeOf w = 0b0000011#7) : decode w = listed w (decodeLoad w) := by
  rw [decode_of_opcode (by rw [h]; decide), decodeNonzero, h]; rfl
theorem decode_opImm {w : Word} (h : opcodeOf w = 0b0010011#7) : decode w = listed w (decodeOpImm w) := by
  rw [decode_of_opcode (by rw [h]; decide), decodeNonzero, h]; rfl
theorem decode_auipc {w : Word} (h : opcodeOf w = 0b0010111#7) : decode w = .ok (.auipc (rdOf w) (immU w)) := by
  rw [decode_of_opcode (by rw [h]; decide), decodeNonzero, h]; rfl
theorem decode_store {w : Word} (h : opcodeOf w = 0b0100011#7) : decode w = listed w (decodeStore w) := by
  rw [decode_of_opcode (by rw [h]; decide), decodeNonzero, h]; rfl
theorem decode_op {w : Word} (h : opcodeOf w = 0b0110011#7) : decode w = listed w (decodeOp w) := by
  rw [decode_of_opcode (by rw [h]; decide), decodeNonzero, h]; rfl
theorem decode_lui {w : Word} (h : opcodeOf w = 0b0110111#7) : decode w = .ok (.lui (rdOf w) (immU w)) := by
  rw [decode_of_opcode (by rw [h]; decide), decodeNonzero, h]; rfl
theorem decode_branch {w : Word} (h : opcodeOf w = 0b1100011#7) : decode w = listed w (decodeBranch w) := by
  rw [decode_of_opcode (by rw [h]; decide), decodeNonzero, h]; rfl
theorem decode_jalr {w : Word} (h : opcodeOf w = 0b1100111#7) : decode w = listed w (decodeJalr w) := by
  rw [decode_of_opcode (by rw [h]; decide), decodeNonzero, h]; rfl
theorem decode_jal {w : Word} (h : opcodeOf w = 0b1101111#7) : decode w = .ok (.jal (rdOf w) (immUJ w)) := by
  rw [decode_of_opcode (by rw [h]; decide), decodeNonzero, h]; rfl

/-! ### Decoding the encoding

Each format's word has the opcode and functs it was built with, so the decoder takes the instruction's own row, and
reads back the operands. -/

theorem decode_encode {i : Instr} (h : i.wf = true) : decode (encode i) = .ok i := by
  cases i
  case sentinel => rfl
  case lui =>
    rw [encode, decode_lui (opcodeOf_encodeU ..), rdOf_encodeU, immU_encodeU]
  case auipc =>
    rw [encode, decode_auipc (opcodeOf_encodeU ..), rdOf_encodeU, immU_encodeU]
  case jal =>
    rw [encode, decode_jal (opcodeOf_encodeUJ ..), rdOf_encodeUJ, immUJ_encodeUJ _ _ _ h]
  case jalr =>
    rw [encode, decode_jalr (opcodeOf_encodeI ..), decodeJalr, funct3Of_encodeI, rdOf_encodeI, rs1Of_encodeI,
      immI_encodeI]
    rfl
  case beq | bne | blt | bge | bltu | bgeu =>
    rw [encode, decode_branch (opcodeOf_encodeSB ..), decodeBranch, funct3Of_encodeSB, rs1Of_encodeSB, rs2Of_encodeSB,
      immSB_encodeSB _ _ _ _ _ h]
    rfl
  case lb | lh | lw | lbu | lhu =>
    rw [encode, decode_load (opcodeOf_encodeI ..), decodeLoad, funct3Of_encodeI, rdOf_encodeI, rs1Of_encodeI,
      immI_encodeI]
    rfl
  case sb | sh | sw =>
    rw [encode, decode_store (opcodeOf_encodeS ..), decodeStore, funct3Of_encodeS, rs1Of_encodeS, rs2Of_encodeS,
      immS_encodeS]
    rfl
  case addi | slti | sltiu | xori | ori | andi =>
    rw [encode, decode_opImm (opcodeOf_encodeI ..), decodeOpImm, funct3Of_encodeI, rdOf_encodeI, rs1Of_encodeI,
      immI_encodeI]
    rfl
  case slli =>
    rw [encode, decode_opImm (opcodeOf_encodeR ..), decodeOpImm, funct3Of_encodeR, funct7Of_encodeR, rdOf_encodeR,
      rs1Of_encodeR, shamtOf, rs2_encodeR]
    rfl
  case srli | srai =>
    rw [encode, decode_opImm (opcodeOf_encodeR ..), decodeOpImm, funct3Of_encodeR, decodeShiftRightImm,
      funct7Of_encodeR, rdOf_encodeR, rs1Of_encodeR, shamtOf, rs2_encodeR]
    rfl
  case add | sub | sll | slt | sltu | xor | srl | sra | or | and =>
    rw [encode, decode_op (opcodeOf_encodeR ..), decodeOp, funct7Of_encodeR, funct3Of_encodeR, rdOf_encodeR,
      rs1Of_encodeR, rs2Of_encodeR]
    rfl

/-- Settles O8: the decoder finds each format's fields where the encoder put them. -/
theorem decodeOfEncode : Obligations.DecodeOfEncode := fun _ => decode_encode

/-! ### Encoding the decoded word

A word whose opcode and functs are those of a row is that row's encoding of the operands read from it. -/

section
variable {w : Word} {op : BitVec 7} {f3 : BitVec 3} {f7 : BitVec 7}

theorem encodeU_of_fields (hop : opcodeOf w = op) : encodeU (immU w) (regBits (rdOf w)) op = w := by
  rw [← hop, regBits_rdOf, encodeU_fields]
theorem encodeUJ_of_fields (hop : opcodeOf w = op) : encodeUJ (immUJ w) (regBits (rdOf w)) op = w := by
  rw [← hop, regBits_rdOf, encodeUJ_fields]
theorem encodeI_of_fields (hop : opcodeOf w = op) (h3 : funct3Of w = f3) :
    encodeI (immI w) (regBits (rs1Of w)) f3 (regBits (rdOf w)) op = w := by
  rw [← hop, ← h3, regBits_rdOf, regBits_rs1Of, encodeI_fields]
theorem encodeS_of_fields (hop : opcodeOf w = op) (h3 : funct3Of w = f3) :
    encodeS (immS w) (regBits (rs2Of w)) (regBits (rs1Of w)) f3 op = w := by
  rw [← hop, ← h3, regBits_rs1Of, regBits_rs2Of, encodeS_fields]
theorem encodeSB_of_fields (hop : opcodeOf w = op) (h3 : funct3Of w = f3) :
    encodeSB (immSB w) (regBits (rs2Of w)) (regBits (rs1Of w)) f3 op = w := by
  rw [← hop, ← h3, regBits_rs1Of, regBits_rs2Of, encodeSB_fields]
theorem encodeR_of_fields (hop : opcodeOf w = op) (h3 : funct3Of w = f3) (h7 : funct7Of w = f7) :
    encodeR f7 (regBits (rs2Of w)) (regBits (rs1Of w)) f3 (regBits (rdOf w)) op = w := by
  rw [← hop, ← h3, ← h7, regBits_rdOf, regBits_rs1Of, regBits_rs2Of, encodeR_fields]
/-- The shift form of format I, with the shift amount in the rs2 place. -/
theorem encodeR_shamt_of_fields (hop : opcodeOf w = op) (h3 : funct3Of w = f3) (h7 : funct7Of w = f7) :
    encodeR f7 (shamtOf w) (regBits (rs1Of w)) f3 (regBits (rdOf w)) op = w := by
  rw [← hop, ← h3, ← h7, regBits_rdOf, regBits_rs1Of, shamtOf, encodeR_fields]
end

section
variable {w : Word} {i : Instr}

theorem encode_of_decodeLoad (hop : opcodeOf w = 0b0000011#7) (h : decodeLoad w = some i) :
    encode i = w ∧ i.wf = true := by
  unfold decodeLoad at h
  split at h <;> cases h
  all_goals exact ⟨encodeI_of_fields hop ‹_›, rfl⟩

theorem encode_of_decodeStore (hop : opcodeOf w = 0b0100011#7) (h : decodeStore w = some i) :
    encode i = w ∧ i.wf = true := by
  unfold decodeStore at h
  split at h <;> cases h
  all_goals exact ⟨encodeS_of_fields hop ‹_›, rfl⟩

theorem encode_of_decodeBranch (hop : opcodeOf w = 0b1100011#7) (h : decodeBranch w = some i) :
    encode i = w ∧ i.wf = true := by
  unfold decodeBranch at h
  split at h <;> cases h
  all_goals exact ⟨encodeSB_of_fields hop ‹_›, branchOffsetOk_immSB w⟩

theorem encode_of_decodeJalr (hop : opcodeOf w = 0b1100111#7) (h : decodeJalr w = some i) :
    encode i = w ∧ i.wf = true := by
  unfold decodeJalr at h
  split at h <;> cases h
  exact ⟨encodeI_of_fields hop ‹_›, rfl⟩

theorem encode_of_decodeOp (hop : opcodeOf w = 0b0110011#7) (h : decodeOp w = some i) :
    encode i = w ∧ i.wf = true := by
  unfold decodeOp at h
  split at h <;> cases h
  all_goals
    rename_i h7 h3
    exact ⟨encodeR_of_fields hop h3 h7, rfl⟩

theorem encode_of_decodeShiftRightImm (hop : opcodeOf w = 0b0010011#7) (h3 : funct3Of w = 0b101#3)
    (h : decodeShiftRightImm w = some i) : encode i = w ∧ i.wf = true := by
  unfold decodeShiftRightImm at h
  split at h <;> cases h
  all_goals exact ⟨encodeR_shamt_of_fields hop h3 ‹_›, rfl⟩

theorem encode_of_decodeOpImm (hop : opcodeOf w = 0b0010011#7) (h : decodeOpImm w = some i) :
    encode i = w ∧ i.wf = true := by
  unfold decodeOpImm at h
  split at h
  case h_2 h3 =>
    split at h <;> cases h
    exact ⟨encodeR_shamt_of_fields hop h3 ‹_›, rfl⟩
  case h_6 h3 => exact encode_of_decodeShiftRightImm hop h3 h
  case h_9 => cases h
  all_goals
    cases h
    exact ⟨encodeI_of_fields hop ‹_›, rfl⟩

theorem encode_of_decodeNonzero (h : decodeNonzero w = .ok i) : encode i = w ∧ i.wf = true := by
  unfold decodeNonzero at h
  split at h
  case h_1 hop => exact encode_of_decodeLoad hop (listed_ok h)
  case h_2 hop => exact encode_of_decodeOpImm hop (listed_ok h)
  case h_3 hop => cases h; exact ⟨encodeU_of_fields hop, rfl⟩
  case h_4 hop => exact encode_of_decodeStore hop (listed_ok h)
  case h_5 hop => exact encode_of_decodeOp hop (listed_ok h)
  case h_6 hop => cases h; exact ⟨encodeU_of_fields hop, rfl⟩
  case h_7 hop => exact encode_of_decodeBranch hop (listed_ok h)
  case h_8 hop => exact encode_of_decodeJalr hop (listed_ok h)
  case h_9 hop => cases h; exact ⟨encodeUJ_of_fields hop, jumpOffsetOk_immUJ w⟩
  case h_10 => cases h

theorem encode_of_decode (h : decode w = .ok i) : encode i = w ∧ i.wf = true := by
  unfold decode at h
  split at h
  case isTrue hw => cases h; exact ⟨hw.symm, rfl⟩
  case isFalse => exact encode_of_decodeNonzero h

/-- The decoder and the encoder are inverse to each other on the well-formed instructions. -/
theorem decode_eq_ok_iff : decode w = .ok i ↔ encode i = w ∧ i.wf = true :=
  ⟨encode_of_decode, fun ⟨he, hwf⟩ => he ▸ decode_encode hwf⟩
end

/-- Settles O9: at each opcode, the row the decoder takes is the row that encodes the word. -/
theorem encodeOfDecode : Obligations.EncodeOfDecode := fun _ _ => encode_of_decode

end Sys2Proof
end

section
/-! The opcode table against the decoder: what each mask keeps of a word, and the rows of an instruction
(spec/30_encoding.md sections 4 and 5). -/

namespace Sys2Proof

/-! ### What each mask keeps of a word

The table has three masks: the opcode; the opcode and funct3; the opcode, funct3 and funct7. -/

theorem opcodeOf_and (w v : Word) : opcodeOf (w &&& v) = opcodeOf w &&& opcodeOf v := BitVec.extractLsb'_and
theorem funct3Of_and (w v : Word) : funct3Of (w &&& v) = funct3Of w &&& funct3Of v := BitVec.extractLsb'_and
theorem funct7Of_and (w v : Word) : funct7Of (w &&& v) = funct7Of w &&& funct7Of v := BitVec.extractLsb'_and

/-- The word of some fields, masked: the fields masked. -/
theorem and_encodeR (w : Word) (f7 : BitVec 7) (b2 b1 : BitVec 5) (f3 : BitVec 3) (d : BitVec 5) (op : BitVec 7) :
    w &&& encodeR f7 b2 b1 f3 d op = encodeR (funct7Of w &&& f7) (w.extractLsb' 20 5 &&& b2)
      (w.extractLsb' 15 5 &&& b1) (funct3Of w &&& f3) (w.extractLsb' 7 5 &&& d) (opcodeOf w &&& op) := by
  rw [← encodeR_fields (w &&& _), funct7Of_and, funct3Of_and, opcodeOf_and, BitVec.extractLsb'_and,
    BitVec.extractLsb'_and, BitVec.extractLsb'_and, funct7Of_encodeR, rs2_encodeR, rs1_encodeR, funct3Of_encodeR,
    rd_encodeR, opcodeOf_encodeR]

theorem and_opcodeMask (w : Word) : w &&& 0x0000007F = encodeR 0 0 0 0 0 (opcodeOf w) :=
  (and_encodeR w 0 0 0 0 0 (BitVec.allOnes 7)).trans
    (by simp only [BitVec.ofNat_eq_ofNat, BitVec.and_zero, BitVec.and_allOnes])

theorem and_funct3Mask (w : Word) : w &&& 0x0000707F = encodeR 0 0 0 (funct3Of w) 0 (opcodeOf w) :=
  (and_encodeR w 0 0 0 (BitVec.allOnes 3) 0 (BitVec.allOnes 7)).trans
    (by simp only [BitVec.ofNat_eq_ofNat, BitVec.and_zero, BitVec.and_allOnes])

theorem and_funct7Mask (w : Word) : w &&& 0xFE00707F = encodeR (funct7Of w) 0 0 (funct3Of w) 0 (opcodeOf w) :=
  (and_encodeR w (BitVec.allOnes 7) 0 0 (BitVec.allOnes 3) 0 (BitVec.allOnes 7)).trans
    (by simp only [BitVec.ofNat_eq_ofNat, BitVec.and_zero, BitVec.and_allOnes])

section
variable {w v : Word}

theorem and_opcodeMask_eq_iff : w &&& 0x0000007F = v &&& 0x0000007F ↔ opcodeOf w = opcodeOf v := by
  rw [and_opcodeMask, and_opcodeMask]
  refine ⟨fun h => ?_, fun h => by rw [h]⟩
  simpa only [opcodeOf_encodeR] using congrArg opcodeOf h

theorem and_funct3Mask_eq_iff :
    w &&& 0x0000707F = v &&& 0x0000707F ↔ opcodeOf w = opcodeOf v ∧ funct3Of w = funct3Of v := by
  rw [and_funct3Mask, and_funct3Mask]
  refine ⟨fun h => ⟨?_, ?_⟩, fun ⟨hop, h3⟩ => by rw [hop, h3]⟩
  · simpa only [opcodeOf_encodeR] using congrArg opcodeOf h
  · simpa only [funct3Of_encodeR] using congrArg funct3Of h

theorem and_funct7Mask_eq_iff : w &&& 0xFE00707F = v &&& 0xFE00707F ↔
    opcodeOf w = opcodeOf v ∧ funct3Of w = funct3Of v ∧ funct7Of w = funct7Of v := by
  rw [and_funct7Mask, and_funct7Mask]
  refine ⟨fun h => ⟨?_, ?_, ?_⟩, fun ⟨hop, h3, h7⟩ => by rw [hop, h3, h7]⟩
  · simpa only [opcodeOf_encodeR] using congrArg opcodeOf h
  · simpa only [funct3Of_encodeR] using congrArg funct3Of h
  · simpa only [funct7Of_encodeR] using congrArg funct7Of h
end

/-! ### Rows -/

/-- No row fixes a bit its mask drops. -/
theorem fixed_and_mask : ∀ row ∈ opcodeTable, row.fixed &&& row.mask = row.fixed := by decide

theorem accepts_iff {row : OpcodeRow} (hrow : row ∈ opcodeTable) {w : Word} :
    row.accepts w = true ↔ w &&& row.mask = row.fixed &&& row.mask := by
  rw [fixed_and_mask row hrow, OpcodeRow.accepts, beq_iff_eq]

/-- Two rows of the table that agree on the bits both masks keep are one row. -/
theorem eq_of_fixed_agree : ∀ r1 ∈ opcodeTable, ∀ r2 ∈ opcodeTable,
    r1.fixed &&& r2.mask = r2.fixed &&& r1.mask → r1 = r2 := by decide

/-- Settles O11: two rows that accept a word both fix the bits their masks share as the word has them. -/
theorem opcodeRowsDisjoint : Obligations.OpcodeRowsDisjoint := by
  intro w r1 r2 hr1 hr2 h1 h2
  rw [OpcodeRow.accepts, beq_iff_eq] at h1 h2
  refine eq_of_fixed_agree r1 hr1 r2 hr2 ?_
  rw [← h1, ← h2, BitVec.and_assoc, BitVec.and_assoc, BitVec.and_comm r1.mask]

/-! ### Every instruction's word is of its row -/

/-- Some row of the table is named `name` and accepts `w`. -/
def HasRow (w : Word) (name : String) : Prop :=
  ∃ row ∈ opcodeTable, row.accepts w = true ∧ row.mnemonic = name

section
variable {w : Word} {name : String} {op : BitVec 7} {f3 : BitVec 3} {f7 : BitVec 7}

theorem hasRow_of_opcode (hop : opcodeOf w = op)
    (h : ∃ row ∈ opcodeTable, row.mnemonic = name ∧ row.mask = 0x0000007F ∧ opcodeOf row.fixed = op) :
    HasRow w name := by
  obtain ⟨row, hrow, hname, hmask, hop'⟩ := h
  refine ⟨row, hrow, ?_, hname⟩
  rw [accepts_iff hrow, hmask, and_opcodeMask_eq_iff]
  exact hop.trans hop'.symm

theorem hasRow_of_funct3 (hop : opcodeOf w = op) (h3 : funct3Of w = f3)
    (h : ∃ row ∈ opcodeTable, row.mnemonic = name ∧ row.mask = 0x0000707F ∧ opcodeOf row.fixed = op ∧
      funct3Of row.fixed = f3) : HasRow w name := by
  obtain ⟨row, hrow, hname, hmask, hop', h3'⟩ := h
  refine ⟨row, hrow, ?_, hname⟩
  rw [accepts_iff hrow, hmask, and_funct3Mask_eq_iff]
  exact ⟨hop.trans hop'.symm, h3.trans h3'.symm⟩

theorem hasRow_of_funct7 (hop : opcodeOf w = op) (h3 : funct3Of w = f3) (h7 : funct7Of w = f7)
    (h : ∃ row ∈ opcodeTable, row.mnemonic = name ∧ row.mask = 0xFE00707F ∧ opcodeOf row.fixed = op ∧
      funct3Of row.fixed = f3 ∧ funct7Of row.fixed = f7) : HasRow w name := by
  obtain ⟨row, hrow, hname, hmask, hop', h3', h7'⟩ := h
  refine ⟨row, hrow, ?_, hname⟩
  rw [accepts_iff hrow, hmask, and_funct7Mask_eq_iff]
  exact ⟨hop.trans hop'.symm, h3.trans h3'.symm, h7.trans h7'.symm⟩
end

theorem hasRow_encode {i : Instr} (hi : i ≠ .sentinel) : HasRow (encode i) i.mnemonic := by
  cases i <;> rw [encode, Instr.mnemonic]
  case sentinel => exact absurd rfl hi
  case lui | auipc => exact hasRow_of_opcode (opcodeOf_encodeU ..) (by decide)
  case jal => exact hasRow_of_opcode (opcodeOf_encodeUJ ..) (by decide)
  case jalr | lb | lh | lw | lbu | lhu | addi | slti | sltiu | xori | ori | andi =>
    exact hasRow_of_funct3 (opcodeOf_encodeI ..) (funct3Of_encodeI ..) (by decide)
  case beq | bne | blt | bge | bltu | bgeu =>
    exact hasRow_of_funct3 (opcodeOf_encodeSB ..) (funct3Of_encodeSB ..) (by decide)
  case sb | sh | sw => exact hasRow_of_funct3 (opcodeOf_encodeS ..) (funct3Of_encodeS ..) (by decide)
  case slli | srli | srai | add | sub | sll | slt | sltu | xor | srl | sra | or | and =>
    exact hasRow_of_funct7 (opcodeOf_encodeR ..) (funct3Of_encodeR ..) (funct7Of_encodeR ..) (by decide)

/-! ### Every row's words decode to its instruction

The rows of one opcode stand together in the table: the branches, the loads, the stores, OP-IMM with an immediate, its
shifts, and OP. At each the word's opcode and functs are the row's, and select its case of the decoder. -/

theorem decode_of_row {row : OpcodeRow} (hrow : row ∈ opcodeTable) {w : Word} (h : row.accepts w = true) :
    ∃ i, decode w = .ok i ∧ i.mnemonic = row.mnemonic := by
  rw [accepts_iff hrow] at h
  simp only [opcodeTable, List.mem_cons, List.not_mem_nil, or_false] at hrow
  obtain rfl | rfl | rfl | rfl | hrow := hrow
  · exact ⟨_, decode_lui (and_opcodeMask_eq_iff.mp h), rfl⟩
  · exact ⟨_, decode_auipc (and_opcodeMask_eq_iff.mp h), rfl⟩
  · exact ⟨_, decode_jal (and_opcodeMask_eq_iff.mp h), rfl⟩
  · obtain ⟨hop, h3⟩ := and_funct3Mask_eq_iff.mp h
    exact ⟨_, (decode_jalr hop).trans (by rw [decodeJalr, h3]; rfl), rfl⟩
  obtain rfl | rfl | rfl | rfl | rfl | rfl | hrow := hrow
  iterate 6
    obtain ⟨hop, h3⟩ := and_funct3Mask_eq_iff.mp h
    exact ⟨_, (decode_branch hop).trans (by rw [decodeBranch, h3]; rfl), rfl⟩
  obtain rfl | rfl | rfl | rfl | rfl | hrow := hrow
  iterate 5
    obtain ⟨hop, h3⟩ := and_funct3Mask_eq_iff.mp h
    exact ⟨_, (decode_load hop).trans (by rw [decodeLoad, h3]; rfl), rfl⟩
  obtain rfl | rfl | rfl | hrow := hrow
  iterate 3
    obtain ⟨hop, h3⟩ := and_funct3Mask_eq_iff.mp h
    exact ⟨_, (decode_store hop).trans (by rw [decodeStore, h3]; rfl), rfl⟩
  obtain rfl | rfl | rfl | rfl | rfl | rfl | hrow := hrow
  iterate 6
    obtain ⟨hop, h3⟩ := and_funct3Mask_eq_iff.mp h
    exact ⟨_, (decode_opImm hop).trans (by rw [decodeOpImm, h3]; rfl), rfl⟩
  obtain rfl | rfl | rfl | hrow := hrow
  · obtain ⟨hop, h3, h7⟩ := and_funct7Mask_eq_iff.mp h
    exact ⟨_, (decode_opImm hop).trans (by rw [decodeOpImm, h3, h7]; rfl), rfl⟩
  iterate 2
    obtain ⟨hop, h3, h7⟩ := and_funct7Mask_eq_iff.mp h
    exact ⟨_, (decode_opImm hop).trans (by rw [decodeOpImm, h3, decodeShiftRightImm, h7]; rfl), rfl⟩
  obtain rfl | rfl | rfl | rfl | rfl | rfl | rfl | rfl | rfl | rfl := hrow
  iterate 10
    obtain ⟨hop, h3, h7⟩ := and_funct7Mask_eq_iff.mp h
    exact ⟨_, (decode_op hop).trans (by rw [decodeOp, h7, h3]; rfl), rfl⟩

/-- Settles O10: an accepted word is the encoding of what it decodes to, so of its row; and at each row the decoder
takes that row. -/
theorem decodeFollowsTheOpcodeTable : Obligations.DecodeFollowsTheOpcodeTable := by
  refine fun w hw => ⟨fun i hd => ?_, fun row hrow h => decode_of_row hrow h⟩
  obtain ⟨rfl, -⟩ := encode_of_decode hd
  refine hasRow_encode ?_
  rintro rfl
  exact hw rfl

end Sys2Proof
end

section
/-! What the decoder turns away by its opcode, and ten words of the spec (spec/30_encoding.md sections 1 and 4). -/

namespace Sys2Proof.Machine

/-- The decoder has no case for an opcode outside the nine (R58). -/
theorem decodeNonzero_unsupported {w : Word} (h : opcodeOf w ∉ supportedOpcodes) :
    decodeNonzero w = .error (.unsupportedOpcode w) := by
  unfold decodeNonzero
  split
  case h_10 => rfl
  all_goals
    rename_i hop
    exact absurd (by rw [hop]; decide) h

/-- An opcode's two low bits are the word's (R53). -/
theorem opcodeOf_low_bits (w : Word) : (opcodeOf w).extractLsb' 0 2 = w.extractLsb' 0 2 := by
  apply BitVec.eq_of_getLsbD_eq
  intro k hk
  simp [opcodeOf, hk]

theorem supportedOpcodes_low_bits : ∀ op ∈ supportedOpcodes, op.extractLsb' 0 2 = 0b11#2 := by decide

/-- Settles O12: the opcodes of FENCE, the AMOs and SYSTEM are not of the nine, whose low bits are all 11. -/
theorem absentInstructionsRejected : Obligations.AbsentInstructionsRejected := by
  refine fun w hw => ⟨fun hop => ?_, fun h hop => ?_⟩
  · have hd : decode w = .error (.unsupportedOpcode w) := by
      rw [decode, if_neg hw, decodeNonzero_unsupported hop]
    exact ⟨hd, by rw [accepted, hd]⟩
  · rcases h with h | h | h | h
    case inr.inr.inr => exact h ((opcodeOf_low_bits w).symm.trans (supportedOpcodes_low_bits _ hop))
    all_goals
      rw [h] at hop
      revert hop
      decide

/-- Settles O7: each word evaluated. -/
theorem decodesWordsOfTheSpec : Obligations.DecodesWordsOfTheSpec := by
  unfold Obligations.DecodesWordsOfTheSpec
  decide

end Sys2Proof.Machine
end

section
/-! The bits of every format's immediate (spec/30_encoding.md R56). -/

namespace Sys2Proof.Machine

/-! ### The bits of each format, extended to 32 bits

A bit of a concatenation is a bit of one of its slices, so of the word; the bits above are the sign, bit 31. -/

section
variable (w : Word) {k : Nat}

theorem getLsbD_signExtend_immI (hk : k < 32) : ((immI w).signExtend 32).getLsbD k =
    if k < 11 then w.getLsbD (20 + k) else w.getLsbD 31 := by
  simp only [BitVec.getLsbD_signExtend, BitVec.msb_eq_getLsbD_last, immI, BitVec.getLsbD_extractLsb']
  grind

theorem getLsbD_signExtend_immS (hk : k < 32) : ((immS w).signExtend 32).getLsbD k =
    if k < 5 then w.getLsbD (7 + k) else if k < 11 then w.getLsbD (20 + k) else w.getLsbD 31 := by
  simp only [BitVec.getLsbD_signExtend, BitVec.msb_eq_getLsbD_last, immS, BitVec.getLsbD_append,
    BitVec.getLsbD_extractLsb']
  grind

theorem getLsbD_signExtend_immSB (hk : k < 32) : ((immSB w).signExtend 32).getLsbD k =
    if k = 0 then false else if k < 5 then w.getLsbD (7 + k)
      else if k < 11 then w.getLsbD (20 + k) else if k = 11 then w.getLsbD 7 else w.getLsbD 31 := by
  simp only [BitVec.getLsbD_signExtend, BitVec.msb_eq_getLsbD_last, immSB, BitVec.getLsbD_append,
    BitVec.getLsbD_extractLsb']
  grind

theorem getLsbD_upperImm_immU (hk : k < 32) : (upperImm (immU w)).getLsbD k =
    if k < 12 then false else w.getLsbD k := by
  simp only [upperImm, immU, BitVec.getLsbD_append, BitVec.getLsbD_extractLsb']
  grind

theorem getLsbD_signExtend_immUJ (hk : k < 32) : ((immUJ w).signExtend 32).getLsbD k =
    if k = 0 then false else if k < 11 then w.getLsbD (20 + k)
      else if k = 11 then w.getLsbD 20 else if k < 20 then w.getLsbD k else w.getLsbD 31 := by
  simp only [BitVec.getLsbD_signExtend, BitVec.msb_eq_getLsbD_last, immUJ, BitVec.getLsbD_append,
    BitVec.getLsbD_extractLsb']
  grind
end

/-! ### Words without an immediate -/

theorem immTable_unsupported : ∀ op : BitVec 7, op ∉ supportedOpcodes → (lookup immTable op).isNone = true := by
  decide

theorem immOf_unsupported {w : Word} (h : opcodeOf w ∉ supportedOpcodes) : immOf w = none := by
  rw [immOf, Option.isNone_iff_eq_none.mp (immTable_unsupported _ h), Option.map_none]

/-- A cycle past its early stop that finds no immediate stops on the latched word. -/
theorem cycle_of_immOf_none {s : State} {c : Control} (hi : immOf s.ir = none) (hc : s.control = some c)
    (he : s.earlyStop c = none) : cycle s = s.raiseStop s.fsm (.fault (.undefinedDecode s.ir)) := by
  simp only [cycle, hc, he, State.transfer, hi]

/-- Settles O13: each opcode's row of the immediate table, bit by bit, and none outside the nine opcodes. -/
theorem immediateTable : Obligations.ImmediateTable := by
  refine ⟨fun s c hop hc he => cycle_of_immOf_none (immOf_unsupported hop) hc he, fun w =>
    ⟨?_, ?_, ?_, ?_, ?_, ?_, immOf_unsupported⟩⟩
  · rintro (h | h | h)
    · exact ⟨_, immOf_load h, fun _ => getLsbD_signExtend_immI w⟩
    · exact ⟨_, immOf_opImm h, fun _ => getLsbD_signExtend_immI w⟩
    · exact ⟨_, immOf_jalr h, fun _ => getLsbD_signExtend_immI w⟩
  · exact fun h => ⟨_, immOf_store h, fun _ => getLsbD_signExtend_immS w⟩
  · exact fun h => ⟨_, immOf_branch h, fun _ => getLsbD_signExtend_immSB w⟩
  · rintro (h | h)
    · exact ⟨_, immOf_auipc h, fun _ => getLsbD_upperImm_immU w⟩
    · exact ⟨_, immOf_lui h, fun _ => getLsbD_upperImm_immU w⟩
  · exact fun h => ⟨_, immOf_jal h, fun _ => getLsbD_signExtend_immUJ w⟩
  · exact fun h => ⟨_, immOf_op h, fun _ _ => BitVec.getLsbD_zero⟩

end Sys2Proof.Machine
end

section
/-! A decoded word's meaning, in the fields its control tables read (spec/40_datapath_cycle.md R77 to R80, R91). -/

namespace Sys2Proof.Machine

/-! ### The comparisons of the branches (R118) -/

theorem shouldBranch_zero (z : Bool) : shouldBranch true false z = z := by cases z <;> rfl
theorem shouldBranch_notZero (z : Bool) : shouldBranch false true z = !z := by cases z <;> rfl
theorem shouldBranch_always (z : Bool) : shouldBranch true true z = true := by cases z <;> rfl

theorem zeroFlag_sub (a b : Word) : zeroFlag (a - b) = (a == b) := by
  rw [zeroFlag, Bool.eq_iff_iff, beq_iff_eq, beq_iff_eq]
  exact sub_eq_zero
theorem zeroFlag_boolWord (p : Bool) : zeroFlag (boolWord p) = !p := by cases p <;> rfl

section
variable (a b : Word)

theorem beq_decided : (a == b) = shouldBranch true false (zeroFlag (a - b)) := by
  rw [shouldBranch_zero, zeroFlag_sub]
theorem bne_decided : (a != b) = shouldBranch false true (zeroFlag (a - b)) := by
  rw [shouldBranch_notZero, zeroFlag_sub, bne]
theorem blt_decided : decide (a.toInt < b.toInt) = shouldBranch false true (zeroFlag (lessSigned a b)) := by
  rw [shouldBranch_notZero, lessSigned, zeroFlag_boolWord, Bool.not_not]
theorem bge_decided : decide (a.toInt ≥ b.toInt) = shouldBranch true false (zeroFlag (lessSigned a b)) := by
  rw [shouldBranch_zero, lessSigned, zeroFlag_boolWord, ← decide_not, decide_eq_decide, not_lt]
theorem bltu_decided : decide (a.toNat < b.toNat) = shouldBranch false true (zeroFlag (lessUnsigned a b)) := by
  rw [shouldBranch_notZero, lessUnsigned, zeroFlag_boolWord, Bool.not_not]
theorem bgeu_decided : decide (a.toNat ≥ b.toNat) = shouldBranch true false (zeroFlag (lessUnsigned a b)) := by
  rw [shouldBranch_zero, lessUnsigned, zeroFlag_boolWord, ← decide_not, decide_eq_decide, not_lt]
end

/-! ### The shift amount of a shift immediate (R112) -/

/-- The ALU shifts by the low five bits of the I immediate, which are the instruction's shift amount. -/
theorem shiftAmount_immI (w : Word) : shiftAmount ((immI w).signExtend 32) = (shamtOf w).toNat := by
  rw [shiftAmount]
  congr 1
  apply BitVec.eq_of_getLsbD_eq
  intro k hk
  have h11 : k < 11 := by omega
  rw [BitVec.getLsbD_extractLsb', getLsbD_signExtend_immI w (by omega), shamtOf, BitVec.getLsbD_extractLsb']
  simp [hk, h11]

/-! ### The meaning of a decoded word

Within one opcode the rows differ in their functs alone, which the ALU, the branch predicates and the memSize table
read as the decoder does. -/

section
variable {w : Word} {i : Instr}

section
variable (s : State)

theorem exec_of_decodeOp (h : decodeOp w = some i) : exec i s = s.finishAlu (rdOf w)
    (alu (funct3Of w) ((funct7Of w).getLsbD 5) (s.readReg (rs1Of w)) (s.readReg (rs2Of w))) := by
  unfold decodeOp at h
  split at h <;> cases h
  all_goals
    rename_i h7 h3
    rw [h3, h7]
    rfl

theorem exec_of_decodeShiftRightImm (h3 : funct3Of w = 0b101#3) (h : decodeShiftRightImm w = some i) :
    exec i s = s.finishAlu (rdOf w) (alu (funct3Of w) (shiftAlt (funct3Of w) (funct7Of w)) (s.readReg (rs1Of w))
      ((immI w).signExtend 32)) := by
  unfold decodeShiftRightImm at h
  split at h <;> cases h
  all_goals
    rename_i h7
    rw [h3, h7, exec]
  · rw [execSrli, ← shiftAmount_immI]; rfl
  · rw [execSrai, ← shiftAmount_immI]; rfl

theorem exec_of_decodeOpImm (h : decodeOpImm w = some i) : exec i s = s.finishAlu (rdOf w)
    (alu (funct3Of w) (shiftAlt (funct3Of w) (funct7Of w)) (s.readReg (rs1Of w)) ((immI w).signExtend 32)) := by
  unfold decodeOpImm at h
  split at h
  case h_2 h3 =>
    split at h <;> cases h
    rename_i h7
    rw [h3, h7, exec, execSlli, ← shiftAmount_immI]
    rfl
  case h_6 h3 => exact exec_of_decodeShiftRightImm s h3 h
  case h_9 => cases h
  all_goals
    rename_i h3
    cases h
    rw [h3]
    rfl

/-- The ALU's comparison and the predicates over its flag decide the branch (R118). -/
theorem exec_of_decodeBranch (h : decodeBranch w = some i) {r : Word}
    (hr : alu (branchAluOp (funct3Of w)) true (s.readReg (rs1Of w)) (s.readReg (rs2Of w)) = r) :
    exec i s = s.finishBranch r (shouldBranch (branchPredicates (funct3Of w)).1 (branchPredicates (funct3Of w)).2
      (zeroFlag r)) (immSB w) := by
  subst hr
  unfold decodeBranch at h
  split at h <;> cases h
  all_goals
    rename_i h3
    rw [h3]
  · rw [exec, execBeq, beq_decided]; rfl
  · rw [exec, execBne, bne_decided]; rfl
  · rw [exec, execBlt, blt_decided]; rfl
  · rw [exec, execBge, bge_decided]; rfl
  · rw [exec, execBltu, bltu_decided]; rfl
  · rw [exec, execBgeu, bgeu_decided]; rfl

end

/-- A load's funct3 gives its access: the low bits have a row in the memSize table, the high bit is the extension. -/
theorem exec_of_decodeLoad (h : decodeLoad w = some i) :
    ∃ size, lookup memSizeTable ((funct3Of w).extractLsb' 0 2) = some size ∧
      ∀ s : State, exec i s = s.doLoad size (if (funct3Of w).getLsbD 2 then .unsigned else .signed) (rdOf w) (rs1Of w)
        (immI w) := by
  unfold decodeLoad at h
  split at h <;> cases h
  all_goals
    rename_i h3
    rw [h3]
    exact ⟨_, rfl, fun _ => rfl⟩

theorem exec_of_decodeStore (h : decodeStore w = some i) :
    ∃ size, lookup memSizeTable ((funct3Of w).extractLsb' 0 2) = some size ∧
      ∀ s : State, exec i s = s.doStore size (rs2Of w) (rs1Of w) (immS w) := by
  unfold decodeStore at h
  split at h <;> cases h
  all_goals
    rename_i h3
    rw [h3]
    exact ⟨_, rfl, fun _ => rfl⟩
end

end Sys2Proof.Machine
end

section
/-! The meaning of an accepted word is its five ticks (spec/40_datapath_cycle.md R89 to R91). -/

namespace Sys2Proof.Machine

/-! ### The end of an instruction -/

/-- The register write of WRITEBACK and the return to FETCH do not read each other. -/
theorem State.retire_writeReg (s : State) (r : RegIdx) (v p : Word) :
    (s.writeReg r v).retire p = (s.retire p).writeReg r v := by
  unfold State.writeReg
  split <;> rfl

/-- WRITEBACK's loads are `retire`'s. -/
theorem State.retire_of_reread {t : State} {w : Word} (p : Word) (h : t.reread = w) :
    { t with pc := p, memReadData := w, fsm := .fetch } = t.retire p := by rw [State.retire, h]

/-- WRITEBACK of a load: the word read goes to the register, then `memReadData` takes the fetch word again. -/
theorem State.retire_writeReg_of_reread {t : State} {w : Word} (r : RegIdx) (v p d : Word) (h : t.reread = w) :
    (t.retire p).writeReg r v =
      { State.writeReg { t with memReadData := d } r v with pc := p, memReadData := w, fsm := .fetch } := by
  rw [State.retire, h]
  unfold State.writeReg
  split <;> rfl

/-- A MEMORY stop freezes the word EXECUTE read again. -/
theorem State.raiseInMemory_of_reread {t : State} (f : Fault) (h : t.reread = t.memReadData) :
    { t with fsm := .memory, stop := .fault f } = t.raiseInMemory f := by rw [State.raiseInMemory, h]; rfl

theorem pcSrcMux_ite (taken : Bool) (pc4 target : Word) :
    pcSrcMux (if taken then .jumpControl else .pc4) pc4 target = if taken then target else pc4 := by
  cases taken <;> rfl

@[simp] theorem State.afterExecute_reread (c : Control) (imm : Word) (s : State) :
    (s.afterExecute c imm).reread = s.reread := by
  unfold State.afterExecute
  split <;> rfl

@[simp] theorem State.afterWriteback_reread (b : Control) (imm : Word) (s : State) :
    (s.afterWriteback b imm).reread = s.reread := by
  unfold State.afterWriteback
  split
  · exact State.writeReg_reread ..
  · rfl

/-! ### The five ticks of an accepted word -/

/-- A running core in FETCH, with an accepted word in the latch, that fetches the accepted word `w`. -/
structure State.Fetches (s : State) (w : Word) : Prop where
  running : s.Running
  fsm : s.fsm = .fetch
  latched : accepted s.ir = true
  traps : s.fetchTraps = false
  read : memRead s.mem s.fetchAddr .word = .ok w
  isAccepted : accepted w = true

/-- What EXECUTE of the latched word computes. -/
def State.aluResult (c : Control) (imm : Word) (s : State) : Word :=
  alu c.aluOp c.aluAlt (aluSrcMux1 c.aluSrc1 (s.readReg (rs1Of s.ir)) s.pc)
    (aluSrcMux2 c.aluSrc2 (s.readReg (rs2Of s.ir)) imm)

theorem State.afterExecute_of_aluCalc {c : Control} (imm : Word) (s : State) (h : c.aluCalc = true) :
    s.afterExecute c imm = s.setAlu (s.aluResult c imm) := if_pos h

/-- A load and a store compute their effective address. -/
theorem State.afterExecute_address (s : State) (imm : BitVec 12) :
    s.afterExecute { Control.defaults with aluCalc := true, aluSrc2 := .imm } (imm.signExtend 32) =
      s.setAlu (s.effectiveAddress (rs1Of s.ir) imm) := rfl

@[simp] theorem State.latch_loadData (s : State) (w addr : Word) (size : AccessSize) :
    (s.latch w).loadData addr size = s.loadData addr size := rfl
@[simp] theorem State.latch_storeData (s : State) (w addr v : Word) (size : AccessSize) :
    (s.latch w).storeData addr size v = s.storeData addr size v := rfl

namespace State.Fetches

variable {s : State} {w imm : Word} {i : Instr} {c b : Control} (h : s.Fetches w)
include h

theorem latch_reread : (s.latch w).reread = w := State.reread_eq h.read

theorem setAlu_reread (r : Word) : ((s.latch w).setAlu r).reread = w := h.latch_reread

/-- The ticks of a word without a data access. -/
theorem ticks_idle (hi : immOf w = some imm) (hc : executeControl w = some c)
    (hm : memoryControl w = some Control.defaults) (hb : writebackControl w = some b) :
    ticks 5 s = (((s.latch w).afterExecute c imm).afterWriteback b imm).retire
      (((s.latch w).afterExecute c imm).nextPc b imm) := by
  obtain ⟨imm0, hl⟩ := immOf_of_accepted h.latched
  rw [ticks_five_idle h.running h.fsm hl h.traps h.read h.isAccepted hi hc hm hb]
  exact State.retire_of_reread _ (by simp [h.latch_reread])

/-- The ticks of a word that writes the ALU's result. -/
theorem finishAlu_eq_ticks (hi : immOf w = some imm) (hc : executeControl w = some c) (hcalc : c.aluCalc = true)
    (hop : opcodeOf w = 0b0110011#7 ∨ opcodeOf w = 0b0010011#7 ∨ opcodeOf w = 0b0010111#7) :
    (s.latch w).finishAlu (rdOf w) ((s.latch w).aluResult c imm) = .next (ticks 5 s) := by
  rw [h.ticks_idle hi hc (memoryControl_idle (by tauto)) (writebackControl_alu hop),
    State.afterExecute_of_aluCalc _ _ hcalc, State.finishAlu, ← State.retire_writeReg]
  rfl

theorem exec_op (hop : opcodeOf w = 0b0110011#7) (hd : decodeOp w = some i) :
    exec i (s.latch w) = .next (ticks 5 s) :=
  (exec_of_decodeOp _ hd).trans (h.finishAlu_eq_ticks (immOf_op hop) (executeControl_op hop) rfl (by tauto))

theorem exec_opImm (hop : opcodeOf w = 0b0010011#7) (hd : decodeOpImm w = some i) :
    exec i (s.latch w) = .next (ticks 5 s) :=
  (exec_of_decodeOpImm _ hd).trans (h.finishAlu_eq_ticks (immOf_opImm hop) (executeControl_opImm hop) rfl (by tauto))

theorem exec_auipc (hop : opcodeOf w = 0b0010111#7) :
    exec (.auipc (rdOf w) (immU w)) (s.latch w) = .next (ticks 5 s) :=
  h.finishAlu_eq_ticks (immOf_auipc hop) (executeControl_auipc hop) rfl (by tauto)

theorem exec_lui (hop : opcodeOf w = 0b0110111#7) :
    exec (.lui (rdOf w) (immU w)) (s.latch w) = .next (ticks 5 s) := by
  rw [h.ticks_idle (immOf_lui hop) (executeControl_lui hop) (memoryControl_idle (by tauto))
    (writebackControl_lui hop), exec, execLui, ← State.retire_writeReg]
  rfl

/-- The ticks of a jump: both branch predicates are asserted, so `pc` takes JumpControl's sum, which is the ALU's. -/
theorem finishJump_eq_ticks (hi : immOf w = some imm) (hc : executeControl w = some c) (hcalc : c.aluCalc = true)
    (hop : opcodeOf w = 0b1101111#7 ∨ opcodeOf w = 0b1100111#7) {src : JumpSrc}
    (hb : writebackControl w = some { Control.defaults with
      regWrite := true, writeDataMuxSrc := .pc4, branchZero := true, branchNotZero := true, jumpControlSrc := src,
      loadPC := true })
    (hsum : jumpBase src s.pc (s.readReg (rs1Of w)) + imm = (s.latch w).aluResult c imm) :
    (s.latch w).finishJump (rdOf w) ((s.latch w).aluResult c imm) = .next (ticks 5 s) := by
  rw [h.ticks_idle hi hc (memoryControl_idle (by tauto)) hb, State.afterExecute_of_aluCalc _ _ hcalc,
    State.finishJump, ← State.retire_writeReg, State.nextPc, shouldBranch_always, ← hsum]
  rfl

theorem exec_jal (hop : opcodeOf w = 0b1101111#7) :
    exec (.jal (rdOf w) (immUJ w)) (s.latch w) = .next (ticks 5 s) :=
  h.finishJump_eq_ticks (immOf_jal hop) (executeControl_jal hop) rfl (.inl hop) (writebackControl_jal hop) rfl

theorem exec_jalr (hop : opcodeOf w = 0b1100111#7) (hd : decodeJalr w = some i) :
    exec i (s.latch w) = .next (ticks 5 s) := by
  unfold decodeJalr at hd
  split at hd <;> cases hd
  exact h.finishJump_eq_ticks (immOf_jalr hop) (executeControl_jalr hop) rfl (.inr hop) (writebackControl_jalr hop) rfl

theorem exec_branch (hop : opcodeOf w = 0b1100011#7) (hd : decodeBranch w = some i) :
    exec i (s.latch w) = .next (ticks 5 s) := by
  rw [h.ticks_idle (immOf_branch hop) (executeControl_branch hop) (memoryControl_idle (by tauto))
    (writebackControl_branch hop), exec_of_decodeBranch _ hd rfl, State.finishBranch, State.nextPc, pcSrcMux_ite]
  rfl

/-- The memory stop of a load or store, after EXECUTE has left the effective address. -/
theorem memory_stop (ea : Word) (f : Fault) :
    { (s.latch w).setAlu ea with fsm := .memory, stop := .fault f } = ((s.latch w).setAlu ea).raiseInMemory f :=
  State.raiseInMemory_of_reread f h.latch_reread

theorem exec_load (hop : opcodeOf w = 0b0000011#7) (hd : decodeLoad w = some i) :
    exec i (s.latch w) = .next (ticks 5 s) := by
  obtain ⟨imm0, hl⟩ := immOf_of_accepted h.latched
  obtain ⟨size, hsize, hexec⟩ := exec_of_decodeLoad hd
  rw [hexec, State.doLoad, State.latch_loadData, ticks_five_load h.running h.fsm hl h.traps h.read h.isAccepted
    (immOf_load hop) (executeControl_load hop) (memoryControl_load hop) hsize (writebackControl_load hop),
    State.afterExecute_address, State.setAlu_aluOut, State.latch_ir]
  cases s.loadData ((s.latch w).effectiveAddress (rs1Of w) (immI w)) size with
  | error f => exact congrArg _ (h.memory_stop _ f).symm
  | ok r => exact congrArg Host.Outcome.next (State.retire_writeReg_of_reread _ _ _ _ (h.setAlu_reread _))

theorem exec_store (hop : opcodeOf w = 0b0100011#7) (hd : decodeStore w = some i) :
    exec i (s.latch w) = .next (ticks 5 s) := by
  obtain ⟨imm0, hl⟩ := immOf_of_accepted h.latched
  obtain ⟨size, hsize, hexec⟩ := exec_of_decodeStore hd
  rw [hexec, State.doStore, State.latch_storeData, State.latch_readReg, ticks_five_store h.running h.fsm hl h.traps
    h.read h.isAccepted (immOf_store hop) (executeControl_store hop) (memoryControl_store hop) hsize
    (writebackControl_store hop) rfl rfl, State.afterExecute_address, State.setAlu_aluOut, State.latch_ir]
  cases s.storeData ((s.latch w).effectiveAddress (rs1Of w) (immS w)) size (s.readReg (rs2Of w)) with
  | error f => exact congrArg _ (h.memory_stop _ f).symm
  | ok m => rfl

/-- The meaning of an accepted word is what its ticks leave. -/
theorem exec_eq_ticks (hd : decode w = .ok i) : exec i (s.latch w) = .next (ticks 5 s) := by
  have h0 : w ≠ 0 := by
    rintro rfl
    exact absurd h.isAccepted (by decide)
  rw [decode, if_neg h0, decodeNonzero] at hd
  split at hd
  case h_1 hop => exact h.exec_load hop (listed_ok hd)
  case h_2 hop => exact h.exec_opImm hop (listed_ok hd)
  case h_3 hop => cases hd; exact h.exec_auipc hop
  case h_4 hop => exact h.exec_store hop (listed_ok hd)
  case h_5 hop => exact h.exec_op hop (listed_ok hd)
  case h_6 hop => cases hd; exact h.exec_lui hop
  case h_7 hop => exact h.exec_branch hop (listed_ok hd)
  case h_8 hop => exact h.exec_jalr hop (listed_ok hd)
  case h_9 hop => cases hd; exact h.exec_jal hop
  case h_10 => cases hd

end State.Fetches
end Sys2Proof.Machine
end

section
/-! Stops in FETCH and DECODE, the step as five ticks, and runs of steps (spec/40_datapath_cycle.md R89 to R91,
spec/70_reset_and_hazards.md R164). -/

namespace Sys2Proof.Machine

/-! ### The early stops (R89) -/

theorem ticks_succ_of_stops {s t : State} (h : tickState s = t) (ht : t.stop ≠ .none) (n : Nat) :
    ticks (n + 1) s = t := by rw [ticks_succ, h, ticks_stopped ht]

/-- What FETCH leaves, having read `w`. -/
def State.fetched (s : State) (w : Word) : State := { s with started := true, memReadData := w, fsm := .decode }

section
variable {s : State} {w : Word} (hr : s.Running) (hf : s.fsm = .fetch) (hl : accepted s.ir = true)
include hr hf

theorem step_eq_ticks_of_traps (ht : s.fetchTraps = true) : step s = .next (ticks 5 s) := by
  have htick : tickState s = State.raiseStop { s with started := true } .fetch (.fault (.misalignedFetch s.pc)) := by
    rw [tickState_running hr, cycle_fetch_traps (s := { s with started := true }) hf ht]
  rw [step_fetch hr hf, State.fetchDecode, if_pos ht, ticks_succ_of_stops htick (by simp)]

include hl

theorem step_eq_ticks_of_fetch_error {f : Fault} (ht : s.fetchTraps = false)
    (hw : memRead s.mem s.fetchAddr .word = .error f) : step s = .next (ticks 5 s) := by
  obtain ⟨imm, hi⟩ := immOf_of_accepted hl
  have htick : tickState s = State.raiseStop { s with started := true } .fetch (.fault f) := by
    rw [tickState_running hr, cycle_fetch_error (s := { s with started := true }) hf hi ht hw]
  rw [step_fetch hr hf, State.fetchDecode, if_neg (by simp [ht]), hw, ticks_succ_of_stops htick (by simp)]

theorem tickState_fetch (ht : s.fetchTraps = false) (hw : memRead s.mem s.fetchAddr .word = .ok w) :
    tickState s = s.fetched w := by
  obtain ⟨imm, hi⟩ := immOf_of_accepted hl
  rw [tickState_running hr, cycle_fetch (s := { s with started := true }) hf hi ht hw, State.fetched]

theorem step_eq_ticks_of_sentinel (ht : s.fetchTraps = false) (hw : memRead s.mem s.fetchAddr .word = .ok 0) :
    step s = .next (ticks 5 s) := by
  have htick : tickState (s.fetched 0) = (s.latch 0).raiseStop .decode .endOfProgram := by
    rw [tickState_running (show (s.fetched 0).Running from hr), cycle_decode_zero rfl rfl]
    rfl
  rw [step_fetch hr hf, fetchDecode_of_read ht hw, ticks_succ, tickState_fetch hr hf hl ht hw,
    ticks_succ_of_stops htick (by simp)]
  rfl

theorem step_eq_ticks_of_undefined {e : DecodeReject} (ht : s.fetchTraps = false)
    (hw : memRead s.mem s.fetchAddr .word = .ok w) (hd : decode w = .error e) : step s = .next (ticks 5 s) := by
  have h0 : w ≠ 0 := by rintro rfl; cases hd
  have ha : accepted w = false := by rw [accepted, hd]
  have htick : tickState (s.fetched w) = (s.latch w).raiseStop .decode (.fault (.undefinedDecode w)) := by
    rw [tickState_running (show (s.fetched w).Running from hr), cycle_decode_undefined rfl h0 ha]
    rfl
  rw [step_fetch hr hf, fetchDecode_of_read ht hw, State.decodeFetched, hd, ticks_succ,
    tickState_fetch hr hf hl ht hw, ticks_succ_of_stops htick (by simp)]
end

/-! ### Steps -/

/-- Settles O43: the fetch and decode of a step latch the word and hand its instruction to `exec`. -/
theorem stepRunsTheDecodedInstruction : Obligations.StepRunsTheDecodedInstruction := by
  intro s w i hr hf ht hw hd
  rw [step_fetch hr hf, fetchDecode_of_read ht hw, State.decodeFetched, hd]
  rfl

/-- Settles O44: a stop in FETCH or DECODE freezes both alike, and the ticks of an accepted word are its meaning. -/
theorem stepIsFiveTicks : Obligations.StepIsFiveTicks := by
  intro s hinv hr hf
  have hl := hinv.latchOk hr
  cases ht : s.fetchTraps with
  | true => exact step_eq_ticks_of_traps hr hf ht
  | false =>
    cases hw : memRead s.mem s.fetchAddr .word with
    | error f => exact step_eq_ticks_of_fetch_error hr hf hl ht hw
    | ok w =>
      cases hd : decode w with
      | error e => exact step_eq_ticks_of_undefined hr hf hl ht hw hd
      | ok i =>
        by_cases hi : i = .sentinel
        · subst hi
          obtain ⟨rfl, -⟩ := encode_of_decode hd
          exact step_eq_ticks_of_sentinel hr hf hl ht hw
        · have ha : accepted w = true := by simp [accepted, hd, hi]
          rw [stepRunsTheDecodedInstruction s w i hr hf ht hw hd]
          exact State.Fetches.exec_eq_ticks ⟨hr, hf, hl, ht, hw, ha⟩ hd

/-! ### Runs -/

theorem ticks_number {s : State} (n : Nat) (h : (ticks n s).Running) :
    (ticks n s).fsm.number = (s.fsm.number + n) % 5 := by
  induction n generalizing s with
  | zero => cases hf : s.fsm <;> simp [ticks, hf, FsmState.number]
  | succ n ih =>
    have hs : s.Running := running_before h 0 (by omega)
    have ht : (tickState s).Running := running_before h 1 (by omega)
    have hn := (tickAdvancesFsm s hs).1 ht
    rw [ticks_succ] at h ⊢
    rw [ih h, hn]
    omega

theorem fsm_of_number_zero {f : FsmState} (h : f.number = 0) : f = .fetch := by
  cases f with
  | fetch => rfl
  | _ => cases h

theorem ticks_five_fetch {s : State} (hf : s.fsm = .fetch) (h : (ticks 5 s).Running) : (ticks 5 s).fsm = .fetch :=
  fsm_of_number_zero (by rw [ticks_number 5 h, hf]; rfl)

theorem step_completed {s : State} (h : s.Completed) : step s = .next s := by
  rw [step, h]
theorem step_faulted {s : State} {r : Fault} (h : s.stop = .fault r) : step s = .fault r := by
  rw [step, h]

/-- A run of steps goes no further than a stopped core. -/
theorem coreRun_stopped {s t : State} (n : Nat) (hs : ¬s.Running) (h : core.run n s = .next t) : t = s := by
  induction n with
  | zero => cases h; rfl
  | succ n ih =>
    cases hstop : s.stop with
    | none => exact absurd hstop hs
    | endOfProgram => exact ih ((run_next n (step_completed hstop)).symm.trans h)
    | fault r => cases (run_fault n (step_faulted hstop)).symm.trans h

/-- Settles O45, by induction on the number of steps: each of them is five ticks that leave the core running. -/
theorem instructionsAreRunsOfTicks : Obligations.InstructionsAreRunsOfTicks := by
  intro n
  induction n with
  | zero => intro s t _ _ hf h _; cases h; exact ⟨rfl, hf⟩
  | succ n ih =>
    intro s t hinv hr hf h ht
    have hstep := stepIsFiveTicks s hinv hr hf
    rw [run_next n hstep] at h
    have hrun : (ticks 5 s).Running := by
      by_contra hstop
      rw [coreRun_stopped n hstop h] at ht
      exact hstop ht
    obtain ⟨hticks, hfetch⟩ := ih _ t (stepKeepsInvariant s _ hinv hstep) hrun (ticks_five_fetch hf hrun) h ht
    rw [show 5 * (n + 1) = 5 + 5 * n by omega, ticks_add]
    exact ⟨hticks, hfetch⟩

end Sys2Proof.Machine
end

section
/-! Every table lookup of an accepted word has a row (spec/40_datapath_cycle.md R77 to R82). -/

namespace Sys2Proof

theorem matchesPattern_of_all_X {p : List Tri} (h : p.all (· == .X) = true) (bit : Nat → Bool) :
    matchesPattern p bit = true := by
  induction p with
  | nil => rfl
  | cons t ts ih =>
    rw [List.all_cons, Bool.and_eq_true, beq_iff_eq] at h
    obtain ⟨rfl, hts⟩ := h
    exact ih hts

/-- A table with a row of don't cares has a match for every key. -/
theorem lookup_isSome {n : Nat} {α : Type} {rows : List (List Tri × α)} (h : rows.any (·.1.all (· == .X)) = true)
    (key : BitVec n) : (lookup rows key).isSome = true := by
  induction rows with
  | nil => cases h
  | cons row rows ih =>
    rw [lookup]
    split
    · rfl
    · rename_i hrow
      rw [List.any_cons, Bool.or_eq_true] at h
      rcases h with h | h
      · exact absurd (matchesPattern_of_all_X h _) hrow
      · exact ih h

end Sys2Proof

namespace Sys2Proof.Machine

theorem executeControl_isSome (w : Word) : (executeControl w).isSome = true := by
  rw [executeControl, Option.isSome_map]
  exact lookup_isSome rfl _

theorem writebackControl_isSome (w : Word) : (writebackControl w).isSome = true := by
  obtain ⟨row, hrow⟩ := Option.isSome_iff_exists.mp (lookup_isSome (rows := writebackTable) rfl (opcodeOf w))
  obtain ⟨j, hj⟩ := Option.isSome_iff_exists.mp (lookup_isSome (rows := jumpTable) rfl (opcodeOf w ++ funct3Of w))
  rw [writebackControl, hrow, hj]
  rfl

/-- The decoder accepts no load and no store of the funct3 whose `memSize` has no row. -/
theorem memoryControl_of_accepted {w : Word} (h : accepted w = true) :
    ∃ c, memoryControl w = some c ∧ (lookup memSizeTable c.memSize).isSome = true := by
  obtain ⟨i, hd, -⟩ := decode_of_accepted h
  have hop := opcodeOf_mem_of_accepted h
  simp only [supportedOpcodes, List.mem_cons, List.not_mem_nil, or_false] at hop
  by_cases hload : opcodeOf w = 0b0000011#7
  · rw [decode_load hload] at hd
    obtain ⟨size, hsize, -⟩ := exec_of_decodeLoad (listed_ok hd)
    exact ⟨_, memoryControl_load hload, Option.isSome_iff_exists.mpr ⟨size, hsize⟩⟩
  by_cases hstore : opcodeOf w = 0b0100011#7
  · rw [decode_store hstore] at hd
    obtain ⟨size, hsize, -⟩ := exec_of_decodeStore (listed_ok hd)
    exact ⟨_, memoryControl_store hstore, Option.isSome_iff_exists.mpr ⟨size, hsize⟩⟩
  exact ⟨_, memoryControl_idle (by tauto), rfl⟩

/-- Settles O14: the control tables end in catch-alls, and no accepted word selects the row memSize lacks. -/
theorem acceptedWordsMatchEveryTable : Obligations.AcceptedWordsMatchEveryTable := fun w h =>
  ⟨Option.isSome_iff_exists.mpr (immOf_of_accepted h), executeControl_isSome w, writebackControl_isSome w,
    memoryControl_of_accepted h⟩

end Sys2Proof.Machine
end

section
/-! The ALU on integers and bits, and its two registers (spec/40_datapath_cycle.md R84). -/

namespace Sys2Proof.Machine

theorem toNat_alu_sub (a b : Word) :
    (alu 0b000 true a b).toNat = (a.toNat + (4294967296 - b.toNat)) % 4294967296 := by
  show (a - b).toNat = _
  rw [BitVec.toNat_sub, Nat.add_comm]

theorem toNat_alu_sll (alt : Bool) (a b : Word) :
    (alu 0b001 alt a b).toNat = a.toNat * 2 ^ (b.toNat % 32) % 4294967296 := by
  show (a <<< shiftAmount b).toNat = _
  rw [BitVec.toNat_shiftLeft, Nat.shiftLeft_eq, shiftAmount_eq]

theorem toNat_alu_srl (a b : Word) : (alu 0b101 false a b).toNat = a.toNat / 2 ^ (b.toNat % 32) := by
  show (a >>> shiftAmount b).toNat = _
  rw [BitVec.toNat_ushiftRight, Nat.shiftRight_eq_div_pow, shiftAmount_eq]

theorem toInt_alu_sra (a b : Word) : (alu 0b101 true a b).toInt = a.toInt / 2 ^ (b.toNat % 32) := by
  show (a.sshiftRight (shiftAmount b)).toInt = _
  rw [BitVec.toInt_sshiftRight, Int.shiftRight_eq_div_pow, shiftAmount_eq]
  norm_cast

theorem aluCycle_of_aluCalc (s : State) {c : Control} (g : Signals) (h : c.aluCalc = true) :
    AluWrote (s.aluCycle c g) (alu c.aluOp c.aluAlt g.aluIn1 g.aluIn2) := by
  rw [State.aluCycle, if_pos h]
  exact ⟨rfl, rfl⟩

theorem aluCycle_of_idle (s : State) {c : Control} (g : Signals) (h : c.aluCalc = false) :
    AluKept s (s.aluCycle c g) := by
  rw [State.aluCycle, h]
  exact ⟨rfl, rfl⟩

/-- Settles O20: the rows are the operations of `BitVec`, whose values on integers and bits are the table's. -/
theorem aluComputesItsTable : Obligations.AluComputesItsTable :=
  ⟨fun a b => ⟨BitVec.toNat_add a b, toNat_alu_sub a b, fun alt => toNat_alu_sll alt a b, fun _ => lessSigned_eq a b,
    fun _ => lessUnsigned_eq a b, fun _ _ => BitVec.getLsbD_xor, toNat_alu_srl a b, toInt_alu_sra a b,
    fun _ _ => BitVec.getLsbD_or, fun _ _ => BitVec.getLsbD_and⟩,
    fun s _ g => ⟨aluCycle_of_aluCalc s g, aluCycle_of_idle s g⟩⟩

end Sys2Proof.Machine
end

section
/-! The host's bounded run (spec/40_datapath_cycle.md R93). -/

namespace Sys2Proof.Machine

theorem run_of_running {s : State} (h : (tickState s).Running) (n : Nat) : run (n + 1) s = run n (tickState s) := by
  rw [run, h]

theorem run_of_stop {s : State} (h : ¬(tickState s).Running) (n : Nat) :
    run (n + 1) s = some (tickState s, (tickState s).stop.result) := by
  rw [run]
  split
  · contradiction
  · rename_i hs; rw [hs]; rfl
  · rename_i hs; rw [hs]; rfl

/-- The run ends by its bound `n` at tick `k + 1`. -/
theorem run_eq_some_iff {s : State} (hr : s.Running) (n : Nat) (t : State) (r : TickResult) :
    run n s = some (t, r) ↔
      ∃ k, k < n ∧ (ticks k s).Running ∧ ticks (k + 1) s = t ∧ ¬t.Running ∧ r = t.stop.result := by
  induction n generalizing s with
  | zero => simp [run]
  | succ n ih =>
    by_cases h : (tickState s).Running
    · rw [run_of_running h, ih h]
      constructor
      · rintro ⟨k, hk, hrun, hend⟩
        exact ⟨k + 1, by omega, hrun, hend⟩
      · rintro ⟨k, hk, hrun, ht, hstop, hres⟩
        cases k with
        | zero => subst ht; exact absurd h hstop
        | succ k => exact ⟨k, by omega, hrun, ht, hstop, hres⟩
    · rw [run_of_stop h, Option.some.injEq, Prod.mk.injEq]
      constructor
      · rintro ⟨rfl, rfl⟩
        exact ⟨0, by omega, hr, rfl, h, rfl⟩
      · rintro ⟨k, hk, hrun, rfl, hstop, rfl⟩
        cases k with
        | zero => exact ⟨rfl, rfl⟩
        | succ k => exact absurd (running_before hrun 1 (by omega)) h

/-- Settles O42: a core that ran up to tick `k` ran after every earlier one, and one that never stops ends no run. -/
theorem runTicksUntilTermination : Obligations.RunTicksUntilTermination := by
  refine fun s hr => ⟨fun n t r => ?_, fun hrun n => ?_⟩
  · rw [run_eq_some_iff hr]
    constructor
    · rintro ⟨k, hk, hrun, hend⟩
      exact ⟨k, hk, running_before hrun, hend⟩
    · rintro ⟨k, hk, hrun, hend⟩
      exact ⟨k, hk, hrun k le_rfl, hend⟩
  · rw [Option.eq_none_iff_forall_not_mem]
    rintro ⟨t, r⟩ h
    obtain ⟨k, -, -, rfl, hstop, -⟩ := (run_eq_some_iff hr n t r).mp h
    exact hstop (hrun (k + 1))

end Sys2Proof.Machine
end

section
/-! The OP instructions (spec/41_register_alu.md R94 to R104). -/

namespace Sys2Proof.Machine

theorem alu_sll (alt : Bool) (a b : Word) : alu 0b001 alt a b = a <<< (b.toNat % 32) := by
  rw [← shiftAmount_eq]; rfl

theorem alu_srl (a b : Word) : alu 0b101 false a b = a >>> (b.toNat % 32) := by
  rw [← shiftAmount_eq]; rfl

theorem alu_sra (a b : Word) : alu 0b101 true a b = a.sshiftRight (b.toNat % 32) := by
  rw [← shiftAmount_eq]; rfl

/-- What `finishAlu` leaves is all that R94 says of an instruction that ends in it. -/
theorem completesAlu_of_finishAlu {i : Instr} {s : State} {rd : RegIdx} {v : Word} (h : exec i s = s.finishAlu rd v) :
    CompletesAlu i s rd v := by
  rw [CompletesAlu, h]
  exact s.finishAlu_spec rd v

/-- An OP rule holds of an instruction whose word has its fields and whose meaning is its ALU row. -/
theorem opRule_of_alu {i : Instr} {f7 : BitVec 7} {f3 : BitVec 3} {alt : Bool} {rd rs1 rs2 : RegIdx} {s : State}
    {v : Word} (hwf : i.wf = true)
    (henc : encode i = encodeR f7 (regBits rs2) (regBits rs1) f3 (regBits rd) 0b0110011#7)
    (hexec : exec i s = s.finishAlu rd (alu f3 alt (s.readReg rs1) (s.readReg rs2)))
    (halu : alu f3 alt (s.readReg rs1) (s.readReg rs2) = v) : OpRule i f7 f3 alt rd rs1 rs2 s v :=
  ⟨henc ▸ decode_encode hwf, halu, completesAlu_of_finishAlu (halu ▸ hexec)⟩

/-- Settles O22: each meaning is `finishAlu` of its ALU row, so a rule is left with that row's value alone. -/
theorem opInstructions : Obligations.OpInstructions := fun _ _ _ _ =>
  ⟨opRule_of_alu rfl rfl rfl rfl,
    opRule_of_alu rfl rfl rfl rfl,
    fun _ => opRule_of_alu rfl rfl rfl (alu_sll _ _ _),
    fun _ => opRule_of_alu rfl rfl rfl (lessSigned_eq _ _),
    fun _ => opRule_of_alu rfl rfl rfl (lessUnsigned_eq _ _),
    fun _ => opRule_of_alu rfl rfl rfl rfl,
    opRule_of_alu rfl rfl rfl (alu_srl _ _),
    opRule_of_alu rfl rfl rfl (alu_sra _ _),
    fun _ => opRule_of_alu rfl rfl rfl rfl,
    fun _ => opRule_of_alu rfl rfl rfl rfl⟩

end Sys2Proof.Machine
end

section
/-! The OP-IMM instructions, LUI and AUIPC (spec/42_immediate_alu.md R105 to R116). -/

namespace Sys2Proof.Machine

/-! ### OP-IMM -/

/-- The ALU shifts by the low five bits of a shift's I immediate, whatever its funct7 (R112). -/
theorem shiftAmount_signExtend_shamt (f7 : BitVec 7) (shamt : BitVec 5) :
    shiftAmount ((f7 ++ shamt : BitVec 12).signExtend 32) = shamt.toNat := by
  rw [← immI_encodeR f7 shamt 0 0 0 0, shiftAmount_immI, shamtOf, rs2_encodeR]

/-- R107 compares with the integer the 12-bit immediate stands for, which its sign extension keeps. -/
theorem lessSigned_signExtend (a : Word) (imm : BitVec 12) :
    lessSigned a (imm.signExtend 32) = if a.toInt < imm.toInt then 1 else 0 := by
  rw [lessSigned_eq, BitVec.toInt_signExtend_of_le (by decide)]

section
variable {i : Instr} {f3 : BitVec 3} {rd rs1 : RegIdx} {s : State} {v : Word}

/-- An OP-IMM rule holds of an instruction whose word has its fields and whose meaning is its ALU row. -/
theorem immRule_of_alu {imm : BitVec 12} (hwf : i.wf = true)
    (henc : encode i = encodeI imm (regBits rs1) f3 (regBits rd) 0b0010011#7)
    (hexec : exec i s = s.finishAlu rd (alu f3 false (s.readReg rs1) (imm.signExtend 32)))
    (halu : alu f3 false (s.readReg rs1) (imm.signExtend 32) = v) : ImmRule i f3 rd rs1 imm s v :=
  ⟨henc ▸ decode_encode hwf, halu, completesAlu_of_finishAlu (halu ▸ hexec)⟩

/-- A shift rule holds of an instruction whose word has its fields, and whose meaning is the value its ALU row has on
the I immediate. -/
theorem shiftRule_of_alu {f7 : BitVec 7} {alt : Bool} {shamt : BitVec 5} (hwf : i.wf = true)
    (henc : encode i = encodeR f7 shamt (regBits rs1) f3 (regBits rd) 0b0010011#7)
    (hexec : exec i s = s.finishAlu rd v)
    (halu : alu f3 alt (s.readReg rs1) ((f7 ++ shamt : BitVec 12).signExtend 32) = v) :
    ShiftRule i f7 f3 alt rd rs1 shamt s v :=
  ⟨henc ▸ decode_encode hwf, halu, completesAlu_of_finishAlu hexec⟩
end

/-- Funct3 001 of OP-IMM has the one row of funct7 0000000 (R112). -/
theorem accepted_slli_of_funct7_ne {f7 : BitVec 7} (h : f7 ≠ 0b0000000#7) (shamt b1 d : BitVec 5) :
    accepted (encodeR f7 shamt b1 0b001#3 d 0b0010011#7) = false := by
  have hrow : decodeOpImm (encodeR f7 shamt b1 0b001#3 d 0b0010011#7) = none := by
    rw [decodeOpImm, funct3Of_encodeR, funct7Of_encodeR]
    exact if_neg h
  rw [accepted, decode_opImm (opcodeOf_encodeR ..), hrow]
  rfl

/-- Settles O23: each meaning is `finishAlu` of its ALU row's value; a shift's row reads the amount in the immediate. -/
theorem opImmInstructions : Obligations.OpImmInstructions := fun _ _ _ shamt s =>
  ⟨immRule_of_alu rfl rfl rfl rfl,
    immRule_of_alu rfl rfl rfl (lessSigned_signExtend _ _),
    immRule_of_alu rfl rfl rfl (lessUnsigned_eq _ _),
    immRule_of_alu rfl rfl rfl rfl,
    immRule_of_alu rfl rfl rfl rfl,
    immRule_of_alu rfl rfl rfl rfl,
    shiftRule_of_alu rfl rfl rfl (congrArg (s.readReg _ <<< ·) (shiftAmount_signExtend_shamt _ shamt)),
    shiftRule_of_alu rfl rfl rfl (congrArg (s.readReg _ >>> ·) (shiftAmount_signExtend_shamt _ shamt)),
    shiftRule_of_alu rfl rfl rfl (congrArg (s.readReg _).sshiftRight (shiftAmount_signExtend_shamt _ shamt)),
    fun _ h => accepted_slli_of_funct7_ne h ..⟩

/-! ### LUI and AUIPC -/

/-- LUI computes nothing in EXECUTE and writes the immediate back (R115). -/
theorem usesRows_lui {w : Word} (h : opcodeOf w = 0b0110111#7) :
    UsesRows w ⟨false, 0b000, false, .reg1, .reg2⟩ ⟨false, .pc, 0b10, false⟩ true .imm ⟨false, false, .pcImm⟩ :=
  ⟨executeControl_lui h, memoryControl_idle (by tauto), writebackControl_lui h⟩

/-- AUIPC adds the immediate to `pc` and writes the sum back (R116). -/
theorem usesRows_auipc {w : Word} (h : opcodeOf w = 0b0010111#7) :
    UsesRows w ⟨true, 0b000, false, .pc, .imm⟩ ⟨false, .pc, 0b10, false⟩ true .aluOut ⟨false, false, .pcImm⟩ :=
  ⟨executeControl_auipc h, memoryControl_idle (by tauto), writebackControl_alu (by tauto)⟩

/-- Settles O24: LUI ends with the ALU kept, AUIPC as an ALU instruction; the immediate they take is `imm << 12`. -/
theorem luiAndAuipc : Obligations.LuiAndAuipc := by
  intro rd imm s
  rw [← upperImm_eq]
  exact ⟨⟨decode_encode (i := .lui rd imm) rfl, usesRows_lui (opcodeOf_encodeU ..), execLui_spec s rd imm⟩,
    decode_encode (i := .auipc rd imm) rfl, usesRows_auipc (opcodeOf_encodeU ..), completesAlu_of_finishAlu rfl⟩

end Sys2Proof.Machine
end

section
/-! The branches, JAL and JALR (spec/43_control_transfer.md R117 to R126). -/

namespace Sys2Proof.Machine

/-! ### The branches -/

/-- JumpControl's predicate says what the comparison it decides says. -/
theorem taken_iff_of_decided {holds taken : Bool} {p : Prop} (h : holds = taken) (hp : holds = true ↔ p) :
    taken = true ↔ p := h ▸ hp

/-- Settles O21: at each funct3 the ALU row compares the operands and the predicates over its flag decide. -/
theorem branchTablesDecideTheComparison : Obligations.BranchTablesDecideTheComparison := by
  intro w a b e m hop he hm
  rw [executeControl_branch hop, Option.some.injEq] at he
  rw [writebackControl_branch hop, Option.some.injEq] at hm
  subst he hm
  refine ⟨_, rfl, fun h3 => ?beq, fun h3 => ?bne, fun h3 => ?blt, fun h3 => ?bge, fun h3 => ?bltu, fun h3 => ?bgeu⟩
  all_goals rw [h3]
  case beq => exact taken_iff_of_decided (beq_decided a b) beq_iff_eq
  case bne => exact taken_iff_of_decided (bne_decided a b) bne_iff_ne
  case blt => exact taken_iff_of_decided (blt_decided a b) decide_eq_true_iff
  case bge => exact taken_iff_of_decided (bge_decided a b) decide_eq_true_iff
  case bltu => exact taken_iff_of_decided (bltu_decided a b) decide_eq_true_iff
  case bgeu => exact taken_iff_of_decided (bgeu_decided a b) decide_eq_true_iff

/-- The flag of BEQ's and BNE's difference (R119, R120). -/
theorem zeroFlag_sub_iff (a b : Word) : zeroFlag (a - b) = true ↔ a = b := by
  rw [zeroFlag_sub, beq_iff_eq]

/-- The flag of an ordered comparison is 1 where it fails (R121 to R124). -/
theorem zeroFlag_boolWord_iff (p : Prop) [Decidable p] : zeroFlag (boolWord (decide p)) = true ↔ ¬p := by
  rw [zeroFlag_boolWord, Bool.not_eq_true', decide_eq_false_iff_not]

/-- A branch rule holds of an instruction whose word has its fields, whose jump row is the rule's and whose meaning is
`finishBranch` of its comparison. -/
theorem branchRule_of_finishBranch {i : Instr} {f3 : BitVec 3} {zero notZero holds : Bool} {rs1 rs2 : RegIdx}
    {offset : BitVec 13} {s : State} {r : Word} {flag taken : Prop}
    (henc : encode i = encodeSB offset (regBits rs2) (regBits rs1) f3 0b1100011#7)
    (hrow : lookup jumpTable (0b1100011#7 ++ f3) = some ⟨zero, notZero, .pcImm⟩)
    (hexec : exec i s = s.finishBranch r holds offset)
    (htaken : holds = true ↔ taken) (hflag : zeroFlag r = true ↔ flag) :
    BranchRule i f3 zero notZero rs1 rs2 offset s r flag taken := by
  obtain ⟨t, ht, hfin, hregs, hbytes, halu⟩ := s.finishBranch_spec r holds offset
  obtain ⟨hout, hzero⟩ := halu
  refine ⟨fun hwf => henc ▸ decode_encode hwf, hrow, t, hexec.trans ht, fun h => ?_, fun h => ?_, hregs, hbytes,
    hout, hzero ▸ hflag⟩
  · rwa [if_pos (htaken.mpr h)] at hfin
  · rwa [if_neg (mt htaken.mp h)] at hfin

/-- Settles O25: each meaning is `finishBranch` of its comparison, whose result gives the flag. -/
theorem branchInstructions : Obligations.BranchInstructions := by
  rintro rs1 rs2 offset s _ _ rfl rfl
  rw [← lessSigned_eq, ← lessUnsigned_eq]
  exact ⟨branchRule_of_finishBranch rfl rfl rfl beq_iff_eq (zeroFlag_sub_iff _ _),
    branchRule_of_finishBranch rfl rfl rfl bne_iff_ne (zeroFlag_sub_iff _ _),
    branchRule_of_finishBranch rfl rfl rfl decide_eq_true_iff (zeroFlag_boolWord_iff _),
    branchRule_of_finishBranch rfl rfl rfl decide_eq_true_iff (zeroFlag_boolWord_iff _),
    branchRule_of_finishBranch rfl rfl rfl decide_eq_true_iff (zeroFlag_boolWord_iff _),
    branchRule_of_finishBranch rfl rfl rfl decide_eq_true_iff (zeroFlag_boolWord_iff _)⟩

/-! ### JAL and JALR -/

/-- JAL adds the immediate to `pc`, writes PC4 back and always jumps (R125). -/
theorem usesRows_jal {w : Word} (h : opcodeOf w = 0b1101111#7) :
    UsesRows w ⟨true, 0b000, false, .pc, .imm⟩ ⟨false, .pc, 0b10, false⟩ true .pc4 ⟨true, true, .pcImm⟩ :=
  ⟨executeControl_jal h, memoryControl_idle (by tauto), writebackControl_jal h⟩

/-- JALR adds the immediate to `x[rs1]`, writes PC4 back and always jumps (R126). -/
theorem usesRows_jalr {w : Word} (h : opcodeOf w = 0b1100111#7) :
    UsesRows w ⟨true, 0b000, false, .reg1, .imm⟩ ⟨false, .pc, 0b10, false⟩ true .pc4 ⟨true, true, .rs1Imm⟩ :=
  ⟨executeControl_jalr h, memoryControl_idle (by tauto), writebackControl_jalr h⟩

/-- JALR's opcode has the one row of funct3 000 (R126). -/
theorem accepted_jalr_of_funct3_ne {f3 : BitVec 3} (h : f3 ≠ 0b000#3) (imm : BitVec 12) (b1 d : BitVec 5) :
    accepted (encodeI imm b1 f3 d 0b1100111#7) = false := by
  have hrow : decodeJalr (encodeI imm b1 f3 d 0b1100111#7) = none := by
    rw [decodeJalr, funct3Of_encodeI]
    exact if_neg h
  rw [accepted, decode_jalr (opcodeOf_encodeI ..), hrow]
  rfl

/-- Settles O26: both meanings are `finishJump` to the sum that their rows compute. -/
theorem jumpInstructions : Obligations.JumpInstructions :=
  ⟨fun rd offset s => ⟨fun hok => decode_encode (i := .jal rd offset) hok, usesRows_jal (opcodeOf_encodeUJ ..),
      s.finishJump_spec rd (s.pc + offset.signExtend 32)⟩,
    fun rd rs1 imm s => ⟨decode_encode (i := .jalr rd rs1 imm) rfl, fun _ h => accepted_jalr_of_funct3_ne h ..,
      usesRows_jalr (opcodeOf_encodeI ..), s.finishJump_spec rd (s.readReg rs1 + imm.signExtend 32)⟩⟩

end Sys2Proof.Machine
end

section
/-! The loads and stores (spec/44_load_store.md R127 to R136). -/

namespace Sys2Proof.Machine

/-! ### The value a load takes (R128) -/

/-- One step of a little-endian read puts its byte below the bytes read after it. -/
theorem setWidth_append_byte {n : Nat} (x : BitVec n) (b : Byte) :
    b.setWidth 32 ||| x.setWidth 32 <<< 8 = ((x ++ b).setWidth 32 : Word) := by
  apply BitVec.eq_of_getLsbD_eq
  intro j hj
  simp only [BitVec.getLsbD_or, BitVec.getLsbD_setWidth, BitVec.getLsbD_shiftLeft, BitVec.getLsbD_append]
  by_cases hlow : j < 8
  · simp [hj, hlow]
  · have hhigh : j - 8 < 32 := by omega
    simp [hj, hlow, hhigh, BitVec.getLsbD_of_ge b j (Nat.not_lt.mp hlow)]

theorem Memory.readLE_byte (m : Memory) (a : Nat) : m.readLE a 1 = (m.readByte a).setWidth 32 := by
  simp [Memory.readLE]

theorem Memory.readLE_half (m : Memory) (a : Nat) :
    m.readLE a 2 = (m.readByte (a + 1) ++ m.readByte a).setWidth 32 := by
  rw [Memory.readLE, Memory.readLE_byte, setWidth_append_byte]

theorem Memory.readLE_word (m : Memory) (a : Nat) :
    m.readLE a 4 = m.readByte (a + 3) ++ m.readByte (a + 2) ++ m.readByte (a + 1) ++ m.readByte a := by
  rw [Memory.readLE, Memory.readLE, Memory.readLE_half, setWidth_append_byte, setWidth_append_byte]
  exact BitVec.setWidth_eq _

/-- A narrow signed read extends the sign of the bytes it read, though `MemRead` has zero-extended them. -/
theorem extendRead_byte_signed (b : Byte) : extendRead .byte .signed (b.setWidth 32) = b.signExtend 32 :=
  congrArg (BitVec.signExtend 32) (BitVec.setWidth_setWidth_of_le b (by decide) |>.trans (BitVec.setWidth_eq b))

theorem extendRead_half_signed (h : BitVec 16) : extendRead .half .signed (h.setWidth 32) = h.signExtend 32 :=
  congrArg (BitVec.signExtend 32) (BitVec.setWidth_setWidth_of_le h (by decide) |>.trans (BitVec.setWidth_eq h))

/-! ### The memory control of a load or store word (R127) -/

theorem drivesMemory_load {w : Word} {f3 : BitVec 3} (hop : opcodeOf w = 0b0000011#7) (h3 : funct3Of w = f3) :
    DrivesMemory w false (f3.extractLsb' 0 2) (f3.getLsbD 2) := h3 ▸ memoryControl_load hop

theorem drivesMemory_store {w : Word} {f3 : BitVec 3} (hop : opcodeOf w = 0b0100011#7) (h3 : funct3Of w = f3) :
    DrivesMemory w true (f3.extractLsb' 0 2) (f3.getLsbD 2) := h3 ▸ memoryControl_store hop

/-! ### Completions and stops -/

section
variable {i : Instr} {s : State} {size : AccessSize} {e : Extension} {rd rs2 rs1 : RegIdx} {imm : BitVec 12}

/-- A load whose access is admitted completes with the extended value of its bytes. -/
theorem completesLoad_of_doLoad {v : Word} (hexec : exec i s = s.doLoad size e rd rs1 imm)
    (hv : extendRead size e (s.mem.readLE (s.effectiveAddress rs1 imm).toNat size.bytes) = v)
    (ht : s.accessTraps (s.effectiveAddress rs1 imm) size = false)
    (hr : inRange (s.effectiveAddress rs1 imm) size = true) :
    CompletesLoad i s rd (s.effectiveAddress rs1 imm) v := by
  rw [CompletesLoad, hexec, ← hv]
  exact s.doLoad_completes size e rd rs1 imm ht hr

/-- A store whose access is admitted completes. -/
theorem completesStore_of_doStore (hm : s.MemOk) (hexec : exec i s = s.doStore size rs2 rs1 imm)
    (ht : s.accessTraps (s.effectiveAddress rs1 imm) size = false)
    (hr : inRange (s.effectiveAddress rs1 imm) size = true) :
    CompletesStore i s (s.effectiveAddress rs1 imm) size.bytes (s.readReg rs2) := by
  rw [CompletesStore, hexec]
  exact s.doStore_completes size rs2 rs1 imm hm ht hr

/-- The three cases of R144, told apart by the model's two checks. -/
theorem accessCases_of_checks {ea : Word} {completes : Prop}
    (htraps : s.accessTraps ea size = true →
      ∃ t, exec i s = .next t ∧ StoppedInMemory s t (.misalignedAccess ea size) ea)
    (hout : s.accessTraps ea size = false → inRange ea size = false →
      ∃ t, exec i s = .next t ∧ StoppedInMemory s t (.accessOutOfRange ea size) ea)
    (hdone : s.accessTraps ea size = false → inRange ea size = true → completes) :
    AccessCases i s ea size completes := by
  rw [AccessCases, ← accessTraps_iff, ← inRange_false, ← inRange_iff, Bool.not_eq_true]
  exact ⟨htraps, hout, hdone⟩

/-- A load takes its stops where an access check turns it away, and completes elsewhere. -/
theorem accessCases_of_doLoad {v : Word} (hexec : exec i s = s.doLoad size e rd rs1 imm)
    (hv : extendRead size e (s.mem.readLE (s.effectiveAddress rs1 imm).toNat size.bytes) = v) :
    AccessCases i s (s.effectiveAddress rs1 imm) size (CompletesLoad i s rd (s.effectiveAddress rs1 imm) v) := by
  refine accessCases_of_checks (fun ht => ?_) (fun ht hr => ?_) (completesLoad_of_doLoad hexec hv) <;>
    rw [hexec]
  · exact s.doLoad_stops size e rd rs1 imm (by rw [State.loadData_cases, if_pos ht])
  · exact s.doLoad_stops size e rd rs1 imm (by simp [State.loadData_cases, ht, hr])

/-- A store takes its stops where an access check turns it away, and completes elsewhere. -/
theorem accessCases_of_doStore (hm : s.MemOk) (hexec : exec i s = s.doStore size rs2 rs1 imm) :
    AccessCases i s (s.effectiveAddress rs1 imm) size
      (CompletesStore i s (s.effectiveAddress rs1 imm) size.bytes (s.readReg rs2)) := by
  refine accessCases_of_checks (fun ht => ?_) (fun ht hr => ?_) (completesStore_of_doStore hm hexec) <;>
    rw [hexec]
  · exact s.doStore_stops size rs2 rs1 imm (by rw [State.storeData_cases, if_pos ht])
  · exact s.doStore_stops size rs2 rs1 imm (by simp [State.storeData_cases, ht, hr])
end

/-! ### The instructions -/

/-- Settles O27: no check turns a byte access away, and the byte read is extended as R128 says. -/
theorem byteLoads : Obligations.ByteLoads := by
  rintro rd rs1 imm s _ rfl
  have hbyte := s.mem.readLE_byte (s.effectiveAddress rs1 imm).toNat
  exact ⟨⟨decode_encode (i := .lb rd rs1 imm) rfl,
      drivesMemory_load (opcodeOf_encodeI ..) (funct3Of_encodeI ..),
      completesLoad_of_doLoad (size := .byte) (e := .signed) rfl
        ((congrArg _ hbyte).trans (extendRead_byte_signed _)) (accessTraps_byte ..) (inRange_byte _)⟩,
    decode_encode (i := .lbu rd rs1 imm) rfl,
    drivesMemory_load (opcodeOf_encodeI ..) (funct3Of_encodeI ..),
    completesLoad_of_doLoad (size := .byte) (e := .unsigned) rfl hbyte (accessTraps_byte ..) (inRange_byte _)⟩

/-- Settles O28: each meaning is `doLoad`, and the bytes read are joined little-endian and extended as R128 says. -/
theorem halfAndWordLoads : Obligations.HalfAndWordLoads := by
  rintro rd rs1 imm s _ rfl
  have hhalf := s.mem.readLE_half (s.effectiveAddress rs1 imm).toNat
  exact ⟨accessCases_of_doLoad (e := .signed) rfl ((congrArg _ hhalf).trans (extendRead_half_signed _)),
    accessCases_of_doLoad (e := .unsigned) rfl hhalf,
    accessCases_of_doLoad (e := .signed) rfl (s.mem.readLE_word _)⟩

/-- Settles O29: no check turns a byte access away. -/
theorem byteStore : Obligations.ByteStore := by
  rintro rs2 rs1 imm s _ rfl hm
  exact ⟨decode_encode (i := .sb rs2 rs1 imm) rfl,
    drivesMemory_store (opcodeOf_encodeS ..) (funct3Of_encodeS ..),
    completesStore_of_doStore (size := .byte) hm rfl (accessTraps_byte ..) (inRange_byte _)⟩

/-- Settles O30: each meaning is `doStore`, which stops or completes as its access's checks say. -/
theorem halfAndWordStores : Obligations.HalfAndWordStores := by
  rintro rs2 rs1 imm s _ rfl hm
  exact ⟨accessCases_of_doStore hm rfl, accessCases_of_doStore hm rfl⟩

end Sys2Proof.Machine
end

section
/-! Stops: what each FSM state's tick raises, what a stop leaves, and the stopped core (spec/60_exceptions.md). -/

namespace Sys2Proof.Machine

/-! ### What a stop leaves (R137, R89) -/

/-- A stop beside which only the latch, the word read and the host's flag may be new. -/
theorem stoppedEarly_raiseStop (s : State) (ir d : Word) (started : Bool) (at_ : FsmState) (r : Stop) :
    StoppedEarly s (State.raiseStop { s with ir := ir, memReadData := d, started := started } at_ r) at_ r :=
  ⟨rfl, rfl, rfl, fun _ => rfl, fun _ => rfl, ⟨rfl, rfl⟩, rfl⟩

/-- A tick that stops the core completes no cycle. -/
theorem tickState_of_stops {s : State} (hr : s.Running) (h : ¬(tickState s).Running) :
    ∃ ir r, tickState s = State.raiseStop { s with started := true, ir := ir } s.fsm r := by
  rcases tick_running_cases hr with ⟨r, -, e⟩ | ⟨hf, r, -, e⟩ | ⟨c, imm, ram, -, -, -, -, e⟩
  · exact ⟨s.ir, r, e⟩
  · exact ⟨s.memReadData, r, by rw [e, hf]⟩
  · rw [e] at h
    exact absurd ((commit_stop { s with started := true } ..).trans hr) h

/-- Settles O36: a tick that stops writes the stop register and the latch alone, and only DECODE loads the latch. -/
theorem stopsArePrecise : Obligations.StopsArePrecise := by
  rintro s _ hi hr rfl hstop
  have hlatch : (s.fsm ≠ .decode → (tickState s).ir = s.ir) ∧ (s.fsm = .decode → (tickState s).ir = s.memReadData) :=
    ⟨tickState_ir, tickState_ir_decode hi hr⟩
  obtain ⟨ir, r, e⟩ := tickState_of_stops hr hstop
  rw [e] at hlatch ⊢
  exact ⟨rfl, rfl, rfl, rfl, rfl, rfl, rfl, rfl, rfl, hlatch⟩

/-! ### What each state's tick raises (R139 to R144) -/

theorem memRead_error {m : Memory} {addr : Word} {size : AccessSize} (h : inRange addr size = false) :
    memRead m addr size = .error (.accessOutOfRange addr size) := by simp [memRead, h]

/-- The MEMORY row of an accepted word is idle, or makes the access `latchedSize` names. -/
theorem memoryControl_cases {w : Word} (ha : accepted w = true) :
    (latchedSize w = none ∧ memoryControl w = some Control.defaults) ∨
    ∃ size write sz u, latchedSize w = some size ∧ lookup memSizeTable sz = some size ∧ DrivesMemory w write sz u := by
  obtain ⟨i, hd, hi⟩ := decode_of_accepted ha
  have hsize : latchedSize w = dataSize i := by rw [latchedSize, hd]
  obtain ⟨rfl, -⟩ := encode_of_decode hd
  rw [hsize]
  cases i
  case lb | lh | lw | lbu | lhu =>
    exact .inr ⟨_, _, _, _, rfl, rfl, drivesMemory_load (opcodeOf_encodeI ..) (funct3Of_encodeI ..)⟩
  case sb | sh | sw =>
    exact .inr ⟨_, _, _, _, rfl, rfl, drivesMemory_store (opcodeOf_encodeS ..) (funct3Of_encodeS ..)⟩
  case sentinel => exact absurd rfl hi
  all_goals
    exact .inl ⟨rfl, memoryControl_idle (by
      simp [encode, opcodeOf_encodeR, opcodeOf_encodeI, opcodeOf_encodeSB, opcodeOf_encodeU, opcodeOf_encodeUJ])⟩

theorem fault_eq_fault_iff {g f : Fault} : Stop.fault g = .fault f ↔ f = g := by
  rw [Stop.fault.injEq, eq_comm]

section
variable {s : State} {f : Fault}

/-- A data access raises what its checks say, alignment before range (R144). -/
theorem cycle_access_stop {imm : Word} {write : Bool} {sz : BitVec 2} {u : Bool} {size : AccessSize}
    (hf : s.fsm = .memory) (hi : immOf s.ir = some imm) (hc : DrivesMemory s.ir write sz u)
    (hs : lookup memSizeTable sz = some size) :
    (cycle s).stop = if s.accessTraps s.aluOut size then .fault (.misalignedAccess s.aluOut size)
      else if inRange s.aluOut size then s.stop else .fault (.accessOutOfRange s.aluOut size) := by
  cases write with
  | false =>
    rw [cycle_memory_read hf hi hc hs, State.loadData_cases]
    split_ifs <;> rfl
  | true =>
    obtain ⟨v, e⟩ := cycle_memory_write hf hi hc hs
    rw [e, State.storeData_cases]
    split_ifs <;> rfl

/-- What the cycle of each FSM state raises: EXECUTE and WRITEBACK nothing, and alignment before range (R144). -/
def State.Raises (s : State) (f : Fault) : Prop :=
  match s.fsm with
  | .fetch => (s.fetchTraps = true ∧ f = .misalignedFetch s.pc) ∨
      (s.fetchTraps = false ∧ inRange s.fetchAddr .word = false ∧ f = .accessOutOfRange s.fetchAddr .word)
  | .decode => s.memReadData ≠ 0 ∧ accepted s.memReadData = false ∧ f = .undefinedDecode s.memReadData
  | .execute => False
  | .memory => (∃ size, latchedSize s.ir = some size ∧ s.accessTraps s.aluOut size = true ∧
        f = .misalignedAccess s.aluOut size) ∨
      (∃ size, latchedSize s.ir = some size ∧ s.accessTraps s.aluOut size = false ∧
        inRange s.aluOut size = false ∧ f = .accessOutOfRange s.aluOut size)
  | .writeback => False

theorem State.Inv.markStarted (hi : s.Inv) : State.Inv { s with started := true } :=
  ⟨hi.memOk, hi.zeroOk, hi.flagOk, hi.latchOk, hi.midwayOk, hi.writtenOk⟩

section
variable (hi : s.Inv) (hr : s.Running)
include hi hr

theorem State.Inv.latch_has_imm : ∃ imm, immOf s.ir = some imm := immOf_of_accepted (hi.latchOk hr)

theorem cycle_fetch_fault_iff (hf : s.fsm = .fetch) : (cycle s).stop = .fault f ↔ s.Raises f := by
  obtain ⟨imm, himm⟩ := hi.latch_has_imm hr
  simp only [State.Raises, hf]
  cases ht : s.fetchTraps with
  | true =>
    rw [cycle_fetch_traps hf ht, State.raiseStop_stop, fault_eq_fault_iff]
    simp
  | false =>
    cases hin : inRange s.fetchAddr .word with
    | true =>
      rw [cycle_fetch hf himm ht (memRead_ok hin)]
      simp [show s.stop = .none from hr]
    | false =>
      rw [cycle_fetch_error hf himm ht (memRead_error hin), State.raiseStop_stop, fault_eq_fault_iff]
      simp

theorem cycle_decode_fault_iff (hf : s.fsm = .decode) : (cycle s).stop = .fault f ↔ s.Raises f := by
  simp only [State.Raises, hf]
  by_cases h0 : s.memReadData = 0
  · simp [cycle_decode_zero hf h0, h0]
  cases ha : accepted s.memReadData with
  | true =>
    obtain ⟨imm, himm⟩ := hi.latch_has_imm hr
    obtain ⟨w, hw⟩ := hi.fetch_reads hr (by simp [hf])
    rw [cycle_decode hf himm ha hw]
    simp [show s.stop = .none from hr]
  | false =>
    rw [cycle_decode_undefined hf h0 ha, State.raiseStop_stop, fault_eq_fault_iff]
    exact ⟨fun h => ⟨h0, rfl, h⟩, fun ⟨_, _, h⟩ => h⟩

theorem cycle_execute_running (hf : s.fsm = .execute) : (cycle s).stop = .none := by
  obtain ⟨imm, himm⟩ := hi.latch_has_imm hr
  obtain ⟨w, hw⟩ := hi.fetch_reads hr (by simp [hf])
  obtain ⟨c, hc⟩ := Option.isSome_iff_exists.mp (executeControl_isSome s.ir)
  rw [cycle_execute hf himm hc hw]
  rcases aluCycle_shape s c (s.signals c imm) with ⟨-, e⟩ | ⟨-, e⟩ <;> rw [e] <;> exact hr

theorem cycle_memory_fault_iff (hf : s.fsm = .memory) : (cycle s).stop = .fault f ↔ s.Raises f := by
  obtain ⟨imm, himm⟩ := hi.latch_has_imm hr
  simp only [State.Raises, hf]
  rcases memoryControl_cases (hi.latchOk hr) with ⟨hsize, hc⟩ | ⟨size, write, sz, u, hsize, hs, hc⟩
  · obtain ⟨w, hw⟩ := hi.fetch_reads hr (by simp [hf])
    rw [cycle_memory_idle hf himm hc hw]
    simp [hsize, show s.stop = .none from hr]
  · rw [cycle_access_stop hf himm hc hs, show s.stop = .none from hr]
    simp only [hsize, Option.some.injEq, exists_eq_left']
    split_ifs with ht hin
    · simp [ht, fault_eq_fault_iff, -Stop.fault.injEq]
    · simp [ht, hin]
    · simp [ht, hin, fault_eq_fault_iff, -Stop.fault.injEq]

theorem cycle_writeback_running (hf : s.fsm = .writeback) : (cycle s).stop = .none := by
  obtain ⟨imm, himm⟩ := hi.latch_has_imm hr
  obtain ⟨w, hw⟩ := hi.fetch_reads hr (by simp [hf])
  obtain ⟨c, hc⟩ := Option.isSome_iff_exists.mp (writebackControl_isSome s.ir)
  rw [cycle_writeback hf himm hc hw]
  unfold State.regCycle
  split
  · exact (State.writeReg_stop ..).trans hr
  · exact hr

theorem cycle_fault_iff : (cycle s).stop = .fault f ↔ s.Raises f := by
  cases hf : s.fsm with
  | fetch => exact cycle_fetch_fault_iff hi hr hf
  | decode => exact cycle_decode_fault_iff hi hr hf
  | execute => simp [cycle_execute_running hi hr hf, State.Raises, hf]
  | memory => exact cycle_memory_fault_iff hi hr hf
  | writeback => simp [cycle_writeback_running hi hr hf, State.Raises, hf]
end
end

/-- Settles O37: the tick is a cycle after the host's mark, which no cause of a fault reads. -/
theorem faultsHaveExactCauses : Obligations.FaultsHaveExactCauses := by
  intro s f hi hr
  have htick : (tickState s).stop = .fault f ↔ s.Raises f := by
    rw [tickState_running hr]
    exact cycle_fault_iff hi.markStarted hr
  rw [htick, State.Raises]
  cases s.fsm <;> simp

/-! ### The end of a run (R139) -/

theorem earlyStop_completed {s t : State} {c : Control} (hc : s.control = some c) (he : s.earlyStop c = some t)
    (h : t.Completed) : s.fsm = .decode ∧ s.memReadData = 0 := by
  unfold State.earlyStop at he
  split at he
  · cases he; cases h
  split at he
  · rename_i hz
    rw [Bool.and_eq_true, control_loadInstr hc, beq_iff_eq] at hz
    exact hz
  split at he <;> cases he
  cases h

theorem transfer_not_completed {s : State} (hr : s.Running) (c : Control) : ¬(s.transfer c).Completed := by
  unfold State.transfer
  split
  · exact nofun
  split
  · exact nofun
  · simp [State.Completed, show s.stop = .none from hr]

/-- Nothing but the zero word in DECODE raises EndOfProgram; the invariant is not needed for it. -/
theorem cycle_completed_iff {s : State} (hr : s.Running) :
    (cycle s).Completed ↔ s.fsm = .decode ∧ s.memReadData = 0 := by
  constructor
  · intro h
    unfold cycle at h
    split at h
    · cases h
    rename_i c hc
    split at h
    · rename_i he
      exact earlyStop_completed hc he h
    · exact absurd h (transfer_not_completed hr c)
  · rintro ⟨hf, h0⟩
    rw [cycle_decode_zero hf h0]
    rfl

theorem result_done_iff {r : Stop} : r.result = .done ↔ r = .endOfProgram := by
  cases r <;> simp [Stop.result]

/-- Settles O38: the tick that completes a run latched the zero word, and a step at that word is the sentinel's
meaning. -/
theorem sentinelEndsTheRun : Obligations.SentinelEndsTheRun := by
  refine ⟨fun s hr => ?_, fun s => ⟨_, rfl, stoppedEarly_raiseStop s 0 0 true _ _, rfl⟩, fun s hr hf ht hw => ?_⟩
  · have hiff : (tickState s).Completed ↔ s.fsm = .decode ∧ s.memReadData = 0 := by
      rw [tickState_running hr]
      exact cycle_completed_iff hr
    refine ⟨hiff, result_done_iff.trans hiff, fun h => ?_⟩
    obtain ⟨hf, h0⟩ := hiff.mp h
    rw [tickState_running hr, cycle_decode_zero (s := { s with started := true }) hf h0]
    exact ⟨stoppedEarly_raiseStop s 0 s.memReadData true _ _, rfl⟩
  · exact ⟨_, stepRunsTheDecodedInstruction s 0 .sentinel hr hf ht hw rfl, stoppedEarly_raiseStop s 0 0 true _ _, rfl⟩

/-! ### Steps that stop in FETCH or DECODE (R140 to R142) -/

/-- Of the words that are not accepted the decoder gives only the zero word an instruction. -/
theorem decode_error_of_not_accepted {w : Word} (h0 : w ≠ 0) (ha : accepted w = false) :
    ∃ e, decode w = .error e := by
  cases hd : decode w with
  | error e => exact ⟨e, rfl⟩
  | ok i =>
    have hi : i = .sentinel := by simpa [accepted, hd] using ha
    subst hi
    obtain ⟨hw, -⟩ := encode_of_decode hd
    exact absurd hw.symm h0

/-- Settles O39: DECODE latches the word the decoder turns away, and stops. -/
theorem undefinedDecodeStopsTheStep : Obligations.UndefinedDecodeStopsTheStep := by
  intro s w hr hf ht hw h0 ha
  obtain ⟨e, hd⟩ := decode_error_of_not_accepted h0 ha
  rw [step_fetch hr hf, fetchDecode_of_read ht hw, State.decodeFetched, hd]
  exact ⟨_, rfl, stoppedEarly_raiseStop s w w true _ _, rfl⟩

theorem fetchTraps_iff {s : State} :
    s.fetchTraps = true ↔ s.params.fetchAlign = .trap ∧ s.pc.toNat % 4 ≠ 0 := by
  rw [State.fetchTraps, Bool.and_eq_true, beq_iff_eq, pcMisaligned_iff]

/-- The word at the address with its low two bits cleared never crosses the top. -/
theorem inRange_alignDown (pc : Word) : inRange (pc &&& 0xFFFFFFFC) .word = true := by
  have hle : (pc &&& 0xFFFFFFFC).toNat ≤ 0xFFFFFFFC := by
    rw [BitVec.toNat_and]
    exact Nat.and_le_right
  rw [inRange_iff, AccessSize.bytes]
  omega

/-- A FETCH finds its word: below the top under `exact`, always under `alignDown`, on a multiple of 4 under `trap`. -/
theorem fetchable_iff (s : State) : s.Fetchable ↔
    (s.params.fetchAlign = .exact ∧ s.pc.toNat < 0xFFFFFFFD) ∨ s.params.fetchAlign = .alignDown ∨
    (s.params.fetchAlign = .trap ∧ s.pc.toNat % 4 = 0) := by
  have hpc := s.pc.isLt
  rw [State.Fetchable, ← Bool.not_eq_true, fetchTraps_iff, State.fetchAddr]
  cases s.params.fetchAlign with
  | exact =>
    simp only [inRange_iff, AccessSize.bytes, reduceCtorEq, false_and, not_false_eq_true, true_and, or_false]
    omega
  | alignDown => simpa using inRange_alignDown s.pc
  | trap =>
    simp only [inRange_iff, AccessSize.bytes, reduceCtorEq, false_and, true_and, false_or]
    omega

/-- Settles O40: the two stops of a FETCH leave the latch, and `fetchable_iff` says when there is neither. -/
theorem fetchStops : Obligations.FetchStops := by
  refine fun s hr hf => ⟨fun ha hpc => ?_, fun ha hpc => ?_, (fetchable_iff s).symm⟩
  · rw [step_fetch hr hf, State.fetchDecode, if_pos (fetchTraps_iff.mpr ⟨ha, hpc⟩)]
    exact ⟨_, rfl, stoppedEarly_raiseStop s s.ir s.memReadData true _ _, rfl⟩
  · have haddr : s.fetchAddr = s.pc := by rw [State.fetchAddr, ha]
    have hout : inRange s.pc .word = false := by
      rw [inRange_false, AccessSize.bytes]
      omega
    rw [step_fetch hr hf, State.fetchDecode, if_neg (by simp [fetchTraps_iff, ha]), haddr, memRead_error hout]
    exact ⟨_, rfl, stoppedEarly_raiseStop s s.ir s.memReadData true _ _, rfl⟩

/-! ### The stopped core (R138) -/

/-- Settles O41: a stopped core's ticks change nothing, and its step answers its stop register. -/
theorem stoppedCoreIsQuiescent : Obligations.StoppedCoreIsQuiescent := fun s h =>
  ⟨ticks_stopped h, by rw [tick, tickState_stopped h], step_completed, fun _ => step_faulted⟩

end Sys2Proof.Machine
end

section
/-! The run that ends at a zero word (spec/70_reset_and_hazards.md R164, spec/60_exceptions.md R139). -/

namespace Sys2Proof.Machine

/-- A bound that the core still runs after gives the run no result. -/
theorem run_eq_none_of_running {s : State} {n : Nat} (h : (ticks n s).Running) : run n s = none := by
  induction n generalizing s with
  | zero => rfl
  | succ n ih => rw [run_of_running (running_before h 1 (by omega)), ih h]

/-- A run ends at the tick that stops the core. -/
theorem run_of_last_tick {s : State} {n : Nat} (h : (ticks n s).Running) (hstop : ¬(ticks (n + 1) s).Running) :
    run (n + 1) s = some (ticks (n + 1) s, (ticks (n + 1) s).stop.result) :=
  (run_eq_some_iff (running_before h 0 (Nat.zero_le n)) ..).mpr ⟨n, Nat.lt_succ_self n, h, rfl, hstop, rfl⟩

/-- DECODE of a zero word ends the program, with `pc`, the registers and memory as FETCH found them (R139). -/
theorem tickState_fetched_zero {s : State} (hr : s.Running) :
    StoppedEarly s (tickState (s.fetched 0)) .decode .endOfProgram := by
  rw [tickState_running (show (s.fetched 0).Running from hr), cycle_decode_zero rfl rfl]
  exact stoppedEarly_raiseStop s 0 0 true _ _

/-- Settles O46: the instructions take `5 n` ticks, FETCH of the zero word one more, and DECODE ends the program. -/
theorem haltsOnTickFiveNPlusTwo : Obligations.HaltsOnTickFiveNPlusTwo := by
  intro n s t hinv hr hf hcore ht htraps hzero
  obtain ⟨hticks, hfetch⟩ := instructionsAreRunsOfTicks n s t hinv hr hf hcore ht
  have hlatch : accepted t.ir = true := (hticks ▸ ticks_keep_inv hinv (5 * n) : t.Inv).latchOk ht
  have hfetched : ticks (5 * n + 1) s = t.fetched 0 := by
    rw [ticks_add, hticks]
    exact tickState_fetch ht hfetch hlatch htraps hzero
  have hlast : ticks (5 * n + 1 + 1) s = tickState (t.fetched 0) := by
    rw [ticks_add, hfetched]
    rfl
  have hrunning : (ticks (5 * n + 1) s).Running := hfetched ▸ ht
  have hend := tickState_fetched_zero ht
  refine ⟨run_eq_none_of_running hrunning, tickState (t.fetched 0), ?_, hend.pc, hend.regs, hend.bytes⟩
  rw [run_of_last_tick hrunning (by rw [hlast, State.Running, hend.stop]; exact nofun), hlast, hend.stop]
  rfl

end Sys2Proof.Machine
end

section
/-! The host's calls: the code, the register map and the data it places, and when they are refused
(spec/70_reset_and_hazards.md R156 to R159, R162). -/

namespace Sys2Proof.Machine

/-! ### What each call answers -/

section
variable {words : List Word} {map : List (Int × Int)} {s : State}

/-- SetCode of an admitted program writes its words and marks their bytes (R157, R160). -/
theorem setCode_of_fits (hs : s.started = false)
    (hfit : s.params.textStart.toNat + 4 * words.length ≤ addressSpace) :
    setCode words s = ⟨{ s with
      mem := s.mem.writeWords s.params.textStart.toNat words
      written := s.written.mark s.params.textStart.toNat (4 * words.length) }, none⟩ := by
  rw [setCode, if_neg (by simp [hs]), if_neg (by omega)]

theorem setCode_of_overflow (hs : s.started = false)
    (hover : addressSpace < s.params.textStart.toNat + 4 * words.length) :
    setCode words s = ⟨s, some .doesNotFit⟩ := by
  rw [setCode, if_neg (by simp [hs]), if_pos hover]

/-- The checks of a register map, entry by entry, are R158's. -/
theorem badEntry_none_iff : badEntry map = none ↔
    ∀ e ∈ map, 0 ≤ e.1 ∧ e.1 < 32 ∧ 0 ≤ e.2 ∧ e.2 < 4294967296 ∧ (e.1 = 0 → e.2 = 0) := by
  simp only [badEntry_none, entryOk_iff]

/-- SetRegisters of a map that passes both checks sets its entries. -/
theorem setRegisters_of_admitted (hs : s.started = false) (hbad : badEntry map = none)
    (hkeys : keysDistinct map = true) : setRegisters map s = ⟨setEntries map s, none⟩ := by
  rw [setRegisters, if_neg (by simp [hs]), hbad]
  exact if_pos hkeys

/-- SetRegisters of a map that fails a check reports an error. -/
theorem setRegisters_error_of_not_admitted (h : ¬(badEntry map = none ∧ keysDistinct map = true)) :
    (setRegisters map s).error ≠ none := by
  rcases setRegisters_cases map s with ⟨-, hbad, hkeys, -⟩ | ⟨e, he⟩
  · exact absurd ⟨hbad, hkeys⟩ h
  · rw [he]
    exact nofun

end

/-! ### SetCode (R157) -/

/-- Word `k` of a program that fits is read at its address. -/
theorem memRead_writeWords {m : Memory} {start : Word} {ws : List Word} (hm : m.wf = true)
    (hfit : start.toNat + 4 * ws.length ≤ addressSpace) {k : Nat} (hk : k < ws.length) :
    memRead (m.writeWords start.toNat ws) (start + BitVec.ofNat 32 (4 * k)) .word = .ok ws[k] := by
  obtain ⟨hbytes, -⟩ := writeWords_byte ws m start.toNat hm hfit
  rw [addressSpace] at hfit
  have haddr : (start + BitVec.ofNat 32 (4 * k)).toNat = start.toNat + 4 * k := by
    rw [BitVec.toNat_add, BitVec.toNat_ofNat]
    omega
  have hin : inRange (start + BitVec.ofNat 32 (4 * k)) .word = true := by
    rw [inRange_iff, haddr, AccessSize.bytes]
    omega
  rw [memRead_ok hin, haddr]
  exact congrArg _ (readLE_of_bytes (hbytes k hk))

/-- Settles O48: the words read back from the bytes written, and `mem_mark` names the bytes that are marked. -/
theorem setCodeLoadsTheProgram : Obligations.SetCodeLoadsTheProgram := by
  refine fun words s hs hm => ⟨fun hfit => ?_, setCode_of_overflow hs⟩
  rw [setCode_of_fits hs hfit]
  exact ⟨rfl, fun k hk => memRead_writeWords hm hfit hk, (writeWords_byte words _ _ hm hfit).2,
    fun a => Written.mem_mark, rfl⟩

/-! ### SetRegisters (R158) -/

/-- Settles O49: the checks of `setRegisters` are the statement's conditions, and `setEntries` writes the map's
registers alone. -/
theorem setRegistersSetsTheMap : Obligations.SetRegistersSetsTheMap := by
  intro map s hs
  rw [← badEntry_none_iff, ← keysDistinct_iff]
  refine ⟨fun hbad hkeys => ?_, fun h => ?_⟩
  · rw [setRegisters_of_admitted hs hbad hkeys]
    have hrange : ∀ e ∈ map, 0 ≤ e.1 ∧ e.1 < 32 := fun e he =>
      have ⟨hlow, hhigh, _⟩ := badEntry_none_iff.mp hbad e he
      ⟨hlow, hhigh⟩
    exact ⟨rfl, fun r v => setEntries_mem map s r v (badEntry_none.mp hbad) (keysDistinct_iff.mp hkeys),
      fun r => setEntries_other map s r hrange, setEntries_frame map s⟩
  · have herror := setRegisters_error_of_not_admitted (s := s) h
    exact ⟨setRegisters_refused herror, herror⟩

/-! ### The first tick (R159) -/

theorem tickState_started {s : State} (hr : s.Running) : (tickState s).started = true := by
  rcases tick_running_cases hr with ⟨r, -, e⟩ | ⟨-, r, -, e⟩ | ⟨c, imm, ram, -, -, -, -, e⟩ <;> rw [e]
  · rfl
  · rfl
  · obtain ⟨-, -, -, -, h, -⟩ := commit_fields { s with started := true } c (s.signals c imm) ram
    exact h

/-- Ticks never clear the mark. -/
theorem ticks_started {s : State} (h : s.started = true) (n : Nat) : (ticks n s).started = true := by
  induction n generalizing s with
  | zero => exact h
  | succ n ih =>
    by_cases hr : s.Running
    · exact ih (tickState_started hr)
    · rw [ticks_stopped hr]
      exact h

/-- A step in the middle of an instruction is at least one tick. -/
theorem step_midway {s : State} (hr : s.Running) (hf : s.fsm ≠ .fetch) : ∃ n, step s = .next (ticks (n + 1) s) := by
  rw [step, show s.stop = .none from hr]
  cases h : s.fsm with
  | fetch => exact absurd h hf
  | decode => exact ⟨3, rfl⟩
  | execute => exact ⟨2, rfl⟩
  | memory => exact ⟨1, rfl⟩
  | writeback => exact ⟨0, rfl⟩

theorem exec_started {i : Instr} {s t : State} (h : exec i s = .next t) (hs : s.started = true) :
    t.started = true := by
  rcases exec_cases h with ⟨rd, v, a, p, z, rfl, -⟩ | ⟨-, a, v, size, m, -, rfl⟩ | ⟨a, f, rfl⟩ | ⟨-, rfl⟩
  · exact (State.writeReg_started ..).trans hs
  · exact hs
  · exact hs
  · rfl

/-- A step of a running core marks the first tick: by a FETCH that stops, by the latch, or by its ticks. -/
theorem step_started {s t : State} (hr : s.Running) (h : step s = .next t) : t.started = true := by
  by_cases hf : s.fsm = .fetch
  · rw [step_fetch hr hf] at h
    rcases fetchDecode_cases s with ⟨r, -, e⟩ | ⟨w, r, -, e⟩ | ⟨w, i, -, -, -, e⟩ <;> rw [e] at h
    · cases h; rfl
    · cases h; rfl
    · exact exec_started h rfl
  · obtain ⟨n, e⟩ := step_midway hr hf
    cases e.symm.trans h
    exact ticks_started (tickState_started hr) n

/-- Settles O50: a tick and a step set the mark, which each of the three calls tests first. -/
theorem settersRefusedAfterTheFirstTick : Obligations.SettersRefusedAfterTheFirstTick :=
  ⟨fun _ hr => ⟨tickState_started hr, fun _ => step_started hr⟩,
    fun _ _ _ _ _ hs => ⟨if_pos hs, if_pos hs, if_pos hs⟩⟩

/-! ### Construction (R156, R162) -/

/-- Clearing the low two bits of a multiple of 4 changes nothing. -/
theorem alignDown_of_mod_four {a : Word} (h : a.toNat % 4 = 0) : a &&& 0xFFFFFFFC = a := by
  have hlow : a &&& 3 = 0 := by
    apply BitVec.eq_of_toNat_eq
    rw [BitVec.toNat_and]
    exact (Nat.and_two_pow_sub_one_eq_mod a.toNat 2).trans h
  calc a &&& 0xFFFFFFFC = (a &&& 3) ||| (a &&& 0xFFFFFFFC) := by rw [hlow]; exact BitVec.zero_or.symm
    _ = a &&& (3 ||| 0xFFFFFFFC) := BitVec.and_or_distrib_left.symm
    _ = a := BitVec.and_allOnes

/-- At a `pc` that is a multiple of 4 every mode fetches at `pc`. -/
theorem fetchAddr_of_mod_four {s : State} (h : s.pc.toNat % 4 = 0) : s.fetchAddr = s.pc := by
  unfold State.fetchAddr
  split
  · rfl
  · exact alignDown_of_mod_four h
  · rfl

/-- At a `pc` that is a multiple of 4 no mode raises MisalignedFetch. -/
theorem fetchTraps_of_mod_four {s : State} (h : s.pc.toNat % 4 = 0) : s.fetchTraps = false := by
  simp [← Bool.not_eq_true, fetchTraps_iff, h]

/-- Settles O51: reset with the program loaded fetches at `TEXT_START`, where SetCode has put the first word. -/
theorem constructedCoreRunsItsFirstWord : Obligations.ConstructedCoreRunsItsFirstWord := by
  intro p w ws i hd halign hfit
  have hcode := setCode_of_fits (words := w :: ws) (s := State.resetWith p) rfl hfit
  refine ⟨(setCode (w :: ws) (State.resetWith p)).state, ?_, ?_⟩
  · simp [construct, hcode]
  rw [hcode]
  refine ⟨rfl, rfl, rfl, fun _ => rfl, ?_⟩
  refine stepRunsTheDecodedInstruction _ w i rfl rfl (fetchTraps_of_mod_four halign) ?_ hd
  rw [fetchAddr_of_mod_four halign]
  have hread := memRead_writeWords (m := []) (ws := w :: ws) rfl hfit (k := 0) (Nat.zero_lt_succ _)
  rwa [show p.textStart + BitVec.ofNat 32 (4 * 0) = p.textStart from BitVec.add_zero _] at hread

/-! ### The invariant -/

/-- Bytes placed in canonical memory and counted as written keep the invariant, which says nothing else of memory. -/
theorem State.Inv.load {s : State} {m : Memory} {w : Written} (h : s.Inv) (hm : m.wf = true)
    (hw : State.WrittenOk { s with mem := m, written := w }) : State.Inv { s with mem := m, written := w } :=
  ⟨hm, h.zeroOk, h.flagOk, h.latchOk, h.midwayOk, hw⟩

theorem setCode_keeps_inv {s : State} (h : s.Inv) (words : List Word) : (setCode words s).state.Inv := by
  by_cases he : (setCode words s).error = none
  · have hwritten := setCode_writtenOk (words := words) h.writtenOk
    unfold setCode at he hwritten ⊢
    split_ifs at he hwritten ⊢ with hs hover
    exact h.load (Memory.wf_writeWords (by omega) h.memOk) hwritten
  · rw [setCode_refused he]
    exact h

theorem placeData_keeps_inv {s : State} (h : s.Inv) (start : Word) (bytes : List Byte) :
    (placeData start bytes s).state.Inv := by
  by_cases he : (placeData start bytes s).error = none
  · have hwritten := placeData_writtenOk (start := start) (bytes := bytes) h.writtenOk
    unfold placeData at he hwritten ⊢
    split_ifs at he hwritten ⊢ with hs hover
    exact h.load (Memory.wf_writeBytes (by omega) h.memOk) hwritten
  · rw [placeData_refused he]
    exact h

theorem setEntries_keeps_inv {s : State} (h : s.Inv) (map : List (Int × Int)) : (setEntries map s).Inv := by
  induction map generalizing s with
  | nil => exact h
  | cons e rest ih => exact ih (h.writeReg ..)

/-- Settles O55: a refused call changes nothing, and an admitted one loads bytes or writes registers. -/
theorem hostCallsKeepInvariant : Obligations.HostCallsKeepInvariant := by
  refine fun s h => ⟨setCode_keeps_inv h, fun map => ?_, placeData_keeps_inv h⟩
  rcases setRegisters_cases map s with ⟨-, -, -, e⟩ | ⟨_, e⟩ <;> rw [e]
  · exact setEntries_keeps_inv h map
  · exact h

end Sys2Proof.Machine
end

section
/-! Which bytes count as written, and what the host reads of them (spec/70_reset_and_hazards.md R160,
spec/10_state.md R32). -/

namespace Sys2Proof.Machine

/-! ### The accessors -/

/-- A byte read gives the byte the host reads. -/
theorem memRead_byte (s : State) (a : Word) : memRead s.mem a .byte = .ok ((s.byteAt a).setWidth 32) := by
  rw [memRead_ok (inRange_byte a)]
  exact congrArg _ (s.mem.readLE_byte a.toNat)

/-- Settles O52: the view copies the registers, and lists the written addresses, which rise, each with its byte. -/
theorem accessorsShowTheState : Obligations.AccessorsShowTheState := by
  intro s h
  have haddrs : s.view.ram.map Prod.fst = s.written := sparseRam_addresses s
  rw [haddrs]
  exact ⟨rfl, rfl, rfl, view_regs s, rfl, rfl, rfl, rfl, memRead_byte s, fun _ _ => mem_sparseRam,
    Written.pairwise h.1, fun _ => h.unwritten_zero⟩

/-! ### Stores -/

/-- A store that either check turns away writes nothing. -/
theorem State.storeData_error (s : State) {addr : Word} {size : AccessSize} (v : Word)
    (h : s.accessTraps addr size = true ∨ inRange addr size = false) : ∃ f, s.storeData addr size v = .error f := by
  rw [State.storeData_cases]
  split_ifs with ht hr
  · exact ⟨_, rfl⟩
  · simp [ht, hr] at h
  · exact ⟨_, rfl⟩

section
variable {i : Instr} {s : State} {size : AccessSize} {rs2 rs1 : RegIdx} {imm : BitVec 12}
  (hexec : exec i s = s.doStore size rs2 rs1 imm)
include hexec

/-- A store whose access is admitted marks its bytes. -/
theorem marksWritten_of_doStore (ht : s.accessTraps (s.effectiveAddress rs1 imm) size = false)
    (hr : inRange (s.effectiveAddress rs1 imm) size = true) :
    MarksWritten i s (s.effectiveAddress rs1 imm) size.bytes := by
  rw [MarksWritten, hexec, State.doStore, State.storeData_ok ht hr]
  exact ⟨_, rfl, rfl, fun a => Written.mem_mark⟩

/-- A store whose access is turned away stops and marks nothing. -/
theorem written_of_doStore_stops {f : Fault}
    (h : s.storeData (s.effectiveAddress rs1 imm) size (s.readReg rs2) = .error f) :
    ∃ t, exec i s = .next t ∧ t.stop ≠ .none ∧ t.written = s.written := by
  rw [hexec, State.doStore, h]
  exact ⟨_, rfl, nofun, rfl⟩

theorem marksWrittenIfAdmitted_of_doStore :
    MarksWrittenIfAdmitted i s (s.effectiveAddress rs1 imm) size := by
  rw [MarksWrittenIfAdmitted, ← accessTraps_iff, ← inRange_false, ← inRange_iff, Bool.not_eq_true]
  refine ⟨fun h => ?_, marksWritten_of_doStore hexec⟩
  obtain ⟨f, hf⟩ := s.storeData_error (s.readReg rs2) h
  exact written_of_doStore_stops hexec hf
end

/-- Settles O53: each store is `doStore`, and no check turns a byte access away. -/
theorem storesMarkTheirBytesWritten : Obligations.StoresMarkTheirBytesWritten := by
  rintro rs2 rs1 imm s _ rfl
  exact ⟨marksWritten_of_doStore (size := .byte) rfl (accessTraps_byte ..) (inRange_byte _),
    marksWrittenIfAdmitted_of_doStore rfl, marksWrittenIfAdmitted_of_doStore rfl⟩

/-! ### Ticks -/

/-- Only STORE's row of the memory table asserts `memWrite` (spec/40_datapath_cycle.md R78). -/
theorem memTable_writes :
    ∀ (op : BitVec 7) (f3 : BitVec 3), ((lookup memTable op).any fun row => (row f3).memWrite) = true →
      op = 0b0100011#7 := by decide

theorem memoryControl_memWrite {w : Word} {c : Control} (h : memoryControl w = some c) (hc : c.memWrite = true) :
    opcodeOf w = 0b0100011#7 := by
  obtain ⟨row, hrow, rfl⟩ := Option.map_eq_some_iff.mp h
  exact memTable_writes _ (funct3Of w) (by simpa [hrow] using hc)

/-- `memWrite` is MEMORY's. -/
theorem control_memWrite {s : State} {c : Control} (h : s.control = some c) (hc : c.memWrite = true) :
    s.fsm = .memory := by
  rcases control_cases h with ⟨-, rfl⟩ | ⟨-, rfl⟩ | ⟨-, -, -, hn, -⟩ | ⟨hf, -⟩ | ⟨-, -, -, hn, -⟩
  · cases hc
  · cases hc
  · cases hn.symm.trans hc
  · exact hf
  · cases hn.symm.trans hc

/-- Outside MEMORY no tick marks a byte. -/
theorem tickState_written {s : State} (hr : s.Running) (hf : s.fsm ≠ .memory) :
    (tickState s).written = s.written := by
  rcases tick_running_cases hr with ⟨r, -, e⟩ | ⟨-, r, -, e⟩ | ⟨c, imm, ram, hc, -, -, hram, e⟩ <;> rw [e]
  · rfl
  · rfl
  · rcases ramCycle_mem hram with ⟨-, hwritten⟩ | ⟨size, hw, -⟩
    · exact hwritten
    · exact absurd (control_memWrite hc hw) hf

/-- The MEMORY cycle of an accepted word marks no byte, or is a store's, does not stop and marks the bytes of its
access. -/
theorem cycle_memory_written {s : State} (hi : s.Inv) (hr : s.Running) (hf : s.fsm = .memory) :
    (cycle s).written = s.written ∨ ((cycle s).Running ∧ opcodeOf s.ir = 0b0100011#7 ∧
      ∃ size, latchedSize s.ir = some size ∧ (cycle s).written = s.written.mark s.aluOut.toNat size.bytes) := by
  obtain ⟨imm, himm⟩ := hi.latch_has_imm hr
  rcases memoryControl_cases (hi.latchOk hr) with ⟨-, hc⟩ | ⟨size, write, sz, u, hsize, hs, hc⟩
  · obtain ⟨w, hw⟩ := hi.fetch_reads hr (by simp [hf])
    rw [cycle_memory_idle hf himm hc hw]
    exact .inl rfl
  · cases write with
    | false =>
      rw [cycle_memory_read hf himm hc hs]
      split <;> exact .inl rfl
    | true =>
      obtain ⟨v, e⟩ := cycle_memory_write hf himm hc hs
      rw [e]
      split
      · exact .inl rfl
      · exact .inr ⟨hr, memoryControl_memWrite hc rfl, size, hsize, rfl⟩

/-- Settles O54: no tick outside MEMORY marks a byte, and a tick in MEMORY marks a store's bytes or none. -/
theorem bytesBecomeWrittenOnlyInMemory : Obligations.BytesBecomeWrittenOnlyInMemory := by
  intro s a hr hi
  by_cases hf : s.fsm = .memory
  · rw [tickState_running hr]
    rcases cycle_memory_written hi.markStarted hr hf with h | ⟨hrun, hop, size, hsize, h⟩ <;> rw [h]
    · exact ⟨id, fun hin hout => absurd hin hout⟩
    · rw [Written.mem_mark]
      exact ⟨.inl, fun hin hout => ⟨hrun, hf, hop, size, hsize, hin.resolve_left hout⟩⟩
  · rw [tickState_written hr hf]
    exact ⟨id, fun hin hout => absurd hin hout⟩

end Sys2Proof.Machine
end
